-- ==== Sys2Proof/Word.lean ====
section
/-! DEFINITION. Word.lean: the plain value types of the core (spec/00_scope.md R5, R7). -/

namespace Sys2Proof

/-- A command word or a register's content: 32 bits (R18, R22, R70). -/
abbrev Word := BitVec 32

/-- A byte of either stream: 8 bits (R5, R40). -/
abbrev Byte := BitVec 8

/-- A symbol: a byte value `0..255` or `PSEUDO_EOF = 256` (R5, R9). -/
abbrev Sym := Fin 257

/-- A bit string, its first bit in stream order at the head (R7). -/
abbrev Bits := List Bool

/-- `PSEUDO_EOF`, "the reserved symbol marking logical end of the original data" (R5, R9). -/
def pseudoEof : Sym := 256

end Sys2Proof
end

