-- ==== Sys2Proof/Machine/Bits.lean ====
section
/-! DEFINITION. Machine/Bits.lean: bit strings as numbers, fields as bit strings, bits packed into bytes
(spec/00_scope.md R7; spec/20_memory.md R41, R47). -/

namespace Sys2Proof

/-- `num(p)`: the bit string read as a binary number, left bit most significant, `num('') = 0` (R7). -/
def num (p : Bits) : Nat := p.foldl (fun a b => 2 * a + b.toNat) 0

/-- An `n`-bit field holding `v`: `v[n-1]` first, `v[0]` last; higher bits of `v` are not in it (R7, R46). -/
def field : Nat → Nat → Bits
  | 0, _ => []
  | n + 1, v => v.testBit n :: field n v

/-- The eight bits of a byte, most significant first (R41). -/
def byteBits (b : Byte) : Bits := field 8 b.toNat

/-- The bit sequence of a byte sequence: bytes in order, most significant bit first within each (R41). -/
def unpack (bs : List Byte) : Bits := bs.flatMap byteBits

/-- The whole bytes of a bit sequence, the first bit of each most significant; an incomplete last byte is left
out (R47). -/
def pack : Bits → List Byte
  | a :: b :: c :: d :: e :: f :: g :: h :: rest => BitVec.ofNat 8 (num [a, b, c, d, e, f, g, h]) :: pack rest
  | _ => []

/-- The number of zero bits that complete the final byte, `(8 − (len mod 8)) mod 8` (R48, R81). -/
def padLen (len : Nat) : Nat := (8 - len % 8) % 8

end Sys2Proof
end

