-- ==== Sys2Proof/Machine/Tree.lean ====
section
/-! DEFINITION. Machine/Tree.lean: the Code Tree and the builder's queue entries (spec/10_state.md R12 to R14;
spec/30_encoding.md R77; spec/42_code_table_generator.md R131). -/

namespace Sys2Proof

/-- A Code-Tree node (R12): a leaf with its `value` and `weight`, or an internal node with its `weight` and two
children. No third kind can be written. An internal node's `value` is 0 and no rule reads it, so it has no field
(spec/93_implementation_defined.md U2). -/
inductive Tree where
  | leaf (value : Sym) (weight : Nat)
  | node (weight : Nat) (left right : Tree)
deriving DecidableEq, Repr

/-- A queue entry `(weight, order, tree)` of the builder (R13). -/
structure Entry where
  weight : Nat
  order : Nat
  tree : Tree
deriving DecidableEq, Repr

/-- A node's `weight` field (R12). -/
def Tree.weight : Tree → Nat
  | .leaf _ w => w
  | .node w _ _ => w

/-- A node's `value` field: the symbol at a leaf, 0 at an internal node (R12). -/
def Tree.value : Tree → Nat
  | .leaf s _ => s.val
  | .node _ _ _ => 0

/-- A leaf is a node with both children absent (R12). -/
def Tree.isLeaf : Tree → Bool
  | .leaf _ _ => true
  | .node _ _ _ => false

/-- The leaf symbols, left to right. -/
def Tree.leaves : Tree → List Sym
  | .leaf s _ => [s]
  | .node _ l r => l.leaves ++ r.leaves

/-- The number of nodes, internal ones and leaves together (R115, R145). -/
def Tree.size : Tree → Nat
  | .leaf _ _ => 1
  | .node _ l r => 1 + l.size + r.size

/-- The tree with every weight replaced by 0: its shape and leaf values, which is all an artifact carries
(R14, R143, R146). -/
def Tree.shape : Tree → Tree
  | .leaf s _ => .leaf s 0
  | .node _ l r => .node 0 l.shape r.shape

/-- Each leaf's symbol with its root-to-leaf path, `0` for left and `1` for right, left subtree first (R131). -/
def Tree.paths : Tree → List (Sym × Bits)
  | .leaf s _ => [(s, [])]
  | .node _ l r => (l.paths.map fun sp => (sp.1, false :: sp.2)) ++ r.paths.map fun sp => (sp.1, true :: sp.2)

/-- `field9(s)`: the nine bits of a leaf's symbol field (R78). -/
def field9 (s : Sym) : Bits := field 9 s.val

/-- `ser`: the preorder serialization (R77). -/
def Tree.ser : Tree → Bits
  | .leaf s _ => true :: field9 s
  | .node _ l r => false :: (l.ser ++ r.ser)

/-- The weighted external path length `Σ_s FREQ[s] · depth_T(s)` over the leaves (R110). -/
def Tree.cost (f : Vector Nat 257) : Tree → Nat
  | .leaf _ _ => 0
  | .node _ l r => l.cost f + r.cost f + ((l.leaves ++ r.leaves).map fun s => f[s]).sum

/-- Every node's `weight` is the sum of `FREQ` over the leaves beneath it (R30 (b), R117 (c)). -/
def Tree.weighed (f : Vector Nat 257) : Tree → Bool
  | .leaf s w => w == f[s]
  | .node w l r => w == l.weight + r.weight && l.weighed f && r.weighed f

end Sys2Proof
end

