-- ==== Sys2Proof/Syntax.lean ====
section
/-! DEFINITION. Syntax.lean: one constructor per row of spec/opcode_table.json: the 13 command words
(spec/30_encoding.md R72) and the 5 records of the compressed artifact (R75 to R81). -/

namespace Sys2Proof

/-- The rows of the opcode table. A command has no operands (R70). A record carries the fields its row names. -/
inductive Instr where
  /-- `0x1 COUNT` (R100). -/
  | count
  /-- `0x2 BUILD` (R111). -/
  | build
  /-- `0x3 GENCODES` (R131). -/
  | genCodes
  /-- `0x4 WRMAGIC` (R160). -/
  | wrMagic
  /-- `0x5 WRTREE` (R141). -/
  | wrTree
  /-- `0x6 REWIND` (R102). -/
  | rewind
  /-- `0x7 ENCBODY` (R161). -/
  | encBody
  /-- `0x8 CLOSE` (R165). -/
  | close
  /-- `0x9 RDMAGIC` (R180). -/
  | rdMagic
  /-- `0xA RDTREE` (R143). -/
  | rdTree
  /-- `0xB DECBODY` (R182). -/
  | decBody
  /-- `0xC COMPRESS` (R166). -/
  | compress
  /-- `0xD DECOMPRESS` (R184). -/
  | decompress
  /-- `HDR.MAGIC`, the 32-bit record at artifact bits 0 to 31 (R76). -/
  | hdrMagic (m : Word)
  /-- `TREE.INTERNAL`, the 1-bit record `0` of an internal node (R77). -/
  | treeInternal
  /-- `TREE.LEAF`, the 10-bit record `1vvvvvvvvv` of a leaf (R77, R78). -/
  | treeLeaf (v : BitVec 9)
  /-- `BODY.CODE`, one code of the body: a root-to-leaf path, first step first (R79). -/
  | bodyCode (p : Bits)
  /-- `PAD`, the zero bit repeated `p` times that completes the final byte (R81). -/
  | pad (p : Nat)
deriving DecidableEq, Repr

/-- The 13 command words are what the host writes to `CMD`; the other five rows are records of a stream (R72, R75). -/
def Instr.isCommand : Instr → Bool
  | .count | .build | .genCodes | .wrMagic | .wrTree | .rewind | .encBody | .close => true
  | .rdMagic | .rdTree | .decBody | .compress | .decompress => true
  | .hdrMagic _ | .treeInternal | .treeLeaf _ | .bodyCode _ | .pad _ => false

end Sys2Proof
end

