-- ==== Sys2Proof/WellFormed.lean ====
section
/-! DEFINITION. WellFormed.lean: the bounds the spec puts on a record's fields. A command has no operands, so every
command is well formed (spec/30_encoding.md R70). -/

namespace Sys2Proof

/-- R78: a leaf field above 256 is no symbol. R15, R79: a code has 0 to 256 bits. R81: a pad has 0 to 7 bits. -/
def Instr.wellFormed : Instr → Bool
  | .count | .build | .genCodes | .wrMagic | .wrTree | .rewind | .encBody | .close => true
  | .rdMagic | .rdTree | .decBody | .compress | .decompress => true
  | .hdrMagic _ => true
  | .treeInternal => true
  | .treeLeaf v => decide (v.toNat ≤ 256)
  | .bodyCode p => decide (p.length ≤ 256)
  | .pad p => decide (p ≤ 7)

end Sys2Proof
end

