-- ==== Sys2Proof/Decode.lean ====
section
/-! DEFINITION. Decode.lean: the command decoder (spec/30_encoding.md R70 to R74), the decoder of the artifact's
records (R75 to R81), and the encoder. -/

namespace Sys2Proof

/-- Why bits are no instruction. -/
inductive DecodeError where
  /-- A command word with a non-zero reserved bit `w[31:4]` (R74). -/
  | reservedBits
  /-- A command word with a reserved opcode `0x0`, `0xE` or `0xF` (R74). -/
  | reservedOpcode
  /-- The bits end before the record does. -/
  | shortStream
  /-- A leaf field above 256 (R78). -/
  | notSymbol
  /-- The bits after the last code are no pad: more than seven, or one of them is not zero (R81). -/
  | notPad
deriving DecidableEq, Repr

/-- Format `C`: `opcode = w[3:0]`, `zero = w[31:4]` (R70, R71 step 2, R72). -/
def decode (w : Word) : Except DecodeError Instr :=
  if w.extractLsb' 4 28 ≠ 0 then .error .reservedBits
  else match (w.extractLsb' 0 4).toNat with
    | 0x1 => .ok .count
    | 0x2 => .ok .build
    | 0x3 => .ok .genCodes
    | 0x4 => .ok .wrMagic
    | 0x5 => .ok .wrTree
    | 0x6 => .ok .rewind
    | 0x7 => .ok .encBody
    | 0x8 => .ok .close
    | 0x9 => .ok .rdMagic
    | 0xA => .ok .rdTree
    | 0xB => .ok .decBody
    | 0xC => .ok .compress
    | 0xD => .ok .decompress
    | _ => .error .reservedOpcode

/-- Where a bit string stands, which decides how it is read: a word written to `CMD`, or one of the four parts of
the artifact layout (R75). A body is read by the tree of the same artifact (R79). -/
inductive Space where
  | cmd
  | magic
  | tree
  | body (t : Tree)
  | pad
deriving DecidableEq, Repr

/-- The first `n` bits and the rest. -/
def takeBits (n : Nat) (bits : Bits) : Except DecodeError (Bits × Bits) :=
  if n ≤ bits.length then .ok (bits.take n, bits.drop n) else .error .shortStream

/-- One code: walk from the root, `0` left and `1` right, until the node is a leaf (R79). -/
def takeCode : Tree → Bits → Except DecodeError (Bits × Bits)
  | .leaf _ _, bits => .ok ([], bits)
  | .node _ _ _, [] => .error .shortStream
  | .node _ l r, b :: bits =>
    match takeCode (if b then r else l) bits with
    | .ok (p, rest) => .ok (b :: p, rest)
    | .error e => .error e
termination_by structural _ bits => bits

/-- The first instruction or record of a bit string and the bits after it. -/
def decodeBits (sp : Space) (bits : Bits) : Except DecodeError (Instr × Bits) :=
  match sp with
  | .cmd =>
    match takeBits 32 bits with
    | .ok (p, rest) =>
      match decode (BitVec.ofNat 32 (num p)) with
      | .ok i => .ok (i, rest)
      | .error e => .error e
    | .error e => .error e
  | .magic =>
    match takeBits 32 bits with
    | .ok (p, rest) => .ok (.hdrMagic (BitVec.ofNat 32 (num p)), rest)
    | .error e => .error e
  | .tree =>
    match bits with
    | [] => .error .shortStream
    | false :: rest => .ok (.treeInternal, rest)
    | true :: more =>
      match takeBits 9 more with
      | .ok (p, rest) =>
        if num p ≤ 256 then .ok (.treeLeaf (BitVec.ofNat 9 (num p)), rest) else .error .notSymbol
      | .error e => .error e
  | .body t =>
    match takeCode t bits with
    | .ok (p, rest) => .ok (.bodyCode p, rest)
    | .error e => .error e
  | .pad => if bits.length ≤ 7 && bits.all (! ·) then .ok (.pad bits.length, []) else .error .notPad

/-- The opcode of a command, `w[3:0]` (R72); a record has none. -/
def opcode : Instr → Option (BitVec 4)
  | .count => some 0x1
  | .build => some 0x2
  | .genCodes => some 0x3
  | .wrMagic => some 0x4
  | .wrTree => some 0x5
  | .rewind => some 0x6
  | .encBody => some 0x7
  | .close => some 0x8
  | .rdMagic => some 0x9
  | .rdTree => some 0xA
  | .decBody => some 0xB
  | .compress => some 0xC
  | .decompress => some 0xD
  | .hdrMagic _ => none
  | .treeInternal => none
  | .treeLeaf _ => none
  | .bodyCode _ => none
  | .pad _ => none

/-- The word of a command: its opcode with 28 zero bits above it (R70, R72). -/
def encodeWord (i : Instr) : Option Word := (opcode i).map fun o => o.zeroExtend 32

/-- The bits of a record in stream order (R76, R77, R80, R81); a command's word most significant bit first. -/
def encode : Instr → Bits
  | .hdrMagic m => field 32 m.toNat
  | .treeInternal => [false]
  | .treeLeaf v => true :: field 9 v.toNat
  | .bodyCode p => p
  | .pad p => List.replicate p false
  | .count => field 32 0x1
  | .build => field 32 0x2
  | .genCodes => field 32 0x3
  | .wrMagic => field 32 0x4
  | .wrTree => field 32 0x5
  | .rewind => field 32 0x6
  | .encBody => field 32 0x7
  | .close => field 32 0x8
  | .rdMagic => field 32 0x9
  | .rdTree => field 32 0xA
  | .decBody => field 32 0xB
  | .compress => field 32 0xC
  | .decompress => field 32 0xD

/-- The instruction the decoder reads from a word of the opcode table, bits numbered as the table numbers them: what
the core runs is a 32-bit word written to `CMD`, so the bits above the row's are 0 and more than 32 bits are no word.
A record of the artifact is no command word (R72, R75): `decodeBits` reads those. -/
def decodeTableWord (_nbits w : Nat) : Option Instr :=
  if w < 2 ^ 32 then (decode (BitVec.ofNat 32 w)).toOption else none

end Sys2Proof
end

