-- ==== Sys2Proof/Config.lean ====
section
/-! DEFINITION. Config.lean: the constants the source fixes, the four build parameters it leaves open
(spec/00_scope.md R5, R6; spec/92_eei_decisions.md), and the free values (spec/20_memory.md R43). -/

namespace Sys2Proof

/-- `BITS_PER_WORD`: the input is read in fixed 8-bit chunks (R5). -/
abbrev Config.bitsPerWord : Nat := 8

/-- `SYM_BITS`: the width of a serialized leaf's symbol field (R5). -/
abbrev Config.symBits : Nat := 9

/-- `MAGIC_BITS` (R5). -/
abbrev Config.magicBits : Nat := 32

/-- The default of `MAGIC` (R6, D7). -/
def Config.magicDefault : Word := 0xFACE8201#32

/-- The default of `COUNT_BITS` (R6, D8). -/
def Config.countBitsDefault : Nat := 32

/-- The default of `NODE_CAP`, `2·NSYM − 1` (R6, D14). -/
def Config.nodeCapDefault : Nat := 513

/-- `TIE`, the deterministic order among equal-weight entries (R6, R113): the key the spec decides, or any other
one, which `Config.tieRank` stands for. DESIGN CHOICE (log entry 3). -/
inductive Tie where
  | orderKey
  | other
deriving DecidableEq, Repr

/-- The four build parameters (R6); `none` is `∞`. DESIGN CHOICE (log entry 2): they are data of the state, so that
a statement about every state holds for every value of them. -/
structure Params where
  magic : Word
  tie : Tie
  countBits : Option Nat
  nodeCap : Option Nat
deriving DecidableEq, Repr

/-- The defaults of R6. -/
def Params.default : Params :=
  { magic := Config.magicDefault, tie := .orderKey,
    countBits := some Config.countBitsDefault, nodeCap := some Config.nodeCapDefault }

/-- A legal configuration: `COUNT_BITS ≥ 1`, `NODE_CAP ≥ 513` (spec/92_eei_decisions.md, R115). -/
def Params.legal (p : Params) : Bool :=
  (match p.countBits with | none => true | some c => decide (1 ≤ c)) &&
  (match p.nodeCap with | none => true | some c => decide (513 ≤ c))

/-- The rank of an entry under the order `Tie.other`: uninterpreted, so that nothing can be proved of it (log
entry 3). -/
opaque Config.tieRank : Entry → Nat

/-- How far a short read moves the input position: uninterpreted (R43, log entry 4). -/
opaque Config.eosSkip : Nat → Nat

/-- What a read answers after an end-of-stream answer and before the next rewind: uninterpreted, `none` for `EOS`
(R43, log entry 4). -/
opaque Config.lateRead : Nat → Option Nat

end Sys2Proof
end

