-- ==== Sys2Proof/Machine/State.lean ====
section
/-! DEFINITION. Machine/State.lean: the state of the core and its two ports (spec/10_state.md R10 to R29), the host's
moves (spec/70_reset_and_hazards.md R246), the reset state, and the names a step can stop under. -/

namespace Sys2Proof.Machine

/-- `PHASE`, the command sequencer (R19); its numbers are `Phase.code`. -/
inductive Phase where
  | idle | counted | built | coded | magicW | treeW | rewound | bodyW | magicR | treeR | bodyR | done | fault
deriving DecidableEq, Repr

/-- `ERR`, the fault register (R21); its numbers are `Err.code`. -/
inductive Err where
  | none | malformedHeader | malformedTree | truncatedBody | illegalTree | noCode | countOverflow | badCommand
  | badSequence
deriving DecidableEq, Repr

/-- The two registers of the host's window (R18, R22); there is no other (R216). -/
inductive Reg where
  | cmd | status
deriving DecidableEq, Repr

/-- What the outside world can do (R230, R245, R246): write a register, read a register, apply reset and bind the next
call's input stream (R234), or apply reset in the middle of a command (R230), when `cut` bits of output have been
written or as near to that as the command comes. -/
inductive HostMove where
  | write (r : Reg) (w : Word)
  | read (r : Reg)
  | reset (input : List Byte)
  | resetDuring (w : Word) (cut : Nat) (input : List Byte)
deriving DecidableEq, Repr

/-- The state of R10, the build parameters of R6, and the host's side of the interface. `Q`, `K` and `CUR` exist only
while one command runs (R10, R13, R20): they are arguments of the functions that give BUILD and DECBODY. `CMD` and
`STATUS` hold no state (R10, R18, R22). An absent table is the spec's own state, not a missing reset value (R29). -/
structure State where
  /-- `MAGIC`, `TIE`, `COUNT_BITS`, `NODE_CAP`: constant for the life of the core (R6, R233). -/
  params : Params
  /-- `FREQ`, absent or 257 counters (R11, R29). -/
  freq : Option (Vector Nat 257)
  /-- `TREE`, absent or one tree (R14). -/
  tree : Option Tree
  /-- `CODE`, 257 entries, each absent or a bit string (R15). -/
  code : Vector (Option Bits) 257
  /-- `PHASE` (R19). -/
  phase : Phase
  /-- `ERR` (R21). -/
  err : Err
  /-- `IBYTES`, the input stream (R16). -/
  ibytes : List Byte
  /-- `IPOS`, the number of input bits consumed (R16). -/
  ipos : Nat
  /-- `OBITS`, the bits written (R17). -/
  obits : Bits
  /-- `OCLOSED` (R17). -/
  oclosed : Bool
  /-- The input port has answered `EOS` and was not rewound since, so what it answers is unspecified (R43). -/
  stale : Bool
  /-- The model's own: how many free values the run has drawn (log entry 4). -/
  draws : Nat
  /-- The model's own: the host's moves still to come, the next one first (R246). -/
  inbox : List HostMove
  /-- The host's side: what its latest register read returned. -/
  rdata : Option Word
  /-- The host's side: the bytes delivered to it in earlier calls, one list for each (R230). -/
  taken : List (List Byte)
deriving DecidableEq, Repr

/-- Right after reset (R29, R230), before the host has bound a stream or moved, with the default parameters of R6. -/
def State.reset : State :=
  { params := Params.default, freq := none, tree := none, code := Vector.replicate 257 none, phase := .idle,
    err := .none, ibytes := [], ipos := 0, obits := [], oclosed := false, stale := false, draws := 0, inbox := [],
    rdata := none, taken := [] }

/-- What stops the machine. None of these is a fault of the spec: its eight faults are next states (R209). -/
inductive Fault where
  /-- BUILD, GENCODES, WRTREE, DECBODY: the table they read is absent, and "absent" can be read by no rule (R29).
  Safe: no state that a run reaches has it. -/
  | absentTable
  /-- BUILD: every counter is zero, so no node is left to be the root (R118 supposes a well-formed table). Safe: no
  state that a run reaches has it. -/
  | emptyQueue
  /-- COUNT, BUILD, RDTREE, ENCBODY, DECBODY: the bound on a loop's rounds was too small. Safe: the bounds always
  suffice (R186, R244). -/
  | loopBound
deriving DecidableEq, Repr

/-- What the model refuses. -/
inductive Refusal where
  /-- An instruction without a meaning in this model. Safe. No arm of `exec` answers it. -/
  | notModelled (mnemonic : String)
  /-- A port operation with a width outside 1 to 32 (spec/93_implementation_defined.md U10). Safe: the core issues
  none (R42, R46). -/
  | portWidth
  /-- A write to, or a close of, an output already closed (spec/93_implementation_defined.md U11). Safe: the core
  issues none (R46, R48). -/
  | portClosed
deriving DecidableEq, Repr

/-- What one command or one step answers. -/
abbrev Result := Host.Outcome State Fault Refusal

end Sys2Proof.Machine
end

