-- ==== Sys2Proof/Machine/Flags.lean ====
section
/-! DEFINITION. Machine/Flags.lean: the numbers of `PHASE` and `ERR` and the status register (spec/10_state.md R19,
R21, R22). The core has no arithmetic condition codes (R25). -/

namespace Sys2Proof.Machine

/-- R19. -/
def Phase.code : Phase → BitVec 4
  | .idle => 0
  | .counted => 1
  | .built => 2
  | .coded => 3
  | .magicW => 4
  | .treeW => 5
  | .rewound => 6
  | .bodyW => 7
  | .magicR => 8
  | .treeR => 9
  | .bodyR => 10
  | .done => 11
  | .fault => 12

/-- R21. -/
def Err.code : Err → BitVec 4
  | .none => 0
  | .malformedHeader => 1
  | .malformedTree => 2
  | .truncatedBody => 3
  | .illegalTree => 4
  | .noCode => 5
  | .countOverflow => 6
  | .badCommand => 7
  | .badSequence => 8

/-- `STATUS`: bits 3:0 `PHASE`, 7:4 `ERR`, 8 `OCLOSED`, 31:9 zero (R22). -/
def State.status (s : State) : Word :=
  0#23 ++ BitVec.ofBool s.oclosed ++ s.err.code ++ s.phase.code

/-- Register numbers: `CMD` is 0, `STATUS` is 1 (R18, R22). -/
def Reg.number : Reg → Nat
  | .cmd => 0
  | .status => 1

/-- What a host read of a register returns: 0 from `CMD` (R18), the status word from `STATUS` (R22). -/
def State.readReg (s : State) : Reg → Word
  | .cmd => 0
  | .status => s.status

end Sys2Proof.Machine
end

