-- ==== Sys2Proof/Machine/Ops.lean ====
section
/-! DEFINITION. Machine/Ops.lean: the shared operations: sequencing inside a command, the two ports
(spec/20_memory.md R40 to R49), taking a fault (spec/60_exceptions.md R209), the legality of a command
(spec/30_encoding.md R73), reset (spec/70_reset_and_hazards.md R230). -/

namespace Sys2Proof.Machine

/-- What a piece of a command's pseudocode answers: it is done with a value, or it has raised a fault of the spec
(the state is the one at the point of the raise, R209), or the model stops. -/
inductive Act (α : Type) where
  | done (a : α) (s : State)
  | raised (e : Err) (s : State)
  | halted (f : Fault)
  | refused (r : Refusal)
deriving DecidableEq, Repr

/-- One operation after another: after a raise no later line runs (R209 (1)). -/
def Act.andThen {α β : Type} (x : Act α) (f : α → State → Act β) : Act β :=
  match x with
  | .done a s => f a s
  | .raised e s => .raised e s
  | .halted r => .halted r
  | .refused r => .refused r

/-- Fault entry `raise e` (R209): `ERR` takes the code if it is `NONE` (R21), `PHASE` becomes `FAULT`, everything else
keeps its value; there is no handler to go to. -/
def State.raise (e : Err) (s : State) : State :=
  { s with err := if s.err = .none then e else s.err, phase := .fault }

/-- The end of a command: the state its pseudocode leaves, or fault entry. A fault is never left but by reset (R212):
there is no return to model. -/
def Act.finish : Act Unit → Result
  | .done _ s => .next s
  | .raised e s => .next (s.raise e)
  | .halted f => .fault f
  | .refused r => .refused r

/-! ### The input port -/

/-- A read's answer: the tag `EOS`, distinct from every value, or the value (R42). -/
inductive Answer (n : Nat) where
  | eos
  | val (v : BitVec n)
deriving DecidableEq, Repr

/-- `8·NI`, the length of the input stream in bits (R41). -/
def State.inLen (s : State) : Nat := 8 * s.ibytes.length

/-- The input bits not yet consumed, in stream order (R41). -/
def State.inBits (s : State) : Bits := (unpack s.ibytes).drop s.ipos

/-- An end-of-stream answer: the position moves to an unspecified place between where it is and the end, and what the
port answers from now to the next rewind is unspecified (R43, log entry 4). -/
def State.afterEos (s : State) : State :=
  { s with
    ipos := s.ipos + Config.eosSkip s.draws % (s.inLen - s.ipos + 1), stale := true, draws := s.draws + 1 }

/-- `InRead(n)` (R42): the next `n` bits as an unsigned number, or `EOS` when fewer remain. A width outside 1 to 32 is
refused (U10). After an `EOS` the answer is a free value, a value only while `n` bits remain (R16, R24, R43, log
entry 4). -/
def inRead (n : Nat) (s : State) : Act (Answer n) :=
  if n = 0 ∨ 32 < n then .refused .portWidth
  else if s.inLen < s.ipos + n then .done .eos s.afterEos
  else if s.stale then
    match Config.lateRead s.draws with
    | none => .done .eos s.afterEos
    | some v => .done (.val (BitVec.ofNat n v)) { s with ipos := s.ipos + n, draws := s.draws + 1 }
  else .done (.val (BitVec.ofNat n (num (s.inBits.take n)))) { s with ipos := s.ipos + n }

/-- `InReset()` (R44): back to the first bit; the unspecified state an `EOS` left is cleared. -/
def inReset (s : State) : State := { s with ipos := 0, stale := false }

/-- A bound on the reads that can still succeed before an `EOS`, and the `EOS` itself (R244): each read that succeeds
consumes at least one bit. -/
def State.readBound (s : State) : Nat := s.inLen - s.ipos + 1

/-! ### The output port -/

/-- Append bits to the output; "requires `OCLOSED = 0`" (R46, R48, U11). -/
def outBits (p : Bits) (s : State) : Act Unit :=
  if s.oclosed then .refused .portClosed else .done () { s with obits := s.obits ++ p }

/-- `OutWrite(n, v)` (R46): the low-order `n` bits of `v`, most significant first. A width outside 1 to 32 is refused
(U10). -/
def outWrite (n v : Nat) (s : State) : Act Unit :=
  if n = 0 ∨ 32 < n then .refused .portWidth else outBits (field n v) s

/-- `OutClose()` (R48): the pad that completes the final byte, then `OCLOSED <- 1`. -/
def outClose (s : State) : Act Unit :=
  (outBits (List.replicate (padLen s.obits.length) false) s).andThen fun _ s => .done () { s with oclosed := true }

/-- `OBYTES`: the bytes delivered to the host, those whose eight bits have all been written (R17, R47). -/
def State.obytes (s : State) : List Byte := pack s.obits

/-! ### Command order -/

/-- The phases in which a command is legal (R73); CLOSE is accepted in `FAULT` too, by its own rule (R71 step 1). A
record is no command and is issued in none. -/
def legalPhases : Instr → List Phase
  | .count => [.idle]
  | .build => [.counted]
  | .genCodes => [.built]
  | .wrMagic => [.coded]
  | .wrTree => [.magicW]
  | .rewind => [.treeW]
  | .encBody => [.rewound]
  | .close => [.bodyW, .bodyR]
  | .rdMagic => [.idle]
  | .rdTree => [.magicR]
  | .decBody => [.treeR]
  | .compress => [.idle]
  | .decompress => [.idle]
  | .hdrMagic _ => []
  | .treeInternal => []
  | .treeLeaf _ => []
  | .bodyCode _ => []
  | .pad _ => []

/-- R71 steps 1, 3 and 4 for a command other than CLOSE: ignored in `FAULT`, `BAD_SEQUENCE` in a phase where it is not
legal, else its own rule. -/
def issue (i : Instr) (rule : State → Result) (s : State) : Result :=
  if s.phase = .fault then .next s
  else if s.phase ∈ legalPhases i then rule s
  else .next (s.raise .badSequence)

/-- `PHASE <- p`, a command's last write (R19). -/
def State.enter (p : Phase) (s : State) : State := { s with phase := p }

/-! ### Reset -/

/-- Reset with the next call's input bound (R230, R233, R234). Every piece of state takes its reset value; the build
parameters are constant (R233); the bytes already delivered stay with the host, the rest of the output is lost. -/
def State.applyReset (input : List Byte) (s : State) : State :=
  { State.reset with
    params := s.params, ibytes := input, draws := s.draws, inbox := s.inbox, rdata := s.rdata,
    taken := s.taken ++ [s.obytes] }

end Sys2Proof.Machine
end

