-- ==== Sys2Proof/Machine/Operands.lean ====
section
/-! DEFINITION. Machine/Operands.lean: the state a command works on. No command has operands (spec/30_encoding.md
R70): each reads the tables its own rule names (spec/10_state.md R23). -/

namespace Sys2Proof.Machine

/-- Read `FREQ`; an absent table has no value to read (R29). -/
def needFreq (s : State) : Act (Vector Nat 257) :=
  match s.freq with
  | some f => .done f s
  | none => .halted .absentTable

/-- Read `TREE`; an absent tree has no value to read (R29). -/
def needTree (s : State) : Act Tree :=
  match s.tree with
  | some t => .done t s
  | none => .halted .absentTable

/-- The symbol of a byte value (R5, R9). -/
def byteSym (b : Byte) : Sym := ⟨b.toNat, Nat.lt_of_lt_of_le b.isLt (by decide)⟩

/-- The symbol of a 9-bit field, if it is one: the field is the unsigned value, and 257 to 511 are no symbols
(R78). -/
def fieldSym (v : BitVec 9) : Option Sym :=
  if h : v.toNat < 257 then some ⟨v.toNat, h⟩ else none

end Sys2Proof.Machine
end

