-- ==== Sys2Proof/Machine/CodeTable.lean ====
section
/-! DEFINITION. Machine/CodeTable.lean: GENCODES (spec/42_code_table_generator.md). -/

namespace Sys2Proof.Machine

/-- `walk(t, path)` (R131): at a leaf record the path, else go left with `0` appended, then right with `1`. -/
def walk : Tree → Bits → Vector (Option Bits) 257 → Vector (Option Bits) 257
  | .leaf s _, path, c => c.set s (some path)
  | .node _ l r, path, c => walk r (path ++ [true]) (walk l (path ++ [false]) c)

/-- The code table of a tree: every entry absent, then the walk from the root with the empty path (R131). -/
def codeTable (t : Tree) : Vector (Option Bits) 257 := walk t [] (Vector.replicate 257 none)

/-- The pseudocode of R131. -/
def genCodesRule (s : State) : Act Unit :=
  (needTree s).andThen fun t s => .done () { s with code := codeTable t, phase := .coded }

/-- GENCODES (R131). -/
def execGenCodes (s : State) : Result := issue .genCodes (fun s => (genCodesRule s).finish) s

end Sys2Proof.Machine
end

