-- ==== Sys2Proof/Machine/Frequency.lean ====
section
/-! DEFINITION. Machine/Frequency.lean: COUNT and REWIND (spec/40_frequency_analyzer.md). -/

namespace Sys2Proof.Machine

/-- Can a counter holding `c` be incremented? `2^COUNT_BITS − 1` cannot; with `COUNT_BITS = ∞` every one can (R101). -/
def countFits (p : Params) (c : Nat) : Bool :=
  match p.countBits with
  | none => true
  | some k => decide (c ≠ 2 ^ k - 1)

/-- COUNT's loop (R100), at most `bound` reads. A fault leaves the table it was building absent (R209 (4)). -/
def countLoop : Nat → Vector Nat 257 → State → Act (Vector Nat 257)
  | 0, _, _ => .halted .loopBound
  | bound + 1, f, s => (inRead 8 s).andThen fun r s =>
      match r with
      | .eos => .done f s
      | .val b =>
        if countFits s.params f[byteSym b] then countLoop bound (f.set (byteSym b) (f[byteSym b] + 1)) s
        else .raised .countOverflow { s with freq := none }

/-- The pseudocode of R100. -/
def countRule (s : State) : Act Unit :=
  (countLoop s.readBound (Vector.replicate 257 0) s).andThen fun f s =>
    .done () { s with freq := some (f.set pseudoEof 1), phase := .counted }

/-- COUNT, the Frequency Analyzer (R100). -/
def execCount (s : State) : Result := issue .count (fun s => (countRule s).finish) s

/-- REWIND (R102). -/
def execRewind (s : State) : Result := issue .rewind (fun s => .next ((inReset s).enter .rewound)) s

end Sys2Proof.Machine
end

