-- ==== Sys2Proof/Machine/TreeBuilder.lean ====
section
/-! DEFINITION. Machine/TreeBuilder.lean: BUILD (spec/41_tree_builder.md). -/

namespace Sys2Proof.Machine

/-- Entry `x` is before entry `y`: by weight, then by the order `TIE` (R113). Under `Tie.other` the rank decides and
the order key parts equal ranks, so it is a strict total order whatever the rank. -/
def entryBefore (tie : Tie) (x y : Entry) : Bool :=
  decide (x.weight < y.weight) ||
  (decide (x.weight = y.weight) &&
    match tie with
    | .orderKey => decide (x.order < y.order)
    | .other => decide (Config.tieRank x < Config.tieRank y) ||
        (decide (Config.tieRank x = Config.tieRank y) && decide (x.order < y.order)))

/-- Insert into the queue, which is kept in order, so that its head is the minimum (R13, R113). -/
def queueInsert (tie : Tie) (e : Entry) : List Entry → List Entry
  | [] => [e]
  | x :: q => if entryBefore tie e x then e :: x :: q else x :: queueInsert tie e q

/-- The leaf entry of a symbol: `order` is the symbol's value (R112, R113). -/
def leafEntry (f : Vector Nat 257) (s : Sym) : Entry :=
  { weight := f[s], order := s.val, tree := .leaf s f[s] }

/-- The queue of one leaf per symbol with a non-zero count, in ascending symbol order (R112). -/
def leafQueue (tie : Tie) (f : Vector Nat 257) : List Entry :=
  (List.finRange 257).foldl (fun q s => if f[s] = 0 then q else queueInsert tie (leafEntry f s) q) []

/-- The entry that replaces the two extracted ones: left the first, right the second, `order = 257 + K` (R114). -/
def mergeEntry (k : Nat) (a b : Entry) : Entry :=
  { weight := a.weight + b.weight, order := 257 + k, tree := .node (a.weight + b.weight) a.tree b.tree }

/-- The merges (R114, R115), at most `bound` of them; `k` is `K`. The last entry's tree is the result. -/
def mergeLoop (tie : Tie) : Nat → Nat → List Entry → Except Fault Tree
  | _, _, [] => .error .emptyQueue
  | _, _, [e] => .ok e.tree
  | 0, _, _ :: _ :: _ => .error .loopBound
  | bound + 1, k, a :: b :: q => mergeLoop tie bound (k + 1) (queueInsert tie (mergeEntry k a b) q)

/-- The tree BUILD makes from a frequency table (R111). -/
def buildTree (tie : Tie) (f : Vector Nat 257) : Except Fault Tree :=
  mergeLoop tie (leafQueue tie f).length 0 (leafQueue tie f)

/-- The pseudocode of R111. -/
def buildRule (s : State) : Act Unit :=
  (needFreq s).andThen fun f s =>
    match buildTree s.params.tie f with
    | .ok t => .done () { s with tree := some t, phase := .built }
    | .error r => .halted r

/-- BUILD (R111). -/
def execBuild (s : State) : Result := issue .build (fun s => (buildRule s).finish) s

end Sys2Proof.Machine
end

