-- ==== Sys2Proof/Machine/Records.lean ====
section
/-! DEFINITION. Machine/Records.lean: the five records of the artifact (spec/30_encoding.md R75 to R81). A record has
two sides: it is written by one command and read by another. `exec` of a record is its WRITING (log entry 5); the
reading side of each record that is read stands beside it, and the commands are made of these operations. -/

namespace Sys2Proof.Machine

/-! ### HDR.MAGIC -/

/-- The 32-bit field, most significant bit first (R76). -/
def putMagic (m : Word) (s : State) : Act Unit := outWrite 32 m.toNat s

/-- The first 32 bits as one number (R180). -/
def getMagic (s : State) : Act (Answer 32) := inRead 32 s

/-- HDR.MAGIC: append the field (R76). -/
def execHdrMagic (m : Word) (s : State) : Result := (putMagic m s).finish

/-! ### TREE.INTERNAL and TREE.LEAF -/

/-- One `0` bit (R77). -/
def putInternal (s : State) : Act Unit := outWrite 1 0 s

/-- One `1` bit, then the symbol's nine bits (R77, R78). -/
def putLeaf (v : BitVec 9) (s : State) : Act Unit :=
  (outWrite 1 1 s).andThen fun _ s => outWrite 9 v.toNat s

/-- A tree record as the reader meets it. -/
inductive TreeRecord where
  | internal
  | leaf (s : Sym)
deriving DecidableEq, Repr

/-- Read one tree record, the `count`-th of its tree counting from 0 (R143 to R145): the flag bit, then the node count
against `NODE_CAP`, then a leaf's symbol field. -/
def getRecord (count : Nat) (s : State) : Act TreeRecord :=
  (inRead 1 s).andThen fun r s =>
    match r with
    | .eos => .raised .malformedTree s
    | .val b =>
      if s.params.nodeCap.any (· < count + 1) then .raised .illegalTree s
      else if b = 0 then .done .internal s
      else (inRead 9 s).andThen fun f s =>
        match f with
        | .eos => .raised .malformedTree s
        | .val v =>
          match fieldSym v with
          | none => .raised .illegalTree s
          | some sym => .done (.leaf sym) s

/-- TREE.INTERNAL: append the record (R77). -/
def execTreeInternal (s : State) : Result := (putInternal s).finish

/-- TREE.LEAF: append the record (R77). -/
def execTreeLeaf (v : BitVec 9) (s : State) : Result := (putLeaf v s).finish

/-! ### BODY.CODE -/

/-- The 32-bit groups `q-1, .., 0` of `bits`, the most significant group first (R162). -/
def emitGroups : Nat → Nat → State → Act Unit
  | 0, _, s => .done () s
  | q + 1, bits, s => (outWrite 32 (bits >>> (32 * q)) s).andThen fun _ s => emitGroups q bits s

/-- `emit((len, bits))` (R162): the first `len mod 32` bits when that is not 0, then whole groups of 32. Nothing for the
empty code. -/
def emitPair (len bits : Nat) (s : State) : Act Unit :=
  if len % 32 = 0 then emitGroups (len / 32) bits s
  else (outWrite (len % 32) (bits >>> (32 * (len / 32))) s).andThen fun _ s => emitGroups (len / 32) bits s

/-- `emit(p)`: the pair of the code string is `(|p|, num(p))` (R15, R80, R162). -/
def emit (p : Bits) (s : State) : Act Unit := emitPair p.length (num p) s

/-- BODY.CODE: append the code (R79, R162). -/
def execBodyCode (p : Bits) (s : State) : Result := (emit p s).finish

/-- Read one code: from the node `cur`, `0` moves left and `1` right until the node is a leaf; `EOS` before that is
`TRUNCATED_BODY` (R79, R182, R185). -/
def getCode : Tree → State → Act Sym
  | .leaf s _, st => .done s st
  | .node _ l r, st => (inRead 1 st).andThen fun a st =>
      match a with
      | .eos => .raised .truncatedBody st
      | .val b => if b = 0 then getCode l st else getCode r st

/-! ### PAD -/

/-- PAD: append `p` zero bits (R81). It is never read. -/
def execPad (p : Nat) (s : State) : Result := (outBits (List.replicate p false) s).finish

end Sys2Proof.Machine
end

