-- ==== Sys2Proof/Machine/TreeSerdes.lean ====
section
/-! DEFINITION. Machine/TreeSerdes.lean: WRTREE and RDTREE (spec/43_tree_serdes.md). -/

namespace Sys2Proof.Machine

/-- `put(t)` (R141): preorder, one record per node, left subtree before right. -/
def putTree : Tree → State → Act Unit
  | .leaf v _, s => putLeaf (BitVec.ofNat 9 v.val) s
  | .node _ l r, s => (putInternal s).andThen fun _ s => (putTree l s).andThen fun _ s => putTree r s

/-- The pseudocode of R141. -/
def wrTreeRule (s : State) : Act Unit :=
  (needTree s).andThen fun t s => (putTree t s).andThen fun _ s => .done () (s.enter .treeW)

/-- WRTREE (R141). -/
def execWrTree (s : State) : Result := issue .wrTree (fun s => (wrTreeRule s).finish) s

/-- `get()` (R143): `count` nodes have been read; answer the tree with weights 0 and the new count. `bound` is a bound
on the depth: each level costs at least one bit (R148). -/
def getTree : Nat → Nat → State → Act (Tree × Nat)
  | 0, _, _ => .halted .loopBound
  | bound + 1, count, s => (getRecord count s).andThen fun r s =>
      match r with
      | .leaf v => .done (.leaf v 0, count + 1) s
      | .internal => (getTree bound (count + 1) s).andThen fun lc s =>
          (getTree bound lc.2 s).andThen fun rc s => .done (.node 0 lc.1 rc.1, rc.2) s

/-- The pseudocode of R143 with its root check (R145 (c)). On a fault `TREE` is left absent. -/
def rdTreeRule (s : State) : Act Unit :=
  (getTree s.readBound 0 { s with tree := none }).andThen fun tc s =>
    if tc.1.isLeaf ∧ tc.1.value ≠ 256 then .raised .illegalTree s
    else .done () { s with tree := some tc.1, phase := .treeR }

/-- RDTREE (R143). -/
def execRdTree (s : State) : Result := issue .rdTree (fun s => (rdTreeRule s).finish) s

end Sys2Proof.Machine
end

