-- ==== Sys2Proof/Machine/Encoder.lean ====
section
/-! DEFINITION. Machine/Encoder.lean: WRMAGIC, ENCBODY, CLOSE and COMPRESS (spec/44_encoder.md). -/

namespace Sys2Proof.Machine

/-- The pseudocode of R160. -/
def wrMagicRule (s : State) : Act Unit :=
  (putMagic s.params.magic s).andThen fun _ s => .done () (s.enter .magicW)

/-- WRMAGIC (R160). -/
def execWrMagic (s : State) : Result := issue .wrMagic (fun s => (wrMagicRule s).finish) s

/-- Look a symbol up and write its code; an absent entry is `NO_CODE` (R161, R163). -/
def putCode (v : Sym) (s : State) : Act Unit :=
  match s.code[v] with
  | none => .raised .noCode s
  | some p => emit p s

/-- ENCBODY's loop (R161), at most `bound` reads. -/
def encLoop : Nat → State → Act Unit
  | 0, _ => .halted .loopBound
  | bound + 1, s => (inRead 8 s).andThen fun r s =>
      match r with
      | .eos => .done () s
      | .val b => (putCode (byteSym b) s).andThen fun _ s => encLoop bound s

/-- The pseudocode of R161. -/
def encBodyRule (s : State) : Act Unit :=
  (encLoop s.readBound s).andThen fun _ s =>
    (putCode pseudoEof s).andThen fun _ s => .done () (s.enter .bodyW)

/-- ENCBODY (R161). -/
def execEncBody (s : State) : Result := issue .encBody (fun s => (encBodyRule s).finish) s

/-- The pseudocode of R165: `PHASE` becomes `DONE` unless it is `FAULT`. -/
def closeRule (s : State) : Act Unit :=
  (outClose s).andThen fun _ s => .done () (if s.phase = .fault then s else s.enter .done)

/-- CLOSE (R165), the one command accepted in `FAULT`, while the output is open (R71 step 1, R211). -/
def execClose (s : State) : Result :=
  if s.phase = .fault then (if s.oclosed then .next s else (closeRule s).finish)
  else issue .close (fun s => (closeRule s).finish) s

/-- A macro's steps in order (R86, R166, R184): a fault skips the remaining ones, and CLOSE is always the last. -/
def runSteps : List (State → Result) → State → Result
  | [], s => execClose s
  | c :: cs, s =>
    match c s with
    | .next s' => if s'.phase = .fault then execClose s' else runSteps cs s'
    | .fault f => .fault f
    | .refused r => .refused r

/-- COMPRESS (R166). -/
def execCompress (s : State) : Result :=
  issue .compress
    (runSteps [execCount, execBuild, execGenCodes, execWrMagic, execWrTree, execRewind, execEncBody]) s

end Sys2Proof.Machine
end

