-- ==== Sys2Proof/Machine/Decoder.lean ====
section
/-! DEFINITION. Machine/Decoder.lean: RDMAGIC, DECBODY and DECOMPRESS (spec/45_decoder.md). -/

namespace Sys2Proof.Machine

/-- The pseudocode of R180. -/
def rdMagicRule (s : State) : Act Unit :=
  (getMagic s).andThen fun r s =>
    match r with
    | .eos => .raised .malformedHeader s
    | .val m => if m = s.params.magic then .done () (s.enter .magicR) else .raised .malformedHeader s

/-- RDMAGIC (R180). -/
def execRdMagic (s : State) : Result := issue .rdMagic (fun s => (rdMagicRule s).finish) s

/-- DECBODY's loop (R182), at most `bound` symbols: one code from the root, then stop at `PSEUDO_EOF` or write the
symbol as a full byte and start again at the root. -/
def decLoop (root : Tree) : Nat → State → Act Unit
  | 0, _ => .halted .loopBound
  | bound + 1, s => (getCode root s).andThen fun v s =>
      if v = pseudoEof then .done () s
      else (outWrite 8 v.val s).andThen fun _ s => decLoop root bound s

/-- The pseudocode of R182; on a bare leaf it ends at once (R183). -/
def decBodyRule (s : State) : Act Unit :=
  (needTree s).andThen fun t s =>
    if t.isLeaf then .done () (s.enter .bodyR)
    else (decLoop t s.readBound s).andThen fun _ s => .done () (s.enter .bodyR)

/-- DECBODY (R182). -/
def execDecBody (s : State) : Result := issue .decBody (fun s => (decBodyRule s).finish) s

/-- DECOMPRESS (R184). -/
def execDecompress (s : State) : Result :=
  issue .decompress (runSteps [execRdMagic, execRdTree, execDecBody]) s

end Sys2Proof.Machine
end

