-- ==== Sys2Proof/Machine/Dispatch.lean ====
section
/-! DEFINITION. Machine/Dispatch.lean: one arm per row of spec/opcode_table.json. -/

namespace Sys2Proof.Machine

def exec (i : Instr) (s : State) : Host.Outcome State Fault Refusal :=
  match i with
  | .count => Sys2Proof.Machine.execCount s
  | .build => Sys2Proof.Machine.execBuild s
  | .genCodes => Sys2Proof.Machine.execGenCodes s
  | .wrMagic => Sys2Proof.Machine.execWrMagic s
  | .wrTree => Sys2Proof.Machine.execWrTree s
  | .rewind => Sys2Proof.Machine.execRewind s
  | .encBody => Sys2Proof.Machine.execEncBody s
  | .close => Sys2Proof.Machine.execClose s
  | .rdMagic => Sys2Proof.Machine.execRdMagic s
  | .rdTree => Sys2Proof.Machine.execRdTree s
  | .decBody => Sys2Proof.Machine.execDecBody s
  | .compress => Sys2Proof.Machine.execCompress s
  | .decompress => Sys2Proof.Machine.execDecompress s
  | .hdrMagic m => Sys2Proof.Machine.execHdrMagic m s
  | .treeInternal => Sys2Proof.Machine.execTreeInternal s
  | .treeLeaf v => Sys2Proof.Machine.execTreeLeaf v s
  | .bodyCode p => Sys2Proof.Machine.execBodyCode p s
  | .pad p => Sys2Proof.Machine.execPad p s

end Sys2Proof.Machine
end

