-- ==== Sys2Proof/Machine/HostMoves.lean ====
section
/-! DEFINITION. Machine/HostMoves.lean: what the core does on each move of the host (spec/30_encoding.md R71;
spec/10_state.md R18, R22; spec/70_reset_and_hazards.md R230, R246). -/

namespace Sys2Proof.Machine

/-- A write of `w` to `CMD` (R71). A word that is no command raises `BAD_COMMAND`, but is ignored in `FAULT`; the rest
of R71 stands in each command's meaning. -/
def issueWord (w : Word) (s : State) : Result :=
  match decode w with
  | .ok i => exec i s
  | .error _ => if s.phase = .fault then .next s else .next (s.raise .badCommand)

/-- A write to a register: `CMD` issues a command, a write to `STATUS` is ignored (R18, R22). -/
def writeReg (r : Reg) (w : Word) (s : State) : Result :=
  match r with
  | .cmd => issueWord w s
  | .status => .next s

/-- The state in which a reset in the middle of the command word `w` finds the output: what the command had written by
then, at least what was there before it and at most all it writes (R52, R230, log entry 6). -/
def cutShort (w : Word) (cut : Nat) (s : State) : State :=
  match issueWord w s with
  | .next t => { s with obits := t.obits.take (max s.obits.length cut) }
  | .fault _ => s
  | .refused _ => s

/-- One move of the host (R246). -/
def hostMove (m : HostMove) (s : State) : Result :=
  match m with
  | .write r w => writeReg r w s
  | .read r => .next { s with rdata := some (s.readReg r) }
  | .reset input => .next (s.applyReset input)
  | .resetDuring w cut input => .next ((cutShort w cut s).applyReset input)

/-- Take the next move out of the inbox; with none there, the core waits for one (R216, R230). -/
def takeMove (s : State) : Result :=
  match s.inbox with
  | [] => .next s
  | m :: rest => hostMove m { s with inbox := rest }

/-- Put a command word at the head of the inbox, so that the host's next move is to write it to `CMD`. -/
def State.offerWord (w : Word) (s : State) : State := { s with inbox := .write .cmd w :: s.inbox }

end Sys2Proof.Machine
end

