-- ==== Sys2Proof/Machine/Step.lean ====
section
/-! DEFINITION. Machine/Step.lean: one step of the machine: one move of the host, with the command it issues run to
completion (spec/20_memory.md R52; spec/70_reset_and_hazards.md R246). -/

namespace Sys2Proof.Machine

def step (s : State) : Host.Outcome State Fault Refusal := takeMove s

/-- The core fetches no program (R24): its next instruction is the next word the host writes to `CMD`. -/
def State.withFetchWord (s : State) (_nbits w : Nat) : State := s.offerWord (BitVec.ofNat 32 w)

end Sys2Proof.Machine
end

