-- ==== Sys2Proof/Safety.lean ====
section
/-! DEFINITION. Safety.lean: the terms the statements use: what the tables and the artifact of an input are
(spec/30_encoding.md R75; spec/40_frequency_analyzer.md R100), the invariant of reachable states (spec/10_state.md
R30), a tree part way through its
reading (spec/43_tree_serdes.md R143), and how a call runs and ends (spec/70_reset_and_hazards.md R243). -/

namespace Sys2Proof

/-- The subtree a bit string leads to from the root, `0` left and `1` right (R9 "Code", R79). -/
def Tree.follow : Tree → Bits → Option Tree
  | t, [] => some t
  | .leaf _ _, _ :: _ => none
  | .node _ l r, b :: p => if b then r.follow p else l.follow p

/-- The bit at position `j` of the input stream of a byte sequence, `IBYTES[j div 8][7 − (j mod 8)]` (R41). -/
def bitAt (bs : List Byte) (j : Nat) : Bool := (bs.getD (j / 8) 0).getLsbD (7 - j % 8)

/-- Where a bit string may stand that begins with the bits of an instruction: a command word is written to `CMD`, a
record stands in its part of the artifact (R75), a code is read by a tree that has it (R79), and the pad ends the
artifact (R81). -/
def Admits (sp : Space) (rest : Bits) : Instr → Prop
  | .hdrMagic _ => sp = .magic
  | .treeInternal => sp = .tree
  | .treeLeaf _ => sp = .tree
  | .bodyCode p => ∃ t v w, sp = .body t ∧ t.follow p = some (.leaf v w)
  | .pad _ => sp = .pad ∧ rest = []
  | .count | .build | .genCodes | .wrMagic | .wrTree | .rewind | .encBody | .close => sp = .cmd
  | .rdMagic | .rdTree | .decBody | .compress | .decompress => sp = .cmd

namespace Machine

/-- The frequency table of a byte string: the number of bytes equal to `s` for a byte value, 1 for `PSEUDO_EOF`
(R11, R100). -/
def freqOf (bs : List Byte) : Vector Nat 257 :=
  Vector.ofFn fun s => if s = pseudoEof then 1 else bs.countP fun b => byteSym b = s

/-- Every byte count of the input fits a counter of `COUNT_BITS` bits (R101, R168). -/
def CountsFit (p : Params) (bs : List Byte) : Prop :=
  ∀ k, p.countBits = some k → ∀ b : Byte, bs.count b < 2 ^ k

/-- The tree has exactly one leaf for each symbol with a non-zero count and no other, and every weight is the sum of
the counts beneath it (R30 (b), R117). -/
structure BuiltFor (f : Vector Nat 257) (t : Tree) : Prop where
  nodup : t.leaves.Nodup
  leaves : ∀ s, s ∈ t.leaves ↔ f[s] ≠ 0
  weighed : t.weighed f = true

/-- The code of a symbol in a tree's table, the empty string where there is none. -/
def codeOf (t : Tree) (s : Sym) : Bits := (codeTable t)[s].getD []

/-- The body of a byte string under a tree: the code of every byte in order, then the code of `PSEUDO_EOF` (R75,
R164). -/
def bodyOf (t : Tree) (bs : List Byte) : Bits := (bs.flatMap fun b => codeOf t (byteSym b)) ++ codeOf t pseudoEof

/-- The artifact before its pad: the magic field, the serialized tree, the body (R75). -/
def artifactBits (p : Params) (t : Tree) (bs : List Byte) : Bits := field 32 p.magic.toNat ++ t.ser ++ bodyOf t bs

/-- A bit string completed to whole bytes by the zero pad (R48, R75). -/
def padded (b : Bits) : Bits := b ++ List.replicate (padLen b.length) false

/-- The node count is within `NODE_CAP` (R145 (b)). -/
def FitsNodeCap (p : Params) (n : Nat) : Prop := ∀ c, p.nodeCap = some c → n ≤ c

/-- The bits of a tree record: `0`, or `1` and the symbol's nine bits (R77, R78). -/
def TreeRecord.bits : TreeRecord → Bits
  | .internal => [false]
  | .leaf v => true :: field9 v

/-- The bits of tree records one after another. -/
def recordsBits (rs : List TreeRecord) : Bits := rs.flatMap TreeRecord.bits

/-- How many subtrees are still to be read after some records where `n` were to be read before them: a leaf is one, an
internal node is one and asks for two more (R142, R143). When none is left the tree is complete, and no record after it
counts. -/
def pendingTrees : Nat → List TreeRecord → Nat
  | 0, _ => 0
  | n + 1, [] => n + 1
  | n + 1, .internal :: rs => pendingTrees (n + 2) rs
  | n + 1, .leaf _ :: rs => pendingTrees n rs

/-- After these records a tree is not complete yet, so its reader goes on to a flag bit (R143). -/
def Unfinished (rs : List TreeRecord) : Prop := pendingTrees 1 rs ≠ 0

/-- What RDTREE accepts as a root: anything but a bare leaf other than `L(256)` (R145 (c)). -/
def LegalRoot (t : Tree) : Prop := t.isLeaf = true → t.value = 256

/-- The phases of a compression call from COUNT on (R30 (a)). -/
def countedPhases : List Phase := [.counted, .built, .coded, .magicW, .treeW, .rewound, .bodyW]

/-- Those from BUILD on (R30 (b)). -/
def builtPhases : List Phase := [.built, .coded, .magicW, .treeW, .rewound, .bodyW]

/-- Those from GENCODES on (R30 (c)). -/
def codedPhases : List Phase := [.coded, .magicW, .treeW, .rewound, .bodyW]

/-- The phases in which nothing has been written. -/
def silentPhases : List Phase := [.idle, .counted, .built, .coded, .magicR, .treeR]

/-- The invariant of reachable states: R30 (a) to (f), with what the ports and the reset values add to it. -/
structure Invariant (s : State) : Prop where
  /-- The build parameters are a legal configuration (R115, spec/92_eei_decisions.md). -/
  legal : s.params.legal = true
  /-- `IPOS ≤ 8·NI` (R16). -/
  position : s.ipos ≤ s.inLen
  /-- R30 (a). -/
  counted : s.phase ∈ countedPhases → s.freq = some (freqOf s.ibytes)
  /-- R30 (b). -/
  built : s.phase ∈ builtPhases → ∃ t, s.tree = some t ∧ BuiltFor (freqOf s.ibytes) t
  /-- R30 (c). -/
  coded : s.phase ∈ codedPhases →
    ∃ t, s.tree = some t ∧ ∀ v p, s.code[v] = some p ↔ ∃ w, t.follow p = some (.leaf v w)
  /-- R30 (d). -/
  read : s.phase = .treeR ∨ s.phase = .bodyR →
    ∃ t, s.tree = some t ∧ FitsNodeCap s.params t.size ∧ LegalRoot t
  /-- R30 (e). -/
  faulted : s.err ≠ .none ↔ s.phase = .fault
  /-- R30 (f), first half. -/
  closed : s.oclosed = true → s.phase = .done ∨ s.phase = .fault
  /-- R30 (f), second half. -/
  finished : s.phase = .done → s.oclosed = true
  /-- Where the next read of the call starts, with the port's answers specified (R43, R100, R161, R180, R182). -/
  rewound : s.phase = .idle ∨ s.phase = .rewound → s.ipos = 0 ∧ s.stale = false
  afterMagic : s.phase = .magicR → s.ipos = 32 ∧ s.stale = false
  inBody : s.phase = .treeR → s.stale = false
  /-- Nothing is written before WRMAGIC or before DECBODY (R40). -/
  silent : s.phase ∈ silentPhases → s.obits = []
  /-- A closed output is whole bytes (R48). -/
  whole : s.oclosed = true → s.obits.length % 8 = 0

/-- The call ended in success (R243). -/
def Succeeded (s : State) : Prop := s.oclosed = true ∧ s.phase = .done ∧ s.err = .none

/-- The call ended in the fault `e` (R243). -/
def FailedWith (e : Err) (s : State) : Prop := s.oclosed = true ∧ s.phase = .fault ∧ s.err = e

/-- Commands issued one at a time, each on the state the last one left (R86, R166, R184). -/
def issueAll : List Instr → State → Result
  | [], s => .next s
  | i :: is, s =>
    match exec i s with
    | .next t => issueAll is t
    | .fault f => .fault f
    | .refused r => .refused r

/-- The state the host launches a call from: after a reset that bound `input` (R233). -/
structure Launched (input : List Byte) (s : State) : Prop where
  idle : s.phase = .idle
  noErr : s.err = .none
  input : s.ibytes = input
  position : s.ipos = 0
  fresh : s.stale = false
  output : s.obits = []
  isOpen : s.oclosed = false

end Machine

end Sys2Proof
end

