-- ==== Sys2Proof/Certificates/Slice0/Obligations.lean ====
section
/-! DEFINITION. Certificates/Slice0/Obligations.lean: the statements about the model, each with the rules of the spec
it comes from. A statement that gives the next state as the old one with some fields replaced states the frame too:
every field it does not name is unchanged. -/

open Sys2Proof Sys2Proof.Machine

/-! ### Encodings -/

/-- R72, R74: the 13 command words, read from the words the spec writes out, and words that are no command. -/
def Obligations.CommandWordsDecode : Prop :=
  decode 0x00000001 = .ok .count ∧ decode 0x00000002 = .ok .build ∧ decode 0x00000003 = .ok .genCodes ∧
  decode 0x00000004 = .ok .wrMagic ∧ decode 0x00000005 = .ok .wrTree ∧ decode 0x00000006 = .ok .rewind ∧
  decode 0x00000007 = .ok .encBody ∧ decode 0x00000008 = .ok .close ∧ decode 0x00000009 = .ok .rdMagic ∧
  decode 0x0000000A = .ok .rdTree ∧ decode 0x0000000B = .ok .decBody ∧ decode 0x0000000C = .ok .compress ∧
  decode 0x0000000D = .ok .decompress ∧
  decode 0x00000000 = .error .reservedOpcode ∧ decode 0x0000000E = .error .reservedOpcode ∧
  decode 0x0000000F = .error .reservedOpcode ∧ decode 0x00000011 = .error .reservedBits ∧
  decode 0x80000001 = .error .reservedBits

/-- R74: "Of the `2^32` words exactly 13 are legal commands: `0x00000001` to `0x0000000D`", a word that is not one has
a reserved opcode or a non-zero reserved bit, and no two words are the same command. -/
def Obligations.ExactlyThirteenWordsAreCommands : Prop :=
  (∀ w : Word, (∃ i, decode w = .ok i) ↔ 1 ≤ w.toNat ∧ w.toNat ≤ 13) ∧
  (∀ w : Word, (∃ i, decode w = .ok i) ↔
    ¬ (w.extractLsb' 4 28 ≠ 0 ∨ w.extractLsb' 0 4 = 0x0 ∨ w.extractLsb' 0 4 = 0xE ∨ w.extractLsb' 0 4 = 0xF)) ∧
  (∀ (w : Word) (i : Instr), decode w = .ok i ↔ encodeWord i = some w)

/-- R70, R72, R75 to R81: the bits of every well-formed instruction, with anything after them, decode to it and leave
what was after them. A code decodes by a tree that has it; a pad has nothing after it. -/
def Obligations.DecodeOfEncodeIsTheInstruction : Prop :=
  ∀ (i : Instr) (sp : Space) (rest : Bits), i.wellFormed = true → Admits sp rest i →
    decodeBits sp (encode i ++ rest) = .ok (i, rest)

/-- R70, R72, R75 to R81: what decodes to an instruction is that instruction's bits and what was left, and the
instruction is well formed. A code's length is its tree's to bound (R79), so a body is excepted from that last
clause. -/
def Obligations.EncodeOfDecodedIsTheBits : Prop :=
  ∀ (i : Instr) (sp : Space) (bits rest : Bits), decodeBits sp bits = .ok (i, rest) →
    bits = encode i ++ rest ∧ Admits sp rest i ∧ ((∀ t, sp ≠ .body t) → i.wellFormed = true)

/-! ### Steps and the host's moves -/

/-- R71, R246: when the host's next move writes a command's word to `CMD`, the step is that command's meaning, after the
move is taken; with no move to take, the core waits (R216, R230). -/
def Obligations.StepRunsTheWrittenCommand : Prop :=
  (∀ (s : State) (w : Word) (i : Instr) (rest : List HostMove),
    s.inbox = .write .cmd w :: rest → decode w = .ok i → step s = exec i { s with inbox := rest }) ∧
  ∀ s : State, s.inbox = [] → step s = .next s

/-- R207, R74: outside `FAULT` a word with a reserved bit or a reserved opcode raises `BAD_COMMAND` and does nothing
else. -/
def Obligations.IllegalWordRaisesBadCommand : Prop :=
  ∀ (s : State) (w : Word) (rest : List HostMove), s.inbox = .write .cmd w :: rest → s.phase ≠ .fault → s.err = .none →
    (w.extractLsb' 4 28 ≠ 0 ∨ w.extractLsb' 0 4 = 0x0 ∨ w.extractLsb' 0 4 = 0xE ∨ w.extractLsb' 0 4 = 0xF) →
    step s = .next { s with inbox := rest, err := .badCommand, phase := .fault }

/-- R73, R208: each command outside the phases R73 lists for it, and outside `FAULT`, raises `BAD_SEQUENCE` and does
nothing else. -/
def Obligations.WrongPhaseRaisesBadSequence : Prop :=
  ∀ s : State, s.phase ≠ .fault → s.err = .none →
    let bad : Result := .next { s with err := .badSequence, phase := .fault }
    (s.phase ≠ .idle → exec .count s = bad ∧ exec .rdMagic s = bad ∧ exec .compress s = bad ∧ exec .decompress s = bad) ∧
    (s.phase ≠ .counted → exec .build s = bad) ∧ (s.phase ≠ .built → exec .genCodes s = bad) ∧
    (s.phase ≠ .coded → exec .wrMagic s = bad) ∧ (s.phase ≠ .magicW → exec .wrTree s = bad) ∧
    (s.phase ≠ .treeW → exec .rewind s = bad) ∧ (s.phase ≠ .rewound → exec .encBody s = bad) ∧
    (s.phase ≠ .bodyW → s.phase ≠ .bodyR → exec .close s = bad) ∧
    (s.phase ≠ .magicR → exec .rdTree s = bad) ∧ (s.phase ≠ .treeR → exec .decBody s = bad)

/-- R211: in `FAULT` the core accepts CLOSE while the output is open, which closes it and leaves `PHASE` and `ERR`;
every other word is ignored. -/
def Obligations.FaultAcceptsOnlyClose : Prop :=
  ∀ (s : State) (w : Word) (rest : List HostMove), s.inbox = .write .cmd w :: rest → s.phase = .fault →
    (w = 0x00000008 → s.oclosed = false →
      step s = .next { s with inbox := rest, obits := padded s.obits, oclosed := true }) ∧
    (¬ (w = 0x00000008 ∧ s.oclosed = false) → step s = .next { s with inbox := rest })

/-- R212, R21, R209: once the core is in `FAULT`, only a reset changes `PHASE` or `ERR`; a fault recorded is never
replaced, and one that is recorded leaves `PHASE = FAULT`. -/
def Obligations.OnlyResetLeavesFault : Prop :=
  (∀ (s t : State) (m : HostMove) (rest : List HostMove), s.inbox = m :: rest → s.phase = .fault → step s = .next t →
    (t.phase = .fault ∧ t.err = s.err) ∨ (∃ input, m = .reset input) ∨
      ∃ w cut input, m = .resetDuring w cut input) ∧
  ∀ (i : Instr) (s t : State), exec i s = .next t →
    (s.err ≠ .none → t.err = s.err) ∧ (t.err ≠ s.err → t.phase = .fault)

/-- R22: the number and the fields of `STATUS`; a read returns it and changes nothing of the core; a write is ignored;
its value after reset and after a successful call. R18: a read of `CMD` returns 0. R19, R21: the numbers of the phases
and of the fault codes. (`inbox` and `rdata` are the host's side, log entry 10.) -/
def Obligations.StatusRegister : Prop :=
  Reg.number .cmd = 0 ∧ Reg.number .status = 1 ∧
  (∀ s : State, s.status.extractLsb' 0 4 = s.phase.code ∧ s.status.extractLsb' 4 4 = s.err.code ∧
    s.status.getLsbD 8 = s.oclosed ∧ s.status.extractLsb' 9 23 = 0) ∧
  (∀ (s : State) (rest : List HostMove), s.inbox = .read .status :: rest →
    step s = .next { s with inbox := rest, rdata := some s.status }) ∧
  (∀ (s : State) (rest : List HostMove), s.inbox = .read .cmd :: rest →
    step s = .next { s with inbox := rest, rdata := some 0 }) ∧
  (∀ (s : State) (w : Word) (rest : List HostMove), s.inbox = .write .status w :: rest →
    step s = .next { s with inbox := rest }) ∧
  State.reset.status = 0x00000000 ∧ (∀ s : State, Succeeded s → s.status = 0x0000010B) ∧
  [Phase.idle, .counted, .built, .coded, .magicW, .treeW, .rewound, .bodyW, .magicR, .treeR, .bodyR, .done,
    .fault].map Phase.code = [0, 1, 2, 3, 4, 5, 6, 7, 8, 9, 10, 11, 12] ∧
  [Err.none, .malformedHeader, .malformedTree, .truncatedBody, .illegalTree, .noCode, .countOverflow, .badCommand,
    .badSequence].map Err.code = [0, 1, 2, 3, 4, 5, 6, 7, 8]

/-! ### Reset -/

/-- R29: the reset value of every piece of state of the spec. -/
def Obligations.ResetValues : Prop :=
  State.reset.phase = .idle ∧ State.reset.err = .none ∧ State.reset.oclosed = false ∧ State.reset.obits = [] ∧
  State.reset.ipos = 0 ∧ State.reset.freq = none ∧ State.reset.tree = none ∧
  (∀ v : Sym, State.reset.code[v] = none) ∧ State.reset.readReg .cmd = 0 ∧ State.reset.readReg .status = 0

/-- R230: a reset, in any state, sets every piece of state to its reset value and binds the next input; the build
parameters stay, the delivered bytes stay with the host, the rest of the output is lost. -/
def Obligations.ResetFromAnyState : Prop :=
  ∀ (s : State) (input : List Byte) (rest : List HostMove), s.inbox = .reset input :: rest →
    step s = .next { State.reset with
      params := s.params, ibytes := input, draws := s.draws, inbox := rest, rdata := s.rdata,
      taken := s.taken ++ [pack s.obits] }

/-- R230: a reset in the middle of a command always wins: the state is the one of any reset, and the host keeps the
bytes delivered by then, which are those of an output between the one before the command and the one the whole command
would have written. -/
def Obligations.ResetInTheMiddleOfACommandWins : Prop :=
  ∀ (s : State) (w : Word) (cut : Nat) (input : List Byte) (rest : List HostMove),
    s.inbox = .resetDuring w cut input :: rest →
    ∃ written : Bits, s.obits <+: written ∧
      (written = s.obits ∨ ∃ t, issueWord w { s with inbox := rest } = .next t ∧ written <+: t.obits) ∧
      step s = .next { State.reset with
        params := s.params, ibytes := input, draws := s.draws, inbox := rest, rdata := s.rdata,
        taken := s.taken ++ [pack written] }

/-! ### The ports -/

/-- R42: `InRead(n)`: the next `n` bits as an unsigned number, most significant first, and the position moves past
them; with fewer than `n` bits left, `EOS`, after which the position is a free value (log entry 4). -/
def Obligations.ReadAnswersTheNextBits : Prop :=
  ∀ (n : Nat) (s : State), 1 ≤ n → n ≤ 32 →
    (s.stale = false → s.ipos + n ≤ 8 * s.ibytes.length →
      ∃ v : BitVec n, inRead n s = .done (.val v) { s with ipos := s.ipos + n } ∧
        v.toNat = ∑ i ∈ Finset.range n, (bitAt s.ibytes (s.ipos + i)).toNat * 2 ^ (n - 1 - i)) ∧
    (8 * s.ibytes.length < s.ipos + n →
      ∃ pos, (s.ipos ≤ 8 * s.ibytes.length → s.ipos ≤ pos ∧ pos ≤ 8 * s.ibytes.length) ∧
        inRead n s = .done .eos { s with ipos := pos, stale := true, draws := s.draws + 1 })

/-- R44: `InReset()` sets `IPOS` to 0 and clears what an `EOS` left unspecified, on every input, the empty one among
them; after it the port returns the same bits again from the first. -/
def Obligations.RewoundPortReadsFromTheStart : Prop :=
  ∀ s : State, inReset s = { s with ipos := 0, stale := false } ∧ (inReset s).inBits = unpack s.ibytes ∧
    ∀ n, 1 ≤ n → n ≤ 32 → n ≤ 8 * s.ibytes.length →
      ∃ v : BitVec n, inRead n (inReset s) = .done (.val v) { s with ipos := n, stale := false } ∧
        v.toNat = ∑ i ∈ Finset.range n, (bitAt s.ibytes i).toNat * 2 ^ (n - 1 - i)

/-- R51: a read of `n` bits giving `a` and a read of `m` bits giving `b` consume the same bits as one read of `n + m`
bits giving `a·2^m + b`, and the same holds for writes. -/
def Obligations.PortAccessesConcatenate : Prop :=
  (∀ (n m : Nat) (s : State), 1 ≤ n → 1 ≤ m → n + m ≤ 32 → s.stale = false → s.ipos + (n + m) ≤ 8 * s.ibytes.length →
    ∃ (a : BitVec n) (b : BitVec m) (c : BitVec (n + m)) (t : State),
      ((inRead n s).andThen fun x s => (inRead m s).andThen fun y s => .done (x, y) s) = .done (.val a, .val b) t ∧
      inRead (n + m) s = .done (.val c) t ∧ c.toNat = a.toNat * 2 ^ m + b.toNat) ∧
  ∀ (n m a b : Nat) (s : State), 1 ≤ n → 1 ≤ m → n + m ≤ 32 → b < 2 ^ m → s.oclosed = false →
    ∃ t, ((outWrite n a s).andThen fun _ s => outWrite m b s) = .done () t ∧
      outWrite (n + m) (a * 2 ^ m + b) s = .done () t

/-- R46: `OutWrite(n, v)` appends `v[n-1], .., v[0]`; higher bits of `v` are ignored. -/
def Obligations.WriteAppendsTheLowBits : Prop :=
  ∀ (n v : Nat) (s : State), 1 ≤ n → n ≤ 32 → s.oclosed = false →
    outWrite n v s = .done () { s with obits := s.obits ++ (List.range n).map fun i => v.testBit (n - 1 - i) }

/-- R48: `OutClose()`. -/
def Obligations.CloseCompletesTheLastByte : Prop :=
  ∀ s : State, s.oclosed = false → ∃ p, p = (8 - s.obits.length % 8) % 8 ∧ p ≤ 7 ∧
    outClose s = .done () { s with obits := s.obits ++ List.replicate p false, oclosed := true } ∧
    (s.obits.length + p) % 8 = 0 ∧ (s.obits.length % 8 = 0 → p = 0) ∧
    (pack (s.obits ++ List.replicate p false)).length = (s.obits.length + p) / 8

/-- R47: output byte `k` is `Σ OBITS[8k + i] · 2^(7−i)`, and a byte is delivered once its eighth bit has been
written. -/
def Obligations.OutputBytesAreTheBits : Prop :=
  ∀ s : State, s.obytes.length = s.obits.length / 8 ∧
    ∀ k, k < s.obits.length / 8 →
      (s.obytes.getD k 0).toNat = ∑ i ∈ Finset.range 8, (s.obits.getD (8 * k + i) false).toNat * 2 ^ (7 - i)

/-- R41, R47: the bytes one call delivers are read back by another as the same bits. -/
def Obligations.DeliveredBytesReadBackAsTheBits : Prop :=
  ∀ s t : State, s.obits.length % 8 = 0 → t.ibytes = s.obytes → t.ipos = 0 → t.inBits = s.obits

/-! ### The records of the artifact -/

/-- R76, R77, R78, R80, R81, R162: on an open output each record's meaning appends that record's bits and changes
nothing else, a code of any length among them. R46, R48: on a closed one it is refused by name (log entry 8), but for
the empty code, which writes nothing. -/
def Obligations.RecordsAppendTheirBits : Prop :=
  (∀ s : State, s.oclosed = false →
    (∀ m, exec (.hdrMagic m) s = .next { s with obits := s.obits ++ field 32 m.toNat }) ∧
    exec .treeInternal s = .next { s with obits := s.obits ++ [false] } ∧
    (∀ v, exec (.treeLeaf v) s = .next { s with obits := s.obits ++ (true :: field 9 v.toNat) }) ∧
    (∀ p, exec (.bodyCode p) s = .next { s with obits := s.obits ++ p }) ∧
    ∀ p, exec (.pad p) s = .next { s with obits := s.obits ++ List.replicate p false }) ∧
  ∀ s : State, s.oclosed = true →
    (∀ m, exec (.hdrMagic m) s = .refused .portClosed) ∧ exec .treeInternal s = .refused .portClosed ∧
    (∀ v, exec (.treeLeaf v) s = .refused .portClosed) ∧
    (∀ p, p ≠ [] → exec (.bodyCode p) s = .refused .portClosed) ∧ exec (.bodyCode []) s = .next s ∧
    ∀ p, exec (.pad p) s = .refused .portClosed

/-! ### COUNT and REWIND -/

/-- R100: COUNT on an input whose counts fit: `FREQ` is the table of the input, the input is consumed (`stale` and
`draws` mark the end met: log entry 4). -/
def Obligations.CountTabulatesTheInput : Prop :=
  ∀ s : State, s.phase = .idle → s.ipos = 0 → s.stale = false → CountsFit s.params s.ibytes →
    ∃ f, exec .count s = .next { s with
        freq := some f, phase := .counted, ipos := 8 * s.ibytes.length, stale := true, draws := s.draws + 1 } ∧
      (∀ b : Byte, f[byteSym b] = s.ibytes.count b) ∧ f[pseudoEof] = 1

/-- R101, R206: at the byte that would carry a counter past `2^COUNT_BITS − 1`, COUNT raises `COUNT_OVERFLOW`, and nothing
is written. That `FREQ` is then absent is the model's choice (log entry 13): R101 says that the counter keeps its
value, and R209 (4) that the table is to be treated as absent. -/
def Obligations.CountOverflowFaults : Prop :=
  ∀ (s : State) (k : Nat) (bs rest : List Byte) (b : Byte), s.phase = .idle → s.ipos = 0 → s.stale = false →
    s.err = .none → s.params.countBits = some k → s.ibytes = bs ++ b :: rest → CountsFit s.params bs →
    bs.count b = 2 ^ k - 1 →
    exec .count s = .next { s with
      freq := none, phase := .fault, err := .countOverflow, ipos := 8 * (bs.length + 1) }

/-- R103: the sums of the table that a COUNT which does not fault leaves in `FREQ` on an input of `N` bytes, and how many
of its entries are not zero. -/
def Obligations.CountsSumToTheLength : Prop :=
  ∀ s u : State, s.phase = .idle → s.ipos = 0 → s.stale = false → exec .count s = .next u → u.phase ≠ .fault →
    ∃ f, u.freq = some f ∧
      (((List.finRange 256).map fun i : Fin 256 => f[i.castSucc]).sum = s.ibytes.length) ∧
      ((List.finRange 257).map fun v : Sym => f[v]).sum = s.ibytes.length + 1 ∧ f[pseudoEof] = 1 ∧
      1 ≤ ((List.finRange 257).filter fun v : Sym => f[v] ≠ 0).length ∧
      ((List.finRange 257).filter fun v : Sym => f[v] ≠ 0).length ≤ 257 ∧
      (((List.finRange 257).filter fun v : Sym => f[v] ≠ 0).length = 1 ↔ s.ibytes = [])

/-- R102: REWIND. -/
def Obligations.RewindReturnsToTheStart : Prop :=
  ∀ s : State, s.phase = .treeW →
    exec .rewind s = .next { s with ipos := 0, stale := false, phase := .rewound }

/-! ### BUILD -/

/-- R111, R112, R115, R117: BUILD on a table with a non-zero `PSEUDO_EOF` slot ends with the tree that `buildTree` makes of
that table and of `TIE` alone (R117 (f) and (g)). It has exactly one leaf for each symbol with a non-zero count, right
weights, `2L − 1 ≤ 513` nodes, and the sum of all counts at its root. -/
def Obligations.BuildMakesTheTree : Prop :=
  ∀ (s : State) (f : Vector Nat 257), s.phase = .counted → s.freq = some f → f[pseudoEof] ≠ 0 →
    ∃ t, buildTree s.params.tie f = .ok t ∧
      exec .build s = .next { s with tree := some t, phase := .built } ∧ BuiltFor f t ∧
      t.size + 1 = 2 * t.leaves.length ∧ t.size ≤ 513 ∧
      t.weight = ((List.finRange 257).map fun v : Sym => f[v]).sum

/-- R112 to R115: the tree is what the merges make of the first queue. That queue holds exactly one entry for each
symbol `s` with a non-zero count: its weight is `FREQ[s]`, its order key is `s`, its tree is the leaf. It is in order, by
weight and then by `TIE`. A merge takes the first entry, which is the least, and the second, which is the least of what
remains, and putting the merged entry into the rest keeps the order and loses no entry. When one entry is left, its tree
is the result. -/
def Obligations.MergesTakeTheTwoLeast : Prop :=
  ∀ tie : Tie,
    (∀ f, buildTree tie f = mergeLoop tie (leafQueue tie f).length 0 (leafQueue tie f) ∧
      (leafQueue tie f).Perm
        (((List.finRange 257).filter fun v : Sym => f[v] ≠ 0).map fun v => ⟨f[v], v.val, .leaf v f[v]⟩) ∧
      (leafQueue tie f).Pairwise fun x y => entryBefore tie y x = false) ∧
    (∀ (k bound : Nat) (a b : Entry) (q : List Entry),
      ((a :: b :: q).Pairwise fun x y => entryBefore tie y x = false) →
      ∃ q', (q'.Pairwise fun x y => entryBefore tie y x = false) ∧
        q'.Perm (⟨a.weight + b.weight, 257 + k, .node (a.weight + b.weight) a.tree b.tree⟩ :: q) ∧
        mergeLoop tie (bound + 1) k (a :: b :: q) = mergeLoop tie bound (k + 1) q') ∧
    ∀ (k bound : Nat) (e : Entry), mergeLoop tie bound k [e] = .ok e.tree

/-- R113: under the order the spec decides, entries are compared by weight and then by `order`, and it is a strict
total order on entries with different order keys, as is the uninterpreted one. -/
def Obligations.QueueOrderIsStrictAndTotal : Prop :=
  (∀ x y : Entry, entryBefore .orderKey x y = true ↔
    x.weight < y.weight ∨ (x.weight = y.weight ∧ x.order < y.order)) ∧
  ∀ tie : Tie, (∀ x, entryBefore tie x x = false) ∧
    (∀ x y z, entryBefore tie x y = true → entryBefore tie y z = true → entryBefore tie x z = true) ∧
    (∀ x y, x.order ≠ y.order → entryBefore tie x y = true ∨ entryBefore tie y x = true) ∧
    ∀ x y, x.weight < y.weight → entryBefore tie x y = true

/-- R119: the tree and the codes of `n ≥ 1` copies of one byte, under the order the spec decides. -/
def Obligations.SingleByteInput : Prop :=
  ∀ (s : State) (b : Byte) (n : Nat), s.phase = .counted → s.params.tie = .orderKey →
    s.freq = some (freqOf (List.replicate n b)) →
    (2 ≤ n →
      exec .build s = .next { s with
        tree := some (.node (n + 1) (.leaf pseudoEof 1) (.leaf (byteSym b) n)), phase := .built } ∧
      (codeTable (.node (n + 1) (.leaf pseudoEof 1) (.leaf (byteSym b) n)))[pseudoEof] = some [false] ∧
      (codeTable (.node (n + 1) (.leaf pseudoEof 1) (.leaf (byteSym b) n)))[byteSym b] = some [true]) ∧
    (n = 1 →
      exec .build s = .next { s with
        tree := some (.node 2 (.leaf (byteSym b) 1) (.leaf pseudoEof 1)), phase := .built } ∧
      (codeTable (.node 2 (.leaf (byteSym b) 1) (.leaf pseudoEof 1)))[byteSym b] = some [false] ∧
      (codeTable (.node 2 (.leaf (byteSym b) 1) (.leaf pseudoEof 1)))[pseudoEof] = some [true])

/-- R115, R133: the empty input's tree is the bare leaf `L(256:1)`, and its code is the empty string. -/
def Obligations.EmptyInputTree : Prop :=
  ∀ s : State, (s.phase = .counted → s.freq = some (freqOf []) →
      exec .build s = .next { s with tree := some (.leaf pseudoEof 1), phase := .built }) ∧
    (s.phase = .built → s.tree = some (.leaf pseudoEof 1) →
      ∃ tbl, exec .genCodes s = .next { s with code := tbl, phase := .coded } ∧
        ∀ v, tbl[v] = if v = pseudoEof then some [] else none)

/-- R110, R117 (d): under each setting of `TIE` (log entry 3: the spec's key, and an uninterpreted rank that stands for any
other order), no tree with the same leaves has a smaller weighted external path length than the one `buildTree` makes,
which is the one BUILD leaves (`BuildMakesTheTree`). -/
def Obligations.BuiltTreeIsOptimal : Prop :=
  ∀ (tie : Tie) (f : Vector Nat 257) (t u : Tree), buildTree tie f = .ok t → u.leaves.Perm t.leaves →
    t.cost f ≤ u.cost f

/-! ### GENCODES -/

/-- R131, R134: GENCODES on a tree without repeated symbols: an entry is present exactly for a leaf symbol, it is the
path of that leaf, its length is below the number of leaves, and it is empty only for a bare leaf. -/
def Obligations.GenCodesRecordsThePaths : Prop :=
  ∀ (s : State) (t : Tree), s.phase = .built → s.tree = some t →
    ∃ tbl, exec .genCodes s = .next { s with code := tbl, phase := .coded } ∧
      (∀ v, v ∉ t.leaves → tbl[v] = none) ∧
      (∀ v ∈ t.leaves, ∃ p w, tbl[v] = some p ∧ t.follow p = some (.leaf v w) ∧ p.length < t.leaves.length ∧
        (p = [] ↔ t.leaves.length = 1)) ∧
      (t.leaves.Nodup → ∀ v p, tbl[v] = some p ↔ ∃ w, t.follow p = some (.leaf v w))

/-- R135: no code of a table is the beginning of another, and `Σ 2^(−|CODE[s]|) = 1`. -/
def Obligations.CodesArePrefixFree : Prop :=
  ∀ t : Tree,
    (∀ (u v : Sym) (p q : Bits), (codeTable t)[u] = some p → (codeTable t)[v] = some q → u ≠ v → ¬ p <+: q) ∧
    (t.leaves.Nodup → (t.leaves.map fun v => (1 / 2 : ℚ) ^ (codeOf t v).length).sum = 1)

/-! ### WRTREE and RDTREE -/

/-- R77, R141, R82: WRTREE appends the serialization of the tree, `11·L − 1` bits. -/
def Obligations.WrTreeAppendsTheSerialization : Prop :=
  ∀ (s : State) (t : Tree), s.phase = .magicW → s.tree = some t → s.oclosed = false →
    exec .wrTree s = .next { s with obits := s.obits ++ t.ser, phase := .treeW } ∧
    t.ser.length + 1 = 11 * t.leaves.length

/-- R146, R143: RDTREE is the inverse of WRTREE: whatever follows the serialization, the tree read has its shape and
leaf values, and the position is past it. -/
def Obligations.RdTreeInvertsTheSerialization : Prop :=
  ∀ (s : State) (t : Tree) (rest : Bits), s.phase = .magicR → s.stale = false → s.inBits = t.ser ++ rest →
    FitsNodeCap s.params t.size → LegalRoot t →
    exec .rdTree s = .next { s with tree := some t.shape, ipos := s.ipos + t.ser.length, phase := .treeR }

/-- R146, R145: conversely, when RDTREE succeeds the bits it consumed are the serialization of the tree it leaves, and
the tree has weights 0, at most `NODE_CAP` nodes and a legal root. -/
def Obligations.RdTreeConsumesASerialization : Prop :=
  ∀ s u : State, s.phase = .magicR → s.stale = false → exec .rdTree s = .next u → u.phase ≠ .fault →
    ∃ t rest, s.inBits = t.ser ++ rest ∧ t.shape = t ∧ FitsNodeCap s.params t.size ∧ LegalRoot t ∧
      u = { s with tree := some t, ipos := s.ipos + t.ser.length, phase := .treeR }

/-- R144, R210: a stream that ends before a tree is complete is `MALFORMED_TREE`, whatever legal records came before the
end and whether or not any bits could complete them: it ends where a flag bit is expected, or after a `1` flag with
fewer than 9 bits left. Nothing is written and no tree is left. Where the position stands between the last flag read and
the end is a free value, which `stale` and `draws` mark (log entry 4). -/
def Obligations.RdTreeOnATruncatedTree : Prop :=
  ∀ (s : State) (rs : List TreeRecord) (cut : Bits), s.phase = .magicR → s.stale = false → s.err = .none →
    s.ipos ≤ 8 * s.ibytes.length → Unfinished rs → s.inBits = recordsBits rs ++ cut →
    (cut = [] ∧ FitsNodeCap s.params rs.length ∨
      ∃ q, cut = true :: q ∧ q.length < 9 ∧ FitsNodeCap s.params (rs.length + 1)) →
    ∃ pos, s.ipos + (recordsBits rs ++ cut.take 1).length ≤ pos ∧ pos ≤ 8 * s.ibytes.length ∧
      exec .rdTree s = .next { s with
        tree := none, ipos := pos, stale := true, draws := s.draws + 1, err := .malformedTree, phase := .fault }

/-- R145, R210: after any legal records that leave the tree incomplete, a leaf field above 256, and the flag, `0` or `1`, of
a node beyond `NODE_CAP`; and a tree that is a bare leaf other than `L(256)`: each is `ILLEGAL_TREE`, at the bit where it
is seen. -/
def Obligations.RdTreeOnAnIllegalTree : Prop :=
  ∀ (s : State) (rs : List TreeRecord) (rest : Bits), s.phase = .magicR → s.stale = false → s.err = .none →
    let illegal (pos : Nat) : Result := .next { s with
      tree := none, ipos := pos, err := .illegalTree, phase := .fault }
    (∀ v, Unfinished rs → 256 < v → v < 512 → FitsNodeCap s.params (rs.length + 1) →
      s.inBits = recordsBits rs ++ true :: (field 9 v ++ rest) →
      exec .rdTree s = illegal (s.ipos + (recordsBits rs).length + 10)) ∧
    (∀ flag : Bool, Unfinished rs → s.params.nodeCap = some rs.length → s.inBits = recordsBits rs ++ flag :: rest →
      exec .rdTree s = illegal (s.ipos + (recordsBits rs).length + 1)) ∧
    (∀ v : Sym, v ≠ pseudoEof → FitsNodeCap s.params 1 → s.inBits = true :: (field9 v ++ rest) →
      exec .rdTree s = illegal (s.ipos + 10))

/-! ### WRMAGIC, ENCBODY, CLOSE, COMPRESS -/

/-- R160, R76: WRMAGIC appends the 32 bits of `MAGIC`, most significant first, whatever its value. -/
def Obligations.WrMagicAppendsTheMagic : Prop :=
  ∀ s : State, s.phase = .coded → s.oclosed = false →
    exec .wrMagic s = .next { s with
      obits := s.obits ++ (List.range 32).map (fun i => s.params.magic.getLsbD (31 - i)), phase := .magicW }

/-- R161, R162, R164: ENCBODY appends the code of every byte in order and then the code of `PSEUDO_EOF`, codes of any
length among them, and consumes the input (`stale` and `draws` mark the end met: log entry 4). -/
def Obligations.EncBodyAppendsTheCodes : Prop :=
  ∀ (s : State) (code : Sym → Bits), s.phase = .rewound → s.ipos = 0 → s.stale = false → s.oclosed = false →
    (∀ b ∈ s.ibytes, s.code[byteSym b] = some (code (byteSym b))) → s.code[pseudoEof] = some (code pseudoEof) →
    exec .encBody s = .next { s with
      obits := s.obits ++ ((s.ibytes.flatMap fun b => code (byteSym b)) ++ code pseudoEof), phase := .bodyW,
      ipos := 8 * s.ibytes.length, stale := true, draws := s.draws + 1 }

/-- R163: at the first byte without a code, or at a missing code of `PSEUDO_EOF`, ENCBODY raises `NO_CODE`; the bits
already written stay (`stale` and `draws` mark the end met: log entry 4). -/
def Obligations.EncBodyWithoutACode : Prop :=
  ∀ (s : State) (code : Sym → Bits) (bs : List Byte), s.phase = .rewound → s.ipos = 0 → s.stale = false →
    s.oclosed = false → s.err = .none → (∀ b ∈ bs, s.code[byteSym b] = some (code (byteSym b))) →
    (∀ b rest, s.ibytes = bs ++ b :: rest → s.code[byteSym b] = none →
      exec .encBody s = .next { s with
        obits := s.obits ++ bs.flatMap (fun b => code (byteSym b)), ipos := 8 * (bs.length + 1), phase := .fault,
        err := .noCode }) ∧
    (s.ibytes = bs → s.code[pseudoEof] = none →
      exec .encBody s = .next { s with
        obits := s.obits ++ bs.flatMap (fun b => code (byteSym b)), ipos := 8 * s.ibytes.length, stale := true,
        draws := s.draws + 1, phase := .fault, err := .noCode })

/-- R165: CLOSE after the body command ends the call; in `FAULT` it closes an open output and leaves `PHASE` and `ERR`,
and a closed one is left as it is. -/
def Obligations.CloseEndsTheCall : Prop :=
  ∀ s : State,
    (s.phase = .bodyW ∨ s.phase = .bodyR → s.oclosed = false →
      exec .close s = .next { s with obits := padded s.obits, oclosed := true, phase := .done }) ∧
    (s.phase = .fault → s.oclosed = false → exec .close s = .next { s with obits := padded s.obits, oclosed := true }) ∧
    (s.phase = .fault → s.oclosed = true → exec .close s = .next s)

/-- R166, R75, R168, R117 (f): COMPRESS, launched on any input whose counts fit, ends in success with the artifact of that
input under the tree that `buildTree` makes of its counts and `TIE`. So the artifact is a function of the input: two
launches on the same input, of cores with the same `MAGIC` and `TIE`, deliver the same bytes. (`stale` and `draws` count
the two ends of the input that were met: log entry 4.) -/
def Obligations.CompressWritesTheArtifact : Prop :=
  (∀ (s : State) (bs : List Byte), Launched bs s → CountsFit s.params bs →
    ∃ t, buildTree s.params.tie (freqOf bs) = .ok t ∧ BuiltFor (freqOf bs) t ∧
      exec .compress s = .next { s with
        freq := some (freqOf bs), tree := some t, code := codeTable t, obits := padded (artifactBits s.params t bs),
        oclosed := true, phase := .done, ipos := 8 * bs.length, stale := true, draws := s.draws + 2 }) ∧
  ∀ (s s' : State) (bs : List Byte), Launched bs s → Launched bs s' → CountsFit s.params bs → CountsFit s'.params bs →
    s'.params.magic = s.params.magic → s'.params.tie = s.params.tie →
    ∃ u u', exec .compress s = .next u ∧ exec .compress s' = .next u' ∧ u'.obytes = u.obytes

/-- R167, R82, R164: the number of bits of an artifact before its pad. -/
def Obligations.ArtifactLength : Prop :=
  ∀ (p : Params) (bs : List Byte) (t : Tree), BuiltFor (freqOf bs) t →
    (artifactBits p t bs).length + 1 =
      32 + 11 * t.leaves.length + (t.leaves.map fun v => (freqOf bs)[v] * (codeOf t v).length).sum ∧
    (bodyOf t bs).length = t.cost (freqOf bs)

/-- R166, R101, R213: COMPRESS on an input with a count that does not fit ends in `COUNT_OVERFLOW`, closed, with an empty
output. That `FREQ` is absent is the model's choice (log entry 13): R209 (4) says that the table is to be treated as
absent. -/
def Obligations.CompressOnOverflow : Prop :=
  ∀ (s : State) (bs : List Byte) (k : Nat) (b : Byte), Launched bs s → s.params.countBits = some k →
    2 ^ k ≤ bs.count b → ∃ u, exec .compress s = .next u ∧ FailedWith .countOverflow u ∧ u.obits = [] ∧ u.freq = none

/-! ### RDMAGIC, DECBODY, DECOMPRESS -/

/-- R180, R181, R201: RDMAGIC accepts exactly the 32 bits of `MAGIC`; other 32 bits, or fewer than 32, are
`MALFORMED_HEADER`, with nothing written. After too few, the position is a free value, which `stale` and `draws` mark
(log entry 4). -/
def Obligations.RdMagicComparesEveryBit : Prop :=
  ∀ s : State, s.phase = .idle → s.ipos = 0 → s.stale = false → s.err = .none →
    (32 ≤ 8 * s.ibytes.length →
      ((∀ i, i < 32 → bitAt s.ibytes i = s.params.magic.getLsbD (31 - i)) →
        exec .rdMagic s = .next { s with ipos := 32, phase := .magicR }) ∧
      ((∃ i, i < 32 ∧ bitAt s.ibytes i ≠ s.params.magic.getLsbD (31 - i)) →
        exec .rdMagic s = .next { s with ipos := 32, phase := .fault, err := .malformedHeader })) ∧
    (8 * s.ibytes.length < 32 →
      ∃ pos, pos ≤ 8 * s.ibytes.length ∧
        exec .rdMagic s = .next { s with
          ipos := pos, stale := true, draws := s.draws + 1, phase := .fault, err := .malformedHeader })

/-- R182: DECBODY on a tree that is no bare leaf, over the codes of some bytes and a code of `PSEUDO_EOF`: it writes those
bytes, stops after that code, and reads nothing after it. A symbol may stand at several leaves (R83). -/
def Obligations.DecBodyWritesTheBytes : Prop :=
  ∀ (s : State) (t : Tree) (cs : List (Byte × Bits)) (e rest : Bits) (w : Nat), s.phase = .treeR → s.stale = false →
    s.oclosed = false → s.tree = some t → t.isLeaf = false →
    (∀ c ∈ cs, ∃ w, t.follow c.2 = some (.leaf (byteSym c.1) w)) → t.follow e = some (.leaf pseudoEof w) →
    s.inBits = cs.flatMap Prod.snd ++ e ++ rest →
    exec .decBody s = .next { s with
      obits := s.obits ++ unpack (cs.map Prod.fst), ipos := s.ipos + (cs.flatMap Prod.snd ++ e).length,
      phase := .bodyR }

/-- R183: a bare leaf that DECBODY meets is `L(256)`, and on it DECBODY reads no bit, writes nothing and ends
normally. -/
def Obligations.DecBodyOnTheBareLeaf : Prop :=
  (∀ (s : State) (t : Tree), Invariant s → s.phase = .treeR → s.tree = some t → t.isLeaf = true → t.value = 256) ∧
  ∀ (s : State) (w : Nat), s.phase = .treeR → s.tree = some (.leaf pseudoEof w) →
    exec .decBody s = .next { s with phase := .bodyR }

/-- R185, R203: a stream that ends at the root between two codes or inside a code is `TRUNCATED_BODY`; the bytes written
before it stay (`stale` and `draws` mark the end met: log entry 4). -/
def Obligations.DecBodyOnATruncatedBody : Prop :=
  ∀ (s : State) (t l r : Tree) (cs : List (Byte × Bits)) (q : Bits) (w : Nat), s.phase = .treeR → s.stale = false →
    s.oclosed = false → s.err = .none → s.ipos ≤ 8 * s.ibytes.length → s.tree = some t → t.isLeaf = false →
    (∀ c ∈ cs, ∃ w, t.follow c.2 = some (.leaf (byteSym c.1) w)) → t.follow q = some (.node w l r) →
    s.inBits = cs.flatMap Prod.snd ++ q →
    exec .decBody s = .next { s with
      obits := s.obits ++ unpack (cs.map Prod.fst), ipos := 8 * s.ibytes.length, stale := true, draws := s.draws + 1,
      phase := .fault, err := .truncatedBody }

/-- R184, R75: DECOMPRESS, launched on the magic, the serialization of a tree within `NODE_CAP` (R145), codes of some
bytes, a code of `PSEUDO_EOF` and anything after it, ends in success: it writes those bytes, leaves the tree read, and
stops reading after that last code. -/
def Obligations.DecompressWritesTheBytes : Prop :=
  ∀ (s : State) (input : List Byte) (t : Tree) (cs : List (Byte × Bits)) (e rest : Bits) (w : Nat),
    Launched input s → FitsNodeCap s.params t.size →
    (∀ c ∈ cs, ∃ w, t.follow c.2 = some (.leaf (byteSym c.1) w)) → t.follow e = some (.leaf pseudoEof w) →
    unpack input = field 32 s.params.magic.toNat ++ t.ser ++ cs.flatMap Prod.snd ++ e ++ rest →
    exec .decompress s = .next { s with
      tree := some t.shape, obits := unpack (cs.map Prod.fst), oclosed := true, phase := .done,
      ipos := (field 32 s.params.magic.toNat ++ t.ser ++ cs.flatMap Prod.snd ++ e).length }

/-- R181: DECOMPRESS on an artifact whose first 32 bits differ from the magic, or that has fewer, fails with
`MALFORMED_HEADER` and writes no output. -/
def Obligations.DecompressRejectsAWrongHeader : Prop :=
  ∀ (s : State) (bs : List Byte), Launched bs s →
    (∀ rest, unpack bs ≠ field 32 s.params.magic.toNat ++ rest) →
    ∃ u, exec .decompress s = .next u ∧ FailedWith .malformedHeader u ∧ u.obits = [] ∧ u.obytes = []

/-- R186, R184, R49: DECOMPRESS on any input ends, in success or in one of its four faults, with the output closed and
whole bytes written. -/
def Obligations.DecompressAlwaysEnds : Prop :=
  ∀ (s : State) (bs : List Byte), Launched bs s →
    ∃ u, exec .decompress s = .next u ∧ u.obits.length % 8 = 0 ∧
      (Succeeded u ∨ FailedWith .malformedHeader u ∨ FailedWith .malformedTree u ∨ FailedWith .illegalTree u ∨
        FailedWith .truncatedBody u)

/-- R187, R240: for every byte sequence, whatever the magic and the order, the artifact COMPRESS delivers is given back
byte for byte by DECOMPRESS in a later call of a core with the same magic, whatever its other parameters. -/
def Obligations.RoundTrip : Prop :=
  ∀ (s : State) (bs : List Byte), Launched bs s → CountsFit s.params bs →
    ∃ u, exec .compress s = .next u ∧ Succeeded u ∧
      ∀ s' : State, Launched u.obytes s' → s'.params.magic = s.params.magic → s'.params.legal = true →
        ∃ u', exec .decompress s' = .next u' ∧ Succeeded u' ∧ u'.obytes = bs

/-- R188: an artifact without its last byte is never decompressed to a success: it fails with `TRUNCATED_BODY` or
`MALFORMED_TREE`. -/
def Obligations.TruncatedArtifactFails : Prop :=
  ∀ (s u s' : State) (bs : List Byte), Launched bs s → CountsFit s.params bs → exec .compress s = .next u →
    Launched u.obytes.dropLast s' → s'.params.magic = s.params.magic → s'.params.legal = true →
    ∃ u', exec .decompress s' = .next u' ∧ (FailedWith .truncatedBody u' ∨ FailedWith .malformedTree u')

/-- R86, R166, R184: a macro does what its primitive commands do issued one at a time, whatever the exit. Where one of them
leaves `FAULT`, the remaining ones are skipped except CLOSE, whose result on that state is the macro's. R184, R185:
DECOMPRESS on an artifact that ends before `PSEUDO_EOF` leaves the bytes decoded before the end in a closed output, with
`TRUNCATED_BODY` (`stale` and `draws` mark the end met: log entry 4). -/
def Obligations.MacrosAreTheirSteps : Prop :=
  (∀ (s : State) (m : Instr) (steps : List Instr), s.phase = .idle →
    (m = .compress ∧ steps = [.count, .build, .genCodes, .wrMagic, .wrTree, .rewind, .encBody] ∨
      m = .decompress ∧ steps = [.rdMagic, .rdTree, .decBody]) →
    exec m s = issueAll (steps ++ [.close]) s ∧
    ∀ (before after : List Instr) (i : Instr) (t : State), steps = before ++ i :: after →
      issueAll (before ++ [i]) s = .next t → t.phase = .fault → exec m s = exec .close t) ∧
  ∀ (s : State) (input : List Byte) (t l r : Tree) (cs : List (Byte × Bits)) (q : Bits) (w : Nat),
    Launched input s → FitsNodeCap s.params t.size →
    (∀ c ∈ cs, ∃ w, t.follow c.2 = some (.leaf (byteSym c.1) w)) → t.follow q = some (.node w l r) →
    unpack input = field 32 s.params.magic.toNat ++ t.ser ++ cs.flatMap Prod.snd ++ q →
    exec .decompress s = .next { s with
      tree := some t.shape, obits := unpack (cs.map Prod.fst), oclosed := true, phase := .fault,
      err := .truncatedBody, ipos := 8 * input.length, stale := true, draws := s.draws + 1 }

/-! ### Invariants -/

/-- R29, R30: the reset state meets the invariant. -/
def Obligations.ResetMeetsTheInvariant : Prop := Invariant State.reset

/-- R30: every step keeps the invariant of reachable states, whatever the host's move, from every state that meets
it. -/
def Obligations.StepKeepsTheInvariant : Prop := ∀ s t : State, Invariant s → step s = .next t → Invariant t

/-- R71, R186, R244: from every state that meets the invariant, every move of the host is answered by a next state: no
fault stops the machine and nothing is refused. -/
def Obligations.InvariantStatesNeverStop : Prop := ∀ s : State, Invariant s → ∃ t, step s = .next t

/-- R186, R244: the bounds on the commands' loops always suffice, in every state whatever. -/
def Obligations.LoopBoundsSuffice : Prop :=
  (∀ (i : Instr) (s : State), exec i s ≠ .fault .loopBound) ∧ ∀ s : State, step s ≠ .fault .loopBound

/-- R52 (d), R54, R58, R237: no command changes the input stream, the build parameters or what the host has, and none
takes back an output bit. -/
def Obligations.CommandsOnlyAppend : Prop :=
  ∀ (i : Instr) (s t : State), exec i s = .next t →
    s.obits <+: t.obits ∧ t.ibytes = s.ibytes ∧ t.params = s.params ∧ t.inbox = s.inbox ∧ t.rdata = s.rdata ∧
      t.taken = s.taken
end

