-- ==== Sys2Proof/Laws/Bits.lean ====
section
/-! SUPPORT. Laws/Bits.lean: numbers as bit strings and back, and bits packed into bytes. -/

namespace Sys2Proof

theorem num_foldl (p : Bits) (a : Nat) :
    p.foldl (fun a b => 2 * a + b.toNat) a = a * 2 ^ p.length + num p := by
  induction p generalizing a with
  | nil => simp [num]
  | cons b p ih =>
    have h0 : num (b :: p) = p.foldl (fun a b => 2 * a + b.toNat) b.toNat := by simp [num]
    rw [h0, List.foldl_cons, ih, ih b.toNat, List.length_cons]; ring

@[simp] theorem num_nil : num [] = 0 := rfl

theorem num_cons (b : Bool) (p : Bits) : num (b :: p) = b.toNat * 2 ^ p.length + num p := by
  have h0 : num (b :: p) = p.foldl (fun a b => 2 * a + b.toNat) b.toNat := by simp [num]
  rw [h0, num_foldl]

theorem num_append (p q : Bits) : num (p ++ q) = num p * 2 ^ q.length + num q := by
  rw [num, List.foldl_append, num_foldl]; rfl

theorem num_lt (p : Bits) : num p < 2 ^ p.length := by
  induction p with
  | nil => simp
  | cons b p ih =>
    rw [num_cons, List.length_cons, pow_succ]
    cases b <;> simp <;> omega

@[simp] theorem field_length (n v : Nat) : (field n v).length = n := by
  induction n with
  | zero => rfl
  | succ n ih => simp [field, ih]

theorem field_succ (n v : Nat) : field (n + 1) v = v.testBit n :: field n v := rfl

theorem num_field (n v : Nat) : num (field n v) = v % 2 ^ n := by
  induction n with
  | zero => simp [field, Nat.mod_one]
  | succ n ih =>
    rw [field_succ, num_cons, ih, field_length, Nat.mod_pow_succ, Nat.testBit_eq_decide_div_mod_eq]
    rcases Nat.mod_two_eq_zero_or_one (v / 2 ^ n) with h | h <;> simp [h]
    omega

theorem field_congr {n v w : Nat} (h : v % 2 ^ n = w % 2 ^ n) : field n v = field n w := by
  have key : ∀ m, m ≤ n → field m v = field m w := by
    intro m
    induction m with
    | zero => intro _; rfl
    | succ m ih =>
      intro hm
      rw [field_succ, field_succ, ih (by omega)]
      have hv := Nat.testBit_mod_two_pow v n m
      have hw := Nat.testBit_mod_two_pow w n m
      rw [h] at hv
      have hmn : m < n := by omega
      simp only [hmn, decide_true, Bool.true_and] at hv hw
      rw [← hv, ← hw]
  exact key n le_rfl

theorem num_injective {p q : Bits} (hl : p.length = q.length) (h : num p = num q) : p = q := by
  induction p generalizing q with
  | nil => cases q with
    | nil => rfl
    | cons => simp at hl
  | cons a p ih =>
    cases q with
    | nil => simp at hl
    | cons b q =>
      have hl' : p.length = q.length := by simpa using hl
      rw [num_cons, num_cons, hl'] at h
      have hp := num_lt p
      have hq := num_lt q
      rw [hl'] at hp
      cases a <;> cases b <;> simp at h <;> first | (rw [ih hl' h]) | omega

/-- A bit string is the field of its number. -/
theorem field_num (p : Bits) : field p.length (num p) = p :=
  num_injective (by simp) (by rw [num_field, Nat.mod_eq_of_lt (num_lt p)])

theorem field_add (n m v : Nat) : field (n + m) v = field n (v >>> m) ++ field m v := by
  induction n with
  | zero => simp [field]
  | succ n ih =>
    rw [Nat.add_right_comm, field_succ, field_succ, ih, Nat.testBit_shiftRight, Nat.add_comm m n]
    rfl

@[simp] theorem byteBits_length (b : Byte) : (byteBits b).length = 8 := by simp [byteBits]

@[simp] theorem unpack_nil : unpack [] = [] := rfl

theorem unpack_cons (b : Byte) (bs : List Byte) : unpack (b :: bs) = byteBits b ++ unpack bs := by simp [unpack]

theorem unpack_append (as bs : List Byte) : unpack (as ++ bs) = unpack as ++ unpack bs := by simp [unpack]

@[simp] theorem unpack_length (bs : List Byte) : (unpack bs).length = 8 * bs.length := by
  induction bs with
  | nil => rfl
  | cons b bs ih => rw [unpack_cons, List.length_append, ih, byteBits_length, List.length_cons]; ring

theorem num_byteBits (b : Byte) : num (byteBits b) = b.toNat := by
  rw [byteBits, num_field, Nat.mod_eq_of_lt b.isLt]

/-- Packing takes the first eight bits as one byte. -/
theorem pack_append_eight {p : Bits} (h : p.length = 8) (q : Bits) :
    pack (p ++ q) = BitVec.ofNat 8 (num p) :: pack q := by
  match p, h with
  | [a, b, c, d, e, f, g, h], _ => rfl

theorem pack_short {p : Bits} (h : p.length < 8) : pack p = [] := by
  match p, h with
  | [], _ | [_], _ | [_, _], _ | [_, _, _], _ | [_, _, _, _], _ | [_, _, _, _, _], _ | [_, _, _, _, _, _], _
  | [_, _, _, _, _, _, _], _ => rfl
  | _ :: _ :: _ :: _ :: _ :: _ :: _ :: _ :: _, h => simp at h; omega

theorem pack_unpack_append (bs : List Byte) (q : Bits) : pack (unpack bs ++ q) = bs ++ pack q := by
  induction bs with
  | nil => rfl
  | cons b bs ih =>
    rw [unpack_cons, List.append_assoc, pack_append_eight (byteBits_length b), ih, num_byteBits]
    simp

@[simp] theorem pack_unpack (bs : List Byte) : pack (unpack bs) = bs := by
  simpa [pack_short] using pack_unpack_append bs []

/-- Whole bytes packed and unpacked again are the same bits (R41, R47). -/
theorem unpack_pack {p : Bits} (h : p.length % 8 = 0) : unpack (pack p) = p := by
  obtain ⟨k, hk⟩ : ∃ k, p.length = 8 * k := ⟨p.length / 8, by omega⟩
  clear h
  induction k generalizing p with
  | zero => rw [List.eq_nil_of_length_eq_zero (by omega : p.length = 0)]; rfl
  | succ k ih =>
    have h8 : (p.take 8).length = 8 := by rw [List.length_take]; omega
    conv_rhs => rw [← List.take_append_drop 8 p]
    rw [← List.take_append_drop 8 p, pack_append_eight h8, unpack_cons, ih (by rw [List.length_drop]; omega)]
    rw [List.take_append_drop]
    congr 1
    have := field_num (p.take 8)
    rw [h8] at this
    rw [byteBits, BitVec.toNat_ofNat, Nat.mod_eq_of_lt (by have := num_lt (p.take 8); rwa [h8] at this), this]

theorem pack_length (p : Bits) : (pack p).length = p.length / 8 := by
  induction hn : p.length using Nat.strong_induction_on generalizing p with
  | _ n ih =>
    by_cases h : p.length < 8
    · rw [pack_short h]; simp; omega
    · have h8 : (p.take 8).length = 8 := by rw [List.length_take]; omega
      rw [← List.take_append_drop 8 p, pack_append_eight h8, List.length_cons,
        ih (p.drop 8).length (by rw [List.length_drop]; omega) _ rfl, List.length_drop]
      omega

theorem padLen_lt (n : Nat) : padLen n ≤ 7 := by unfold padLen; omega

theorem add_padLen_mod (n : Nat) : (n + padLen n) % 8 = 0 := by unfold padLen; omega

theorem padLen_of_whole {n : Nat} (h : n % 8 = 0) : padLen n = 0 := by unfold padLen; omega

end Sys2Proof
end

