-- ==== Sys2Proof/Laws/State.lean ====
section
/-! SUPPORT. Laws/State.lean: for each named update of the state, each field after it. -/

namespace Sys2Proof.Machine

/-! ### Fault entry -/

@[simp] theorem State.raise_params (e : Err) (s : State) : (s.raise e).params = s.params := rfl
@[simp] theorem State.raise_freq (e : Err) (s : State) : (s.raise e).freq = s.freq := rfl
@[simp] theorem State.raise_tree (e : Err) (s : State) : (s.raise e).tree = s.tree := rfl
@[simp] theorem State.raise_code (e : Err) (s : State) : (s.raise e).code = s.code := rfl
@[simp] theorem State.raise_phase (e : Err) (s : State) : (s.raise e).phase = .fault := rfl
@[simp] theorem State.raise_err (e : Err) (s : State) : (s.raise e).err = if s.err = .none then e else s.err := rfl
@[simp] theorem State.raise_ibytes (e : Err) (s : State) : (s.raise e).ibytes = s.ibytes := rfl
@[simp] theorem State.raise_ipos (e : Err) (s : State) : (s.raise e).ipos = s.ipos := rfl
@[simp] theorem State.raise_obits (e : Err) (s : State) : (s.raise e).obits = s.obits := rfl
@[simp] theorem State.raise_oclosed (e : Err) (s : State) : (s.raise e).oclosed = s.oclosed := rfl
@[simp] theorem State.raise_stale (e : Err) (s : State) : (s.raise e).stale = s.stale := rfl
@[simp] theorem State.raise_draws (e : Err) (s : State) : (s.raise e).draws = s.draws := rfl
@[simp] theorem State.raise_inbox (e : Err) (s : State) : (s.raise e).inbox = s.inbox := rfl
@[simp] theorem State.raise_rdata (e : Err) (s : State) : (s.raise e).rdata = s.rdata := rfl
@[simp] theorem State.raise_taken (e : Err) (s : State) : (s.raise e).taken = s.taken := rfl

/-! ### The last write of a command -/

@[simp] theorem State.enter_params (p : Phase) (s : State) : (s.enter p).params = s.params := rfl
@[simp] theorem State.enter_freq (p : Phase) (s : State) : (s.enter p).freq = s.freq := rfl
@[simp] theorem State.enter_tree (p : Phase) (s : State) : (s.enter p).tree = s.tree := rfl
@[simp] theorem State.enter_code (p : Phase) (s : State) : (s.enter p).code = s.code := rfl
@[simp] theorem State.enter_phase (p : Phase) (s : State) : (s.enter p).phase = p := rfl
@[simp] theorem State.enter_err (p : Phase) (s : State) : (s.enter p).err = s.err := rfl
@[simp] theorem State.enter_ibytes (p : Phase) (s : State) : (s.enter p).ibytes = s.ibytes := rfl
@[simp] theorem State.enter_ipos (p : Phase) (s : State) : (s.enter p).ipos = s.ipos := rfl
@[simp] theorem State.enter_obits (p : Phase) (s : State) : (s.enter p).obits = s.obits := rfl
@[simp] theorem State.enter_oclosed (p : Phase) (s : State) : (s.enter p).oclosed = s.oclosed := rfl
@[simp] theorem State.enter_stale (p : Phase) (s : State) : (s.enter p).stale = s.stale := rfl
@[simp] theorem State.enter_draws (p : Phase) (s : State) : (s.enter p).draws = s.draws := rfl
@[simp] theorem State.enter_inbox (p : Phase) (s : State) : (s.enter p).inbox = s.inbox := rfl
@[simp] theorem State.enter_rdata (p : Phase) (s : State) : (s.enter p).rdata = s.rdata := rfl
@[simp] theorem State.enter_taken (p : Phase) (s : State) : (s.enter p).taken = s.taken := rfl

/-! ### An end-of-stream answer -/

@[simp] theorem State.afterEos_params (s : State) : (s.afterEos).params = s.params := rfl
@[simp] theorem State.afterEos_freq (s : State) : (s.afterEos).freq = s.freq := rfl
@[simp] theorem State.afterEos_tree (s : State) : (s.afterEos).tree = s.tree := rfl
@[simp] theorem State.afterEos_code (s : State) : (s.afterEos).code = s.code := rfl
@[simp] theorem State.afterEos_phase (s : State) : (s.afterEos).phase = s.phase := rfl
@[simp] theorem State.afterEos_err (s : State) : (s.afterEos).err = s.err := rfl
@[simp] theorem State.afterEos_ibytes (s : State) : (s.afterEos).ibytes = s.ibytes := rfl
@[simp] theorem State.afterEos_ipos (s : State) : (s.afterEos).ipos = s.ipos + Config.eosSkip s.draws % (s.inLen - s.ipos + 1) := rfl
@[simp] theorem State.afterEos_obits (s : State) : (s.afterEos).obits = s.obits := rfl
@[simp] theorem State.afterEos_oclosed (s : State) : (s.afterEos).oclosed = s.oclosed := rfl
@[simp] theorem State.afterEos_stale (s : State) : (s.afterEos).stale = true := rfl
@[simp] theorem State.afterEos_draws (s : State) : (s.afterEos).draws = s.draws + 1 := rfl
@[simp] theorem State.afterEos_inbox (s : State) : (s.afterEos).inbox = s.inbox := rfl
@[simp] theorem State.afterEos_rdata (s : State) : (s.afterEos).rdata = s.rdata := rfl
@[simp] theorem State.afterEos_taken (s : State) : (s.afterEos).taken = s.taken := rfl

/-! ### A command word offered -/

@[simp] theorem State.offerWord_params (w : Word) (s : State) : (s.offerWord w).params = s.params := rfl
@[simp] theorem State.offerWord_freq (w : Word) (s : State) : (s.offerWord w).freq = s.freq := rfl
@[simp] theorem State.offerWord_tree (w : Word) (s : State) : (s.offerWord w).tree = s.tree := rfl
@[simp] theorem State.offerWord_code (w : Word) (s : State) : (s.offerWord w).code = s.code := rfl
@[simp] theorem State.offerWord_phase (w : Word) (s : State) : (s.offerWord w).phase = s.phase := rfl
@[simp] theorem State.offerWord_err (w : Word) (s : State) : (s.offerWord w).err = s.err := rfl
@[simp] theorem State.offerWord_ibytes (w : Word) (s : State) : (s.offerWord w).ibytes = s.ibytes := rfl
@[simp] theorem State.offerWord_ipos (w : Word) (s : State) : (s.offerWord w).ipos = s.ipos := rfl
@[simp] theorem State.offerWord_obits (w : Word) (s : State) : (s.offerWord w).obits = s.obits := rfl
@[simp] theorem State.offerWord_oclosed (w : Word) (s : State) : (s.offerWord w).oclosed = s.oclosed := rfl
@[simp] theorem State.offerWord_stale (w : Word) (s : State) : (s.offerWord w).stale = s.stale := rfl
@[simp] theorem State.offerWord_draws (w : Word) (s : State) : (s.offerWord w).draws = s.draws := rfl
@[simp] theorem State.offerWord_inbox (w : Word) (s : State) : (s.offerWord w).inbox = .write .cmd w :: s.inbox := rfl
@[simp] theorem State.offerWord_rdata (w : Word) (s : State) : (s.offerWord w).rdata = s.rdata := rfl
@[simp] theorem State.offerWord_taken (w : Word) (s : State) : (s.offerWord w).taken = s.taken := rfl

/-! ### Reset -/

@[simp] theorem State.applyReset_params (input : List Byte) (s : State) : (s.applyReset input).params = s.params := rfl
@[simp] theorem State.applyReset_freq (input : List Byte) (s : State) : (s.applyReset input).freq = none := rfl
@[simp] theorem State.applyReset_tree (input : List Byte) (s : State) : (s.applyReset input).tree = none := rfl
@[simp] theorem State.applyReset_code (input : List Byte) (s : State) : (s.applyReset input).code = Vector.replicate 257 none := rfl
@[simp] theorem State.applyReset_phase (input : List Byte) (s : State) : (s.applyReset input).phase = .idle := rfl
@[simp] theorem State.applyReset_err (input : List Byte) (s : State) : (s.applyReset input).err = .none := rfl
@[simp] theorem State.applyReset_ibytes (input : List Byte) (s : State) : (s.applyReset input).ibytes = input := rfl
@[simp] theorem State.applyReset_ipos (input : List Byte) (s : State) : (s.applyReset input).ipos = 0 := rfl
@[simp] theorem State.applyReset_obits (input : List Byte) (s : State) : (s.applyReset input).obits = [] := rfl
@[simp] theorem State.applyReset_oclosed (input : List Byte) (s : State) : (s.applyReset input).oclosed = false := rfl
@[simp] theorem State.applyReset_stale (input : List Byte) (s : State) : (s.applyReset input).stale = false := rfl
@[simp] theorem State.applyReset_draws (input : List Byte) (s : State) : (s.applyReset input).draws = s.draws := rfl
@[simp] theorem State.applyReset_inbox (input : List Byte) (s : State) : (s.applyReset input).inbox = s.inbox := rfl
@[simp] theorem State.applyReset_rdata (input : List Byte) (s : State) : (s.applyReset input).rdata = s.rdata := rfl
@[simp] theorem State.applyReset_taken (input : List Byte) (s : State) : (s.applyReset input).taken = s.taken ++ [s.obytes] := rfl

/-! ### The rewind of the input port -/

@[simp] theorem inReset_params (s : State) : (inReset s).params = s.params := rfl
@[simp] theorem inReset_freq (s : State) : (inReset s).freq = s.freq := rfl
@[simp] theorem inReset_tree (s : State) : (inReset s).tree = s.tree := rfl
@[simp] theorem inReset_code (s : State) : (inReset s).code = s.code := rfl
@[simp] theorem inReset_phase (s : State) : (inReset s).phase = s.phase := rfl
@[simp] theorem inReset_err (s : State) : (inReset s).err = s.err := rfl
@[simp] theorem inReset_ibytes (s : State) : (inReset s).ibytes = s.ibytes := rfl
@[simp] theorem inReset_ipos (s : State) : (inReset s).ipos = 0 := rfl
@[simp] theorem inReset_obits (s : State) : (inReset s).obits = s.obits := rfl
@[simp] theorem inReset_oclosed (s : State) : (inReset s).oclosed = s.oclosed := rfl
@[simp] theorem inReset_stale (s : State) : (inReset s).stale = false := rfl
@[simp] theorem inReset_draws (s : State) : (inReset s).draws = s.draws := rfl
@[simp] theorem inReset_inbox (s : State) : (inReset s).inbox = s.inbox := rfl
@[simp] theorem inReset_rdata (s : State) : (inReset s).rdata = s.rdata := rfl
@[simp] theorem inReset_taken (s : State) : (inReset s).taken = s.taken := rfl

@[simp] theorem State.afterEos_inLen (s : State) : s.afterEos.inLen = s.inLen := rfl

/-- An end-of-stream answer leaves the position between where it was and the end (R43). -/
theorem State.afterEos_ipos_le {s : State} (h : s.ipos ≤ s.inLen) :
    s.ipos ≤ s.afterEos.ipos ∧ s.afterEos.ipos ≤ s.inLen := by
  have := Nat.mod_lt (Config.eosSkip s.draws) (show 0 < s.inLen - s.ipos + 1 by omega)
  rw [State.afterEos_ipos]; omega

/-- With no bit left the position cannot move. -/
theorem State.afterEos_ipos_of_end {s : State} (h : s.inLen = s.ipos) : s.afterEos.ipos = s.ipos := by
  rw [State.afterEos_ipos, h, Nat.sub_self, Nat.zero_add, Nat.mod_one, Nat.add_zero]

end Sys2Proof.Machine
end

