-- ==== Sys2Proof/Laws/Ports.lean ====
section
/-! SUPPORT. Laws/Ports.lean: what sequencing, the two ports and fault entry can do, said once. -/

namespace Sys2Proof.Machine

/-! ### Sequencing -/

@[simp] theorem Act.andThen_done {α β : Type} (a : α) (s : State) (f : α → State → Act β) :
    (Act.done a s).andThen f = f a s := rfl
@[simp] theorem Act.andThen_raised {α β : Type} (e : Err) (s : State) (f : α → State → Act β) :
    (Act.raised e s).andThen f = .raised e s := rfl
@[simp] theorem Act.andThen_halted {α β : Type} (r : Fault) (f : α → State → Act β) :
    (Act.halted r).andThen f = .halted r := rfl
@[simp] theorem Act.andThen_refused {α β : Type} (r : Refusal) (f : α → State → Act β) :
    (Act.refused r).andThen f = .refused r := rfl

theorem Act.andThen_assoc {α β γ : Type} (x : Act α) (f : α → State → Act β) (g : β → State → Act γ) :
    (x.andThen f).andThen g = x.andThen fun a s => (f a s).andThen g := by cases x <;> rfl

/-- The inversion of sequencing: a sequence that is done was done in both parts. -/
theorem Act.andThen_eq_done {α β : Type} {x : Act α} {f : α → State → Act β} {b : β} {t : State} :
    x.andThen f = .done b t ↔ ∃ a s, x = .done a s ∧ f a s = .done b t := by
  cases x <;> simp [Act.andThen]

/-- The inversion of sequencing: a sequence that raises does so in its first or in its second part. -/
theorem Act.andThen_eq_raised {α β : Type} {x : Act α} {f : α → State → Act β} {e : Err} {t : State} :
    x.andThen f = .raised e t ↔ x = .raised e t ∨ ∃ a s, x = .done a s ∧ f a s = .raised e t := by
  cases x <;> simp [Act.andThen]

theorem Act.andThen_eq_halted {α β : Type} {x : Act α} {f : α → State → Act β} {r : Fault} :
    x.andThen f = .halted r ↔ x = .halted r ∨ ∃ a s, x = .done a s ∧ f a s = .halted r := by
  cases x <;> simp [Act.andThen]

theorem Act.andThen_eq_refused {α β : Type} {x : Act α} {f : α → State → Act β} {r : Refusal} :
    x.andThen f = .refused r ↔ x = .refused r ∨ ∃ a s, x = .done a s ∧ f a s = .refused r := by
  cases x <;> simp [Act.andThen]

@[simp] theorem Act.finish_done (s : State) : (Act.done () s).finish = .next s := rfl
@[simp] theorem Act.finish_raised (e : Err) (s : State) : (Act.raised e s : Act Unit).finish = .next (s.raise e) := rfl
@[simp] theorem Act.finish_halted (r : Fault) : (Act.halted r : Act Unit).finish = .fault r := rfl
@[simp] theorem Act.finish_refused (r : Refusal) : (Act.refused r : Act Unit).finish = .refused r := rfl

/-- A command that answers a next state was done or raised a fault. -/
theorem Act.finish_eq_next {x : Act Unit} {t : State} :
    x.finish = .next t ↔ x = .done () t ∨ ∃ e s, x = .raised e s ∧ t = s.raise e := by
  cases x <;> simp [Act.finish, eq_comm]

/-! ### The output port -/

theorem outBits_open {s : State} (h : s.oclosed = false) (p : Bits) :
    outBits p s = .done () { s with obits := s.obits ++ p } := by simp [outBits, h]

theorem outWrite_open {s : State} (h : s.oclosed = false) {n : Nat} (h0 : 1 ≤ n) (h1 : n ≤ 32) (v : Nat) :
    outWrite n v s = .done () { s with obits := s.obits ++ field n v } := by
  rw [outWrite, if_neg (by omega), outBits_open h]

theorem outClose_open {s : State} (h : s.oclosed = false) :
    outClose s = .done ()
      { s with obits := s.obits ++ List.replicate (padLen s.obits.length) false, oclosed := true } := by
  simp [outClose, outBits_open h]

/-! ### The input port -/

theorem State.inBits_length (s : State) : s.inBits.length = s.inLen - s.ipos := by
  simp [State.inBits, State.inLen]

/-- What one read can do (R42, R43): refuse a bad width, answer `EOS`, or answer a value and advance by `n`; nothing but
the position, the `stale` mark and the counter of free values changes. -/
theorem inRead_cases (n : Nat) (s : State) :
    (¬ (1 ≤ n ∧ n ≤ 32) ∧ inRead n s = .refused .portWidth) ∨
    (1 ≤ n ∧ n ≤ 32 ∧ (s.inLen < s.ipos + n ∨ s.stale = true) ∧ inRead n s = .done .eos s.afterEos) ∨
    (1 ≤ n ∧ n ≤ 32 ∧ s.ipos + n ≤ s.inLen ∧
      ∃ v d, (s.stale = false → d = s.draws) ∧ inRead n s = .done (.val v) { s with ipos := s.ipos + n, draws := d }) := by
  unfold inRead
  split
  · left; exact ⟨by omega, rfl⟩
  · right
    split
    · left; exact ⟨by omega, by omega, .inl ‹_›, rfl⟩
    · split
      · split
        · left; exact ⟨by omega, by omega, .inr ‹_›, rfl⟩
        · right; exact ⟨by omega, by omega, by omega, _, s.draws + 1, by simp_all, rfl⟩
      · right; exact ⟨by omega, by omega, by omega, _, s.draws, fun _ => rfl, rfl⟩

/-- A read of bits that are there (R42). -/
theorem inRead_fresh {n : Nat} {s : State} {p rest : Bits} (h0 : 1 ≤ n) (h1 : n ≤ 32) (hs : s.stale = false)
    (hb : s.inBits = p ++ rest) (hp : p.length = n) :
    inRead n s = .done (.val (BitVec.ofNat n (num p))) { s with ipos := s.ipos + n } := by
  have hl := s.inBits_length
  rw [hb, List.length_append, hp] at hl
  rw [inRead, if_neg (by omega), if_neg (by omega), if_neg (by simp [hs]), hb, List.take_left' hp]

/-- A read past the end (R42). -/
theorem inRead_end {n : Nat} {s : State} (h0 : 1 ≤ n) (h1 : n ≤ 32) (hb : s.inLen < s.ipos + n) :
    inRead n s = .done .eos s.afterEos := by
  rw [inRead, if_neg (by omega), if_pos hb]

/-- The bits that remain after a read. -/
theorem inBits_advance {s : State} {p rest : Bits} (hb : s.inBits = p ++ rest) (d : Nat) :
    State.inBits { s with ipos := s.ipos + p.length, draws := d } = rest := by
  simp only [State.inBits] at *
  rw [← List.drop_drop, hb, List.drop_left]

theorem inBits_advance' {s : State} {p rest : Bits} (hb : s.inBits = p ++ rest) {n : Nat} (hn : p.length = n) :
    State.inBits { s with ipos := s.ipos + n } = rest := by
  subst hn; exact inBits_advance hb s.draws

/-- One bit read (R42). -/
theorem inRead_bit {s : State} {b : Bool} {rest : Bits} (hs : s.stale = false) (hb : s.inBits = b :: rest) :
    inRead 1 s = .done (.val (BitVec.ofBool b)) { s with ipos := s.ipos + 1 } := by
  rw [inRead_fresh (n := 1) (p := [b]) (rest := rest) (by decide) (by decide) hs hb rfl]
  cases b <;> rfl

theorem inBits_bit {s : State} {b : Bool} {rest : Bits} (hb : s.inBits = b :: rest) :
    State.inBits { s with ipos := s.ipos + 1 } = rest :=
  inBits_advance' (p := [b]) hb rfl

/-! ### Issuing a command -/

/-- What issuing a command can do: nothing in `FAULT`, its rule where it is legal, else `BAD_SEQUENCE` (R71, R73). -/
theorem issue_cases (i : Instr) (rule : State → Result) (s : State) :
    (s.phase = .fault ∧ issue i rule s = .next s) ∨
    (s.phase ≠ .fault ∧ s.phase ∈ legalPhases i ∧ issue i rule s = rule s) ∨
    (s.phase ≠ .fault ∧ s.phase ∉ legalPhases i ∧ issue i rule s = .next (s.raise .badSequence)) := by
  unfold issue
  split
  · exact .inl ⟨‹_›, rfl⟩
  · split
    · exact .inr (.inl ⟨‹_›, ‹_›, rfl⟩)
    · exact .inr (.inr ⟨‹_›, ‹_›, rfl⟩)

theorem issue_legal {i : Instr} {rule : State → Result} {s : State} (h : s.phase ≠ .fault)
    (hl : s.phase ∈ legalPhases i) : issue i rule s = rule s := by
  rw [issue, if_neg h, if_pos hl]

end Sys2Proof.Machine
end

