-- ==== Sys2Proof/Laws/Tree.lean ====
section
/-! SUPPORT. Laws/Tree.lean: sizes, paths and the serialization of Code Trees. -/

namespace Sys2Proof

@[simp] theorem field9_length (s : Sym) : (field9 s).length = 9 := field_length 9 s.val

theorem num_field9 (s : Sym) : num (field9 s) = s.val := by
  rw [field9, num_field, Nat.mod_eq_of_lt (Nat.lt_of_lt_of_le s.isLt (by decide))]

theorem Tree.leaves_length_pos (t : Tree) : 1 ≤ t.leaves.length := by
  induction t with
  | leaf => simp [Tree.leaves]
  | node w l r ihl _ => simp only [Tree.leaves, List.length_append]; omega

/-- `L` leaves and `L − 1` internal nodes (R82, R115). -/
theorem Tree.size_add_one (t : Tree) : t.size + 1 = 2 * t.leaves.length := by
  induction t with
  | leaf => rfl
  | node w l r ihl ihr => simp only [Tree.size, Tree.leaves, List.length_append]; omega

/-- `11·L − 1` bits (R82, R147). -/
theorem Tree.ser_length_add_one (t : Tree) : t.ser.length + 1 = 11 * t.leaves.length := by
  induction t with
  | leaf => simp [Tree.ser, Tree.leaves]
  | node w l r ihl ihr => simp only [Tree.ser, Tree.leaves, List.length_append, List.length_cons]; omega

@[simp] theorem Tree.shape_leaves (t : Tree) : t.shape.leaves = t.leaves := by
  induction t with
  | leaf => rfl
  | node w l r ihl ihr => simp [Tree.shape, Tree.leaves, ihl, ihr]

@[simp] theorem Tree.shape_size (t : Tree) : t.shape.size = t.size := by
  induction t with
  | leaf => rfl
  | node w l r ihl ihr => simp [Tree.shape, Tree.size, ihl, ihr]

@[simp] theorem Tree.shape_ser (t : Tree) : t.shape.ser = t.ser := by
  induction t with
  | leaf => rfl
  | node w l r ihl ihr => simp [Tree.shape, Tree.ser, ihl, ihr]

@[simp] theorem Tree.shape_isLeaf (t : Tree) : t.shape.isLeaf = t.isLeaf := by cases t <;> rfl

@[simp] theorem Tree.shape_value (t : Tree) : t.shape.value = t.value := by cases t <;> rfl

@[simp] theorem Tree.shape_shape (t : Tree) : t.shape.shape = t.shape := by
  induction t with
  | leaf => rfl
  | node w l r ihl ihr => simp [Tree.shape, ihl, ihr]

/-- Serializations parse uniquely: the shapes agree and so do the rests (R146). -/
theorem Tree.ser_parse {t u : Tree} {p q : Bits} (h : t.ser ++ p = u.ser ++ q) : t.shape = u.shape ∧ p = q := by
  induction t generalizing u p q with
  | leaf s w =>
    cases u with
    | leaf s' w' =>
      simp only [Tree.ser, List.cons_append, List.cons.injEq, true_and] at h
      have := List.append_inj h (by simp)
      have hn := congrArg num this.1
      rw [num_field9, num_field9] at hn
      exact ⟨by simp [Tree.shape, Fin.ext hn], this.2⟩
    | node => simp [Tree.ser] at h
  | node w l r ihl ihr =>
    cases u with
    | leaf => simp [Tree.ser] at h
    | node w' l' r' =>
      simp only [Tree.ser, List.cons_append, List.cons.injEq, true_and, List.append_assoc] at h
      obtain ⟨hl, h⟩ := ihl h
      obtain ⟨hr, h⟩ := ihr h
      exact ⟨by simp [Tree.shape, hl, hr], h⟩

/-! ### Paths -/

theorem Tree.follow_leaf {s : Sym} {w : Nat} {p : Bits} {t : Tree} :
    (Tree.leaf s w).follow p = some t ↔ p = [] ∧ t = .leaf s w := by
  cases p <;> simp [Tree.follow, eq_comm]

@[simp] theorem Tree.follow_nil (t : Tree) : t.follow [] = some t := by cases t <;> rfl

@[simp] theorem Tree.follow_cons (w : Nat) (l r : Tree) (b : Bool) (p : Bits) :
    (Tree.node w l r).follow (b :: p) = if b then r.follow p else l.follow p := rfl

theorem Tree.follow_append (t : Tree) (p q : Bits) : t.follow (p ++ q) = (t.follow p).bind fun u => u.follow q := by
  induction p generalizing t with
  | nil => simp
  | cons b p ih =>
    cases t with
    | leaf => rfl
    | node w l r => cases b <;> simp [ih]

/-- From a leaf nothing goes on: a path that continues a leaf's path leads nowhere (R135). -/
theorem Tree.follow_of_isPrefix {t : Tree} {p q : Bits} {s : Sym} {w : Nat} {u : Tree} (hp : t.follow p = some (.leaf s w))
    (hq : t.follow q = some u) (h : p <+: q) : p = q ∧ u = .leaf s w := by
  obtain ⟨r, rfl⟩ := h
  rw [Tree.follow_append, hp] at hq
  obtain ⟨rfl, rfl⟩ := Tree.follow_leaf.mp hq
  simp

theorem Tree.mem_leaves_iff {t : Tree} {s : Sym} : s ∈ t.leaves ↔ ∃ p w, t.follow p = some (.leaf s w) := by
  induction t with
  | leaf v w =>
    constructor
    · intro h; simp [Tree.leaves] at h; subst h; exact ⟨[], w, rfl⟩
    · rintro ⟨p, w', h⟩
      have := (Tree.follow_leaf.mp h).2
      simp at this; simp [Tree.leaves, this.1]
  | node w l r ihl ihr =>
    rw [Tree.leaves, List.mem_append, ihl, ihr]
    constructor
    · rintro (⟨p, w, h⟩ | ⟨p, w, h⟩)
      · exact ⟨false :: p, w, by simpa using h⟩
      · exact ⟨true :: p, w, by simpa using h⟩
    · rintro ⟨_ | ⟨b, p⟩, w, h⟩
      · simp at h
      · cases b
        · exact .inl ⟨p, w, by simpa using h⟩
        · exact .inr ⟨p, w, by simpa using h⟩

/-- In a tree without repeated symbols a symbol has one path. -/
theorem Tree.path_unique {t : Tree} (hn : t.leaves.Nodup) {s : Sym} {p q : Bits} {w v : Nat}
    (hp : t.follow p = some (.leaf s w)) (hq : t.follow q = some (.leaf s v)) : p = q := by
  induction t generalizing p q with
  | leaf => rw [(Tree.follow_leaf.mp hp).1, (Tree.follow_leaf.mp hq).1]
  | node x l r ihl ihr =>
    rw [Tree.leaves, List.nodup_append] at hn
    obtain ⟨hl, hr, hd⟩ := hn
    cases p with
    | nil => simp at hp
    | cons b p =>
      cases q with
      | nil => simp at hq
      | cons c q =>
        cases b <;> cases c <;> simp only [Tree.follow_cons, if_true, Bool.false_eq_true, if_false] at hp hq
        · rw [ihl hl hp hq]
        · exact absurd rfl (hd s (Tree.mem_leaves_iff.mpr ⟨p, w, hp⟩) s (Tree.mem_leaves_iff.mpr ⟨q, v, hq⟩))
        · exact absurd rfl (hd s (Tree.mem_leaves_iff.mpr ⟨q, v, hq⟩) s (Tree.mem_leaves_iff.mpr ⟨p, w, hp⟩))
        · rw [ihr hr hp hq]

/-- A path to a leaf is shorter than the number of leaves (R117 (e), R134). -/
theorem Tree.path_length_lt {t u : Tree} {p : Bits} (h : t.follow p = some u) : p.length < t.leaves.length := by
  induction p generalizing t with
  | nil => exact t.leaves_length_pos
  | cons b p ih =>
    cases t with
    | leaf => simp [Tree.follow] at h
    | node w l r =>
      have hl := l.leaves_length_pos
      have hr := r.leaves_length_pos
      simp only [Tree.leaves, List.length_append, List.length_cons]
      cases b
      · have := ih (t := l) (by simpa using h); omega
      · have := ih (t := r) (by simpa using h); omega

/-- Following a path in the shape is following it in the tree. -/
theorem Tree.shape_follow (t : Tree) (p : Bits) : t.shape.follow p = (t.follow p).map Tree.shape := by
  induction p generalizing t with
  | nil => simp
  | cons b p ih =>
    cases t with
    | leaf => rfl
    | node w l r => cases b <;> simp [Tree.shape, ih]

end Sys2Proof
end

