-- ==== Sys2Proof/Laws/Records.lean ====
section
/-! SUPPORT. Laws/Records.lean: each record written and read, once for each operation. -/

namespace Sys2Proof.Machine

/-! ### Writing -/

theorem emitGroups_open (q bits : Nat) {s : State} (h : s.oclosed = false) :
    emitGroups q bits s = .done () { s with obits := s.obits ++ field (32 * q) bits } := by
  induction q generalizing s with
  | zero => simp [emitGroups, field]
  | succ q ih =>
    rw [emitGroups, outWrite_open h (by decide) (by decide), Act.andThen_done, ih (by exact h),
      show 32 * (q + 1) = 32 + 32 * q by ring, field_add]
    simp

theorem emitPair_open (len bits : Nat) {s : State} (h : s.oclosed = false) :
    emitPair len bits s = .done () { s with obits := s.obits ++ field len bits } := by
  unfold emitPair
  split
  · rw [emitGroups_open _ _ h, show 32 * (len / 32) = len by omega]
  · rw [outWrite_open h (by omega) (by omega), Act.andThen_done, emitGroups_open _ _ (by exact h)]
    conv_rhs => rw [show len = len % 32 + 32 * (len / 32) by omega, field_add]
    simp

/-- `emit(p)` appends the code string, however it is split into writes (R162). -/
theorem emit_open (p : Bits) {s : State} (h : s.oclosed = false) :
    emit p s = .done () { s with obits := s.obits ++ p } := by
  rw [emit, emitPair_open _ _ h, field_num]

theorem putInternal_open {s : State} (h : s.oclosed = false) :
    putInternal s = .done () { s with obits := s.obits ++ [false] } := by
  rw [putInternal, outWrite_open h (by decide) (by decide)]; rfl

theorem putLeaf_open (v : BitVec 9) {s : State} (h : s.oclosed = false) :
    putLeaf v s = .done () { s with obits := s.obits ++ true :: field 9 v.toNat } := by
  rw [putLeaf, outWrite_open h (by decide) (by decide), Act.andThen_done,
    outWrite_open (by exact h) (by decide) (by decide)]
  simp [field]

/-- WRTREE's walk appends the serialization (R77, R141). -/
theorem putTree_open (t : Tree) {s : State} (h : s.oclosed = false) :
    putTree t s = .done () { s with obits := s.obits ++ t.ser } := by
  induction t generalizing s with
  | leaf v w =>
    rw [putTree, putLeaf_open _ h, Tree.ser, field9, BitVec.toNat_ofNat,
      Nat.mod_eq_of_lt (Nat.lt_of_lt_of_le v.isLt (by decide))]
  | node w l r ihl ihr =>
    rw [putTree, putInternal_open h, Act.andThen_done, ihl (by exact h), Act.andThen_done, ihr (by exact h)]
    simp [Tree.ser]

/-! ### Reading -/

theorem nodeCap_any {p : Params} {n : Nat} : (p.nodeCap.any (· < n)) = true ↔ ¬ FitsNodeCap p n := by
  unfold FitsNodeCap
  cases p.nodeCap <;> simp

theorem getRecord_internal {count : Nat} {s : State} {rest : Bits} (hs : s.stale = false)
    (hb : s.inBits = false :: rest) (hc : FitsNodeCap s.params (count + 1)) :
    getRecord count s = .done .internal { s with ipos := s.ipos + 1 } := by
  rw [getRecord, inRead_bit hs hb, Act.andThen_done]
  simp only [nodeCap_any, hc, not_true_eq_false, if_false]
  rfl

theorem getRecord_leaf {count : Nat} {s : State} {v : Sym} {rest : Bits} (hs : s.stale = false)
    (hb : s.inBits = true :: (field9 v ++ rest)) (hc : FitsNodeCap s.params (count + 1)) :
    getRecord count s = .done (.leaf v) { s with ipos := s.ipos + 10 } := by
  have hv : v.val < 512 := Nat.lt_of_lt_of_le v.isLt (by decide)
  rw [getRecord, inRead_bit hs hb, Act.andThen_done]
  simp only [nodeCap_any, hc, not_true_eq_false, if_false]
  rw [if_neg (by decide), inRead_fresh (n := 9) (by decide) (by decide) (by exact hs) (inBits_bit hb) (by simp),
    Act.andThen_done]
  simp [fieldSym, num_field9, Nat.mod_eq_of_lt hv, v.isLt]

/-- Reading a serialized tree gives its shape, whatever follows (R146). -/
theorem getTree_ser (t : Tree) {bound count : Nat} {s : State} {rest : Bits} (hd : t.size ≤ bound)
    (hs : s.stale = false) (hb : s.inBits = t.ser ++ rest) (hc : FitsNodeCap s.params (count + t.size)) :
    getTree bound count s = .done (t.shape, count + t.size) { s with ipos := s.ipos + t.ser.length } := by
  induction t generalizing bound count s rest with
  | leaf v w =>
    obtain ⟨b, rfl⟩ : ∃ b, bound = b + 1 := ⟨bound - 1, by simp [Tree.size] at hd; omega⟩
    rw [getTree, getRecord_leaf hs (by simpa [Tree.ser] using hb) hc, Act.andThen_done]
    simp [Tree.shape, Tree.size, Tree.ser]
  | node w l r ihl ihr =>
    simp only [Tree.size] at hd hc
    obtain ⟨b, rfl⟩ : ∃ b, bound = b + 1 := ⟨bound - 1, by omega⟩
    have hb1 : s.inBits = false :: (l.ser ++ (r.ser ++ rest)) := by simpa [Tree.ser] using hb
    have fits : ∀ n, n ≤ count + (1 + l.size + r.size) → FitsNodeCap s.params n :=
      fun n hn c hcap => Nat.le_trans hn (hc c hcap)
    have h1 := inBits_bit hb1
    have h2 := inBits_advance' h1 rfl
    rw [getTree, getRecord_internal hs hb1 (fits _ (by omega)), Act.andThen_done]
    simp only
    rw [ihl (by omega) (by exact hs) h1 (fits _ (by omega)), Act.andThen_done,
      ihr (by omega) (by exact hs) h2 (by simpa using fits _ (by omega)), Act.andThen_done]
    have e1 : count + 1 + l.size + r.size = count + (1 + l.size + r.size) := by omega
    have e2 : s.ipos + 1 + l.ser.length + r.ser.length = s.ipos + (l.ser.length + r.ser.length + 1) := by omega
    simp only [Tree.shape, Tree.size, Tree.ser, List.length_cons, List.length_append, e1, e2]

/-- Reading one code: the path leads to its leaf (R79, R182). -/
theorem getCode_follow {t : Tree} {p rest : Bits} {v : Sym} {w : Nat} {s : State} (hs : s.stale = false)
    (hf : t.follow p = some (.leaf v w)) (hb : s.inBits = p ++ rest) :
    getCode t s = .done v { s with ipos := s.ipos + p.length } := by
  induction p generalizing t s with
  | nil =>
    simp at hf; subst hf; rfl
  | cons b p ih =>
    cases t with
    | leaf => simp [Tree.follow] at hf
    | node x l r =>
      have h1 := inBits_bit (s := s) (b := b) (rest := p ++ rest) (by simpa using hb)
      rw [getCode, inRead_bit (rest := p ++ rest) hs (by simpa using hb), Act.andThen_done]
      have e : s.ipos + 1 + p.length = s.ipos + (b :: p).length := by simp; omega
      cases b
      · have := ih (t := l) (by exact hs) (by simpa using hf) h1
        rw [← e, ← this]; rfl
      · have := ih (t := r) (by exact hs) (by simpa using hf) h1
        rw [← e, ← this]; rfl

end Sys2Proof.Machine
end

