-- ==== Sys2Proof/Laws/Frame.lean ====
section
/-! SUPPORT. Laws/Frame.lean: what the pieces of a command can change, said once for each. -/

namespace Sys2Proof.Machine

/-- A property of the state a piece of a command leaves, whether it is done or has raised a fault. -/
def Act.All {α : Type} (P : State → Prop) (x : Act α) : Prop :=
  match x with
  | .done _ t => P t
  | .raised _ t => P t
  | .halted _ => True
  | .refused _ => True

/-- What every piece of a command but REWIND keeps: the input, the parameters, the host's side and the fault register
stay, the output only grows, the input position only advances (R24, R52, R54). -/
structure Grows (s t : State) : Prop where
  params : t.params = s.params
  ibytes : t.ibytes = s.ibytes
  inbox : t.inbox = s.inbox
  rdata : t.rdata = s.rdata
  taken : t.taken = s.taken
  err : t.err = s.err
  obits : s.obits <+: t.obits
  ipos : s.ipos ≤ t.ipos

theorem Grows.refl (s : State) : Grows s s := ⟨rfl, rfl, rfl, rfl, rfl, rfl, List.prefix_rfl, le_rfl⟩

theorem Grows.trans {s t u : State} (h : Grows s t) (k : Grows t u) : Grows s u :=
  ⟨k.params.trans h.params, k.ibytes.trans h.ibytes, k.inbox.trans h.inbox, k.rdata.trans h.rdata,
    k.taken.trans h.taken, k.err.trans h.err, h.obits.trans k.obits, h.ipos.trans k.ipos⟩

theorem Act.All.mono {α : Type} {P Q : State → Prop} {x : Act α} (h : x.All P) (k : ∀ t, P t → Q t) : x.All Q := by
  cases x <;> first | exact k _ h | trivial

/-- A sequence grows the output if both its parts do. -/
theorem Act.All.andThen {α β : Type} {s : State} {x : Act α} {f : α → State → Act β} (h : x.All (Grows s))
    (k : ∀ a t, x = .done a t → (f a t).All (Grows t)) : (x.andThen f).All (Grows s) := by
  cases x with
  | done a t => exact (k a t rfl).mono fun u hu => Grows.trans h hu
  | raised e t => exact h
  | halted r => trivial
  | refused r => trivial

theorem Act.All.of_done {α : Type} {P : State → Prop} {x : Act α} {a : α} {t : State} (h : x.All P)
    (e : x = .done a t) : P t := by subst e; exact h

theorem inRead_grows (n : Nat) (s : State) : (inRead n s).All (Grows s) := by
  rcases inRead_cases n s with ⟨_, e⟩ | ⟨_, _, _, e⟩ | ⟨_, _, _, v, d, _, e⟩
  · rw [e]; trivial
  · rw [e]; exact ⟨rfl, rfl, rfl, rfl, rfl, rfl, List.prefix_rfl, by simp⟩
  · rw [e]; exact ⟨rfl, rfl, rfl, rfl, rfl, rfl, List.prefix_rfl, by simp⟩

theorem outBits_grows (p : Bits) (s : State) : (outBits p s).All (Grows s) := by
  unfold outBits
  split
  · trivial
  · exact ⟨rfl, rfl, rfl, rfl, rfl, rfl, List.prefix_append _ _, le_rfl⟩

theorem outWrite_grows (n v : Nat) (s : State) : (outWrite n v s).All (Grows s) := by
  unfold outWrite
  split
  · trivial
  · exact outBits_grows _ _

theorem emitGroups_grows (q bits : Nat) (s : State) : (emitGroups q bits s).All (Grows s) := by
  induction q generalizing s with
  | zero => exact Grows.refl s
  | succ q ih => exact (outWrite_grows _ _ s).andThen fun _ t _ => ih t

theorem emit_grows (p : Bits) (s : State) : (emit p s).All (Grows s) := by
  unfold emit emitPair
  split
  · exact emitGroups_grows _ _ _
  · exact (outWrite_grows _ _ s).andThen fun _ t _ => emitGroups_grows _ _ t

theorem putLeaf_grows (v : BitVec 9) (s : State) : (putLeaf v s).All (Grows s) :=
  (outWrite_grows _ _ s).andThen fun _ _ _ => outWrite_grows _ _ _

theorem putTree_grows (t : Tree) (s : State) : (putTree t s).All (Grows s) := by
  induction t generalizing s with
  | leaf v w => exact putLeaf_grows _ s
  | node w l r ihl ihr =>
    exact (outWrite_grows _ _ s).andThen fun _ t _ => (ihl t).andThen fun _ u _ => ihr u

theorem getRecord_grows (count : Nat) (s : State) : (getRecord count s).All (Grows s) := by
  refine (inRead_grows 1 s).andThen fun a t _ => ?_
  match a with
  | .eos => exact Grows.refl t
  | .val b =>
    dsimp only
    split
    · exact Grows.refl t
    · split
      · exact Grows.refl t
      · refine (inRead_grows 9 t).andThen fun a u _ => ?_
        match a with
        | .eos => exact Grows.refl u
        | .val v => dsimp only; split <;> exact Grows.refl u

theorem getTree_grows (bound count : Nat) (s : State) : (getTree bound count s).All (Grows s) := by
  induction bound generalizing count s with
  | zero => trivial
  | succ bound ih =>
    refine (getRecord_grows count s).andThen fun a t _ => ?_
    cases a with
    | leaf v => exact Grows.refl t
    | internal => exact (ih _ t).andThen fun lc u _ => (ih _ u).andThen fun rc v _ => Grows.refl v

theorem getCode_grows (t : Tree) (s : State) : (getCode t s).All (Grows s) := by
  induction t generalizing s with
  | leaf v w => exact Grows.refl s
  | node w l r ihl ihr =>
    refine (inRead_grows 1 s).andThen fun a u _ => ?_
    match a with
    | .eos => exact Grows.refl u
    | .val b =>
      dsimp only
      split
      · exact ihl u
      · exact ihr u

theorem decLoop_grows (root : Tree) (bound : Nat) (s : State) : (decLoop root bound s).All (Grows s) := by
  induction bound generalizing s with
  | zero => trivial
  | succ bound ih =>
    refine (getCode_grows root s).andThen fun v t _ => ?_
    split
    · exact Grows.refl t
    · exact (outWrite_grows _ _ t).andThen fun _ u _ => ih u

theorem putCode_grows (v : Sym) (s : State) : (putCode v s).All (Grows s) := by
  unfold putCode
  split
  · exact Grows.refl s
  · exact emit_grows _ s

theorem encLoop_grows (bound : Nat) (s : State) : (encLoop bound s).All (Grows s) := by
  induction bound generalizing s with
  | zero => trivial
  | succ bound ih =>
    refine (inRead_grows 8 s).andThen fun a t _ => ?_
    match a with
    | .eos => exact Grows.refl t
    | .val b => exact (putCode_grows _ t).andThen fun _ u _ => ih u

theorem countLoop_grows (bound : Nat) (f : Vector Nat 257) (s : State) : (countLoop bound f s).All (Grows s) := by
  induction bound generalizing f s with
  | zero => trivial
  | succ bound ih =>
    refine (inRead_grows 8 s).andThen fun a t _ => ?_
    match a with
    | .eos => exact Grows.refl t
    | .val b =>
      dsimp only
      split
      · exact ih _ t
      · exact ⟨rfl, rfl, rfl, rfl, rfl, rfl, List.prefix_rfl, le_rfl⟩

/-! ### The commands' rules -/

theorem needTree_grows (s : State) : (needTree s).All (Grows s) := by
  unfold needTree
  split
  · exact Grows.refl s
  · trivial

theorem countRule_grows (s : State) : (countRule s).All (Grows s) :=
  (countLoop_grows _ _ s).andThen fun _ _ _ => ⟨rfl, rfl, rfl, rfl, rfl, rfl, List.prefix_rfl, le_rfl⟩

theorem buildRule_grows (s : State) : (buildRule s).All (Grows s) := by
  unfold buildRule needFreq
  split
  · simp only [Act.andThen_done]
    split
    · exact ⟨rfl, rfl, rfl, rfl, rfl, rfl, List.prefix_rfl, le_rfl⟩
    · trivial
  · trivial

theorem genCodesRule_grows (s : State) : (genCodesRule s).All (Grows s) :=
  (needTree_grows s).andThen fun _ _ _ => ⟨rfl, rfl, rfl, rfl, rfl, rfl, List.prefix_rfl, le_rfl⟩

theorem wrMagicRule_grows (s : State) : (wrMagicRule s).All (Grows s) :=
  (outWrite_grows _ _ s).andThen fun _ _ _ => ⟨rfl, rfl, rfl, rfl, rfl, rfl, List.prefix_rfl, le_rfl⟩

theorem wrTreeRule_grows (s : State) : (wrTreeRule s).All (Grows s) :=
  (needTree_grows s).andThen fun t u _ => (putTree_grows t u).andThen fun _ _ _ =>
    ⟨rfl, rfl, rfl, rfl, rfl, rfl, List.prefix_rfl, le_rfl⟩

theorem encBodyRule_grows (s : State) : (encBodyRule s).All (Grows s) :=
  (encLoop_grows _ s).andThen fun _ t _ => (putCode_grows _ t).andThen fun _ _ _ =>
    ⟨rfl, rfl, rfl, rfl, rfl, rfl, List.prefix_rfl, le_rfl⟩

theorem closeRule_grows (s : State) : (closeRule s).All (Grows s) := by
  refine Act.All.andThen (Act.All.andThen (outBits_grows _ s) fun _ _ _ =>
    ⟨rfl, rfl, rfl, rfl, rfl, rfl, List.prefix_rfl, le_rfl⟩) fun _ t _ => ?_
  simp only [Act.All]
  split
  · exact Grows.refl t
  · exact ⟨rfl, rfl, rfl, rfl, rfl, rfl, List.prefix_rfl, le_rfl⟩

theorem rdMagicRule_grows (s : State) : (rdMagicRule s).All (Grows s) := by
  refine (inRead_grows 32 s).andThen fun a t _ => ?_
  match a with
  | .eos => exact Grows.refl t
  | .val m =>
    dsimp only
    split
    · exact ⟨rfl, rfl, rfl, rfl, rfl, rfl, List.prefix_rfl, le_rfl⟩
    · exact Grows.refl t

theorem rdTreeRule_grows (s : State) : (rdTreeRule s).All (Grows s) := by
  have h0 : Grows s { s with tree := none } := ⟨rfl, rfl, rfl, rfl, rfl, rfl, List.prefix_rfl, le_rfl⟩
  refine Act.All.andThen ((getTree_grows _ _ _).mono fun t => h0.trans) fun tc t _ => ?_
  split
  · exact Grows.refl t
  · exact ⟨rfl, rfl, rfl, rfl, rfl, rfl, List.prefix_rfl, le_rfl⟩

theorem decBodyRule_grows (s : State) : (decBodyRule s).All (Grows s) := by
  refine (needTree_grows s).andThen fun t u _ => ?_
  split
  · exact ⟨rfl, rfl, rfl, rfl, rfl, rfl, List.prefix_rfl, le_rfl⟩
  · exact (decLoop_grows _ _ u).andThen fun _ _ _ => ⟨rfl, rfl, rfl, rfl, rfl, rfl, List.prefix_rfl, le_rfl⟩

end Sys2Proof.Machine
end

