-- ==== Sys2Proof/Laws/Frequency.lean ====
section
/-! SUPPORT. Laws/Frequency.lean: COUNT tabulates its input. -/

namespace Sys2Proof.Machine

theorem byteSym_injective {a b : Byte} (h : byteSym a = byteSym b) : a = b :=
  BitVec.eq_of_toNat_eq (by simpa [byteSym] using h)

theorem byteSym_ne_eof (b : Byte) : byteSym b ≠ pseudoEof := by
  intro h
  have hv : b.toNat = 256 := congrArg Fin.val h
  have := b.isLt
  omega

/-- Every symbol is a byte value or `PSEUDO_EOF` (R9). -/
theorem sym_cases (v : Sym) : v = pseudoEof ∨ ∃ b, v = byteSym b := by
  by_cases h : v.val = 256
  · exact .inl (Fin.ext h)
  · refine .inr ⟨BitVec.ofNat 8 v.val, Fin.ext ?_⟩
    have := v.isLt
    simp only [byteSym, BitVec.toNat_ofNat]; omega

/-- The counters after one more byte. -/
def tick (f : Vector Nat 257) (b : Byte) : Vector Nat 257 := f.set (byteSym b) (f[byteSym b] + 1)

theorem tick_get (f : Vector Nat 257) (b : Byte) (v : Sym) :
    (tick f b)[v] = f[v] + if byteSym b = v then 1 else 0 := by
  simp only [tick, Fin.getElem_fin, Vector.getElem_set]
  by_cases h : byteSym b = v
  · subst h; simp
  · have : ¬ (byteSym b).val = v.val := fun e => h (Fin.ext e)
    simp [h, this]

/-- The counters after a byte string: what was there, plus the number of occurrences. -/
theorem foldl_tick_get (f : Vector Nat 257) (bs : List Byte) (v : Sym) :
    (bs.foldl tick f)[v] = f[v] + bs.countP fun b => byteSym b = v := by
  induction bs generalizing f with
  | nil => simp
  | cons b bs ih =>
    rw [List.foldl_cons, ih, tick_get, List.countP_cons]
    by_cases h : byteSym b = v
    · simp [h]; omega
    · simp [h]

theorem vector_ext_sym {α : Type} {f g : Vector α 257} (h : ∀ v : Sym, f[v] = g[v]) : f = g :=
  Vector.ext fun i hi => h ⟨i, hi⟩

theorem freqOf_get (bs : List Byte) (v : Sym) :
    (freqOf bs)[v] = if v = pseudoEof then 1 else bs.countP fun b => byteSym b = v := by
  simp [freqOf]

theorem freqOf_byte (bs : List Byte) (b : Byte) : (freqOf bs)[byteSym b] = bs.count b := by
  rw [freqOf_get, if_neg (byteSym_ne_eof b), List.count]
  congr 1
  funext c
  by_cases h : c = b
  · simp [h]
  · have : byteSym c ≠ byteSym b := fun e => h (byteSym_injective e)
    simp [h, this]

theorem freqOf_eof (bs : List Byte) : (freqOf bs)[pseudoEof] = 1 := by rw [freqOf_get, if_pos rfl]

/-- The counters COUNT ends with, its last line included (R100). -/
theorem tally_eq_freqOf (bs : List Byte) :
    (bs.foldl tick (Vector.replicate 257 0)).set pseudoEof 1 = freqOf bs := by
  apply vector_ext_sym
  intro v
  have h := foldl_tick_get (Vector.replicate 257 0) bs v
  rw [freqOf_get]
  simp only [Fin.getElem_fin, Vector.getElem_set, Vector.getElem_replicate, Nat.zero_add] at *
  by_cases hv : v = pseudoEof
  · simp [hv]
  · have : ¬ pseudoEof.val = v.val := fun e => hv (Fin.ext e.symm)
    simp [hv, this, h]

theorem countFits_of_lt {p : Params} {c : Nat} (h : ∀ k, p.countBits = some k → c + 1 < 2 ^ k) :
    countFits p c = true := by
  unfold countFits
  split
  · rfl
  · have := h _ ‹_›
    exact decide_eq_true (by omega)

/-- A byte read when the input stands before a whole byte (R42). -/
theorem inRead_byte {s : State} {b : Byte} {rest : Bits} (hs : s.stale = false)
    (hb : s.inBits = byteBits b ++ rest) :
    inRead 8 s = .done (.val b) { s with ipos := s.ipos + 8 } := by
  rw [inRead_fresh (n := 8) (by decide) (by decide) hs hb (by simp), num_byteBits]
  simp

/-- The end of an input of whole bytes. -/
theorem inLen_of_inBits_nil {s : State} (hb : s.inBits = []) : s.inLen ≤ s.ipos := by
  have := s.inBits_length
  rw [hb] at this
  simp at this
  omega

/-- COUNT's loop over the bytes that remain, when no counter overflows (R100). -/
theorem countLoop_fits {bound : Nat} {f : Vector Nat 257} {s : State} {bs : List Byte} (hs : s.stale = false)
    (hb : s.inBits = unpack bs) (hn : bs.length < bound)
    (hf : ∀ k, s.params.countBits = some k → ∀ b : Byte, f[byteSym b] + bs.count b < 2 ^ k) :
    countLoop bound f s =
      .done (bs.foldl tick f) (State.afterEos { s with ipos := s.ipos + 8 * bs.length }) := by
  induction bs generalizing bound f s with
  | nil =>
    obtain ⟨n, rfl⟩ : ∃ n, bound = n + 1 := ⟨bound - 1, by simp at hn; omega⟩
    rw [countLoop, inRead_end (by decide) (by decide)
      (by have := inLen_of_inBits_nil (s := s) (by simpa using hb); omega)]
    simp
  | cons b bs ih =>
    obtain ⟨n, rfl⟩ : ∃ n, bound = n + 1 := ⟨bound - 1, by omega⟩
    rw [unpack_cons] at hb
    have hfit : countFits s.params f[byteSym b] = true := by
      apply countFits_of_lt
      intro k hk
      have := hf k hk b
      rw [List.count_cons_self] at this
      omega
    rw [countLoop, inRead_byte hs hb, Act.andThen_done]
    simp only [hfit, if_true]
    have := ih (bound := n) (f := tick f b) (s := { s with ipos := s.ipos + 8 }) hs
      (inBits_advance' hb (by simp)) (by simpa using hn) (by
        intro k hk c
        have := hf k hk c
        rw [tick_get]
        by_cases h : b = c
        · subst h; rw [List.count_cons_self] at this; rw [if_pos rfl]; omega
        · have h' : byteSym b ≠ byteSym c := fun e => h (byteSym_injective e)
          rw [List.count_cons_of_ne h] at this; rw [if_neg h']; omega)
    rw [tick] at this
    rw [this, List.foldl_cons, tick, List.length_cons]
    simp only [Nat.mul_add, Nat.mul_one, Nat.add_assoc, Nat.add_comm 8]

end Sys2Proof.Machine
end

