-- ==== Sys2Proof/Laws/TreeBuilder.lean ====
section
/-! SUPPORT. Laws/TreeBuilder.lean: what BUILD's queue and merges keep. -/

namespace Sys2Proof.Machine

/-! ### The queue -/

theorem queueInsert_perm (tie : Tie) (e : Entry) (q : List Entry) : (queueInsert tie e q).Perm (e :: q) := by
  induction q with
  | nil => exact .refl _
  | cons x q ih =>
    unfold queueInsert
    split
    · exact .refl _
    · exact (ih.cons x).trans (.swap e x q)

@[simp] theorem queueInsert_length (tie : Tie) (e : Entry) (q : List Entry) :
    (queueInsert tie e q).length = q.length + 1 := (queueInsert_perm tie e q).length_eq

/-- The order is transitive (R113). -/
theorem entryBefore_trans {tie : Tie} {x y z : Entry} (h1 : entryBefore tie x y = true)
    (h2 : entryBefore tie y z = true) : entryBefore tie x z = true := by
  cases tie <;> simp only [entryBefore, Bool.or_eq_true, Bool.and_eq_true, decide_eq_true_eq] at * <;> omega

/-- The order is irreflexive (R113). -/
theorem entryBefore_irrefl (tie : Tie) (x : Entry) : entryBefore tie x x = false := by
  cases tie <;> simp [entryBefore]

/-- Entries with different order keys are comparable, so the order is total on the entries of one BUILD (R113). -/
theorem entryBefore_total {tie : Tie} {x y : Entry} (h : x.order ≠ y.order) :
    entryBefore tie x y = true ∨ entryBefore tie y x = true := by
  cases tie <;> simp only [entryBefore, Bool.or_eq_true, Bool.and_eq_true, decide_eq_true_eq] <;> omega

theorem weight_le_of_not_before {tie : Tie} {x y : Entry} (h : entryBefore tie x y ≠ true) : y.weight ≤ x.weight := by
  by_contra hc
  exact h (by simp [entryBefore, Nat.not_le.mp hc])

/-- A queue in order: nothing in it is before its head, and so on (R13). -/
def QueueSorted (tie : Tie) (q : List Entry) : Prop := q.Pairwise fun x y => entryBefore tie y x = false

theorem queueInsert_sorted {tie : Tie} {e : Entry} {q : List Entry} (h : QueueSorted tie q) :
    QueueSorted tie (queueInsert tie e q) := by
  induction q with
  | nil => simp [queueInsert, QueueSorted]
  | cons x q ih =>
    obtain ⟨hx, hq⟩ := List.pairwise_cons.mp h
    unfold queueInsert
    split
    · rename_i hb
      refine List.pairwise_cons.mpr ⟨?_, h⟩
      intro y hy
      rcases List.mem_cons.mp hy with rfl | hy
      · by_contra hc
        have := entryBefore_trans hb (by simpa using hc)
        rw [entryBefore_irrefl] at this; exact absurd this (by decide)
      · by_contra hc
        have := entryBefore_trans (y := e) (z := x) (by simpa using hc) hb
        rw [hx y hy] at this; exact absurd this (by decide)
    · rename_i hb
      refine List.pairwise_cons.mpr ⟨?_, ih hq⟩
      intro y hy
      rcases List.mem_cons.mp ((queueInsert_perm tie e q).mem_iff.mp hy) with rfl | hy
      · simpa using hb
      · exact hx y hy

/-! ### The leaves -/

/-- The symbols BUILD makes a leaf for, in ascending order (R112). -/
def presentSyms (f : Vector Nat 257) : List Sym := (List.finRange 257).filter fun s => f[s] ≠ 0

theorem presentSyms_nodup (f : Vector Nat 257) : (presentSyms f).Nodup := (List.nodup_finRange 257).filter _

theorem mem_presentSyms {f : Vector Nat 257} {s : Sym} : s ∈ presentSyms f ↔ f[s] ≠ 0 := by
  simp [presentSyms]

theorem foldl_insert_perm (tie : Tie) (f : Vector Nat 257) (l : List Sym) (q : List Entry) :
    (l.foldl (fun q s => if f[s] = 0 then q else queueInsert tie (leafEntry f s) q) q).Perm
      ((l.filter fun s => f[s] ≠ 0).map (leafEntry f) ++ q) := by
  induction l generalizing q with
  | nil => exact .refl _
  | cons s l ih =>
    rw [List.foldl_cons]
    by_cases h : f[s] = 0
    · rw [if_pos h]
      refine (ih q).trans ?_
      rw [List.filter_cons_of_neg (by simpa using h)]
    · rw [if_neg h]
      refine (ih _).trans ?_
      rw [List.filter_cons_of_pos (by simpa using h), List.map_cons, List.cons_append]
      exact ((queueInsert_perm tie (leafEntry f s) q).append_left _).trans List.perm_middle

/-- The queue BUILD starts from: one leaf entry for each symbol with a non-zero count (R112). -/
theorem leafQueue_perm (tie : Tie) (f : Vector Nat 257) :
    (leafQueue tie f).Perm ((presentSyms f).map (leafEntry f)) := by
  simpa [leafQueue, presentSyms] using foldl_insert_perm tie f (List.finRange 257) []

theorem leafQueue_sorted (tie : Tie) (f : Vector Nat 257) : QueueSorted tie (leafQueue tie f) := by
  unfold leafQueue
  have key : ∀ (l : List Sym) (q : List Entry), QueueSorted tie q →
      QueueSorted tie (l.foldl (fun q s => if f[s] = 0 then q else queueInsert tie (leafEntry f s) q) q) := by
    intro l
    induction l with
    | nil => exact fun _ h => h
    | cons s l ih =>
      intro q hq
      rw [List.foldl_cons]
      split
      · exact ih q hq
      · exact ih _ (queueInsert_sorted hq)
  exact key _ _ List.Pairwise.nil

/-! ### The merges -/

/-- The leaf symbols of a queue's trees. -/
def queueLeaves (q : List Entry) : List Sym := q.flatMap fun e => e.tree.leaves

theorem queueLeaves_perm {p q : List Entry} (h : p.Perm q) : (queueLeaves p).Perm (queueLeaves q) :=
  h.flatMap_right _

/-- An entry that BUILD makes: its weight is its tree's, and every weight in the tree is the sum of the counts beneath
(R13, R114). -/
def EntryOk (f : Vector Nat 257) (e : Entry) : Prop := e.weight = e.tree.weight ∧ e.tree.weighed f = true

theorem leafEntry_ok (f : Vector Nat 257) (s : Sym) : EntryOk f (leafEntry f s) := by
  simp [EntryOk, leafEntry, Tree.weight, Tree.weighed]

theorem mergeEntry_ok {f : Vector Nat 257} {k : Nat} {a b : Entry} (ha : EntryOk f a) (hb : EntryOk f b) :
    EntryOk f (mergeEntry k a b) := by
  simp [EntryOk, mergeEntry, Tree.weight, Tree.weighed, ha.1, ha.2, hb.1, hb.2]

/-- The merges end with one tree over all the queue's leaves, with its weights right; the bound suffices (R115). -/
theorem mergeLoop_ok {tie : Tie} {f : Vector Nat 257} {bound k : Nat} {q : List Entry} (hq : q ≠ [])
    (hb : q.length ≤ bound + 1) (ho : ∀ e ∈ q, EntryOk f e) :
    ∃ t, mergeLoop tie bound k q = .ok t ∧ t.leaves.Perm (queueLeaves q) ∧ t.weighed f = true := by
  induction bound generalizing k q with
  | zero =>
    match q, hq, hb with
    | [e], _, _ => exact ⟨e.tree, rfl, by simp [queueLeaves], (ho e (by simp)).2⟩
  | succ n ih =>
    match q, hq, hb with
    | [e], _, _ => exact ⟨e.tree, rfl, by simp [queueLeaves], (ho e (by simp)).2⟩
    | a :: b :: q, _, hb =>
      have hp := queueInsert_perm tie (mergeEntry k a b) q
      obtain ⟨t, e, hl, hw⟩ := ih (k := k + 1) (q := queueInsert tie (mergeEntry k a b) q)
        (fun h => by have := congrArg List.length h; simp at this) (by simp at hb ⊢; omega)
        (by
          intro e he
          rcases List.mem_cons.mp (hp.mem_iff.mp he) with rfl | he
          · exact mergeEntry_ok (ho a (by simp)) (ho b (by simp))
          · exact ho e (by simp [he]))
      refine ⟨t, e, hl.trans ((queueLeaves_perm hp).trans ?_), hw⟩
      simp [queueLeaves, mergeEntry, Tree.leaves]

/-- What BUILD makes of a table with some non-zero counter (R111, R117). -/
theorem buildTree_ok {tie : Tie} {f : Vector Nat 257} {s : Sym} (hs : f[s] ≠ 0) :
    ∃ t, buildTree tie f = .ok t ∧ BuiltFor f t := by
  have hp := leafQueue_perm tie f
  have hmem := mem_presentSyms.mpr hs
  obtain ⟨t, e, hl, hw⟩ := mergeLoop_ok (tie := tie) (f := f) (bound := (leafQueue tie f).length) (k := 0)
    (q := leafQueue tie f)
    (fun h => by rw [h] at hp; have := hp.symm.eq_nil; simp at this; rw [this] at hmem; simp at hmem)
    (by omega)
    (fun e he => by
      obtain ⟨v, -, rfl⟩ := List.mem_map.mp (hp.mem_iff.mp he)
      exact leafEntry_ok f v)
  have hl' : t.leaves.Perm (presentSyms f) := by
    refine hl.trans ((queueLeaves_perm hp).trans ?_)
    simp [queueLeaves, List.flatMap_map, leafEntry, Tree.leaves]
  exact ⟨t, e, hl'.nodup_iff.mpr (presentSyms_nodup f), fun v => hl'.mem_iff.trans mem_presentSyms, hw⟩

end Sys2Proof.Machine
end

