-- ==== Sys2Proof/Laws/Bounds.lean ====
section
/-! SUPPORT. Laws/Bounds.lean: the bounds on the loops suffice (spec/45_decoder.md R186; spec/70_reset_and_hazards.md
R244). -/

namespace Sys2Proof.Machine

theorem inRead_not_halted (n : Nat) (s : State) (r : Fault) : inRead n s ≠ .halted r := by
  rcases inRead_cases n s with ⟨_, e⟩ | ⟨_, _, _, e⟩ | ⟨_, _, _, v, d, _, e⟩ <;> simp [e]

/-- A read that succeeds leaves room for fewer reads. -/
theorem inRead_val_bound {n : Nat} {s t : State} {v : BitVec n} (h : inRead n s = .done (.val v) t) :
    t.readBound + 1 ≤ s.readBound := by
  rcases inRead_cases n s with ⟨_, e⟩ | ⟨_, _, _, e⟩ | ⟨h1, _, h2, v', d, _, e⟩ <;> rw [e] at h <;> simp at h
  obtain ⟨_, rfl⟩ := h
  simp only [State.readBound, State.inLen] at *
  omega

theorem Grows.readBound {s t : State} (h : Grows s t) : t.readBound ≤ s.readBound := by
  have := h.ipos
  simp only [State.readBound, State.inLen, h.ibytes]
  omega

theorem readBound_pos (s : State) : 1 ≤ s.readBound := by simp [State.readBound]

theorem outBits_not_halted (p : Bits) (s : State) (r : Fault) : outBits p s ≠ .halted r := by
  unfold outBits; split <;> simp

theorem outWrite_not_halted (n v : Nat) (s : State) (r : Fault) : outWrite n v s ≠ .halted r := by
  unfold outWrite
  split
  · simp
  · exact outBits_not_halted _ _ _

theorem emitGroups_not_halted (q bits : Nat) (s : State) (r : Fault) : emitGroups q bits s ≠ .halted r := by
  induction q generalizing s with
  | zero => simp [emitGroups]
  | succ q ih =>
    rw [emitGroups, Ne, Act.andThen_eq_halted, not_or]
    exact ⟨outWrite_not_halted _ _ _ _, by rintro ⟨_, t, _, h⟩; exact ih t h⟩

theorem emit_not_halted (p : Bits) (s : State) (r : Fault) : emit p s ≠ .halted r := by
  unfold emit emitPair
  split
  · exact emitGroups_not_halted _ _ _ _
  · rw [Ne, Act.andThen_eq_halted, not_or]
    exact ⟨outWrite_not_halted _ _ _ _, by rintro ⟨_, t, _, h⟩; exact emitGroups_not_halted _ _ t _ h⟩

theorem putTree_not_halted (t : Tree) (s : State) (r : Fault) : putTree t s ≠ .halted r := by
  induction t generalizing s with
  | leaf v w =>
    rw [putTree, putLeaf, Ne, Act.andThen_eq_halted, not_or]
    exact ⟨outWrite_not_halted _ _ _ _, by rintro ⟨_, t, _, h⟩; exact outWrite_not_halted _ _ _ _ h⟩
  | node w l r ihl ihr =>
    rw [putTree, Ne, Act.andThen_eq_halted, not_or]
    refine ⟨outWrite_not_halted _ _ _ _, ?_⟩
    rintro ⟨_, t, _, h⟩
    rcases Act.andThen_eq_halted.mp h with h | ⟨_, u, _, h⟩
    · exact ihl t h
    · exact ihr u h

theorem putCode_not_halted (v : Sym) (s : State) (r : Fault) : putCode v s ≠ .halted r := by
  unfold putCode
  split
  · simp
  · exact emit_not_halted _ _ _

theorem getRecord_not_halted (count : Nat) (s : State) (r : Fault) : getRecord count s ≠ .halted r := by
  intro h
  rcases Act.andThen_eq_halted.mp h with h | ⟨a, t, _, h⟩
  · exact inRead_not_halted _ _ _ h
  · match a with
    | .eos => simp at h
    | .val b =>
      dsimp only at h
      split at h
      · simp at h
      · split at h
        · simp at h
        · rcases Act.andThen_eq_halted.mp h with h | ⟨a, u, _, h⟩
          · exact inRead_not_halted _ _ _ h
          · match a with
            | .eos => simp at h
            | .val v => dsimp only at h; split at h <;> simp at h

/-- A record that is read consumes at least one bit (R148). -/
theorem getRecord_done_bound {count : Nat} {s t : State} {r : TreeRecord} (h : getRecord count s = .done r t) :
    t.readBound + 1 ≤ s.readBound := by
  obtain ⟨a, u, h1, h⟩ := Act.andThen_eq_done.mp h
  match a with
  | .eos => simp at h
  | .val b =>
    have hb := inRead_val_bound h1
    dsimp only at h
    split at h
    · simp at h
    · split at h
      · simp at h; obtain ⟨_, rfl⟩ := h; exact hb
      · obtain ⟨a, v, h2, h⟩ := Act.andThen_eq_done.mp h
        match a with
        | .eos => simp at h
        | .val x =>
          have := inRead_val_bound h2
          dsimp only at h
          split at h <;> simp at h
          obtain ⟨_, rfl⟩ := h
          omega

theorem getTree_not_halted {bound : Nat} (count : Nat) {s : State} (h : s.readBound ≤ bound) (r : Fault) :
    getTree bound count s ≠ .halted r := by
  induction bound generalizing count s with
  | zero => have := readBound_pos s; omega
  | succ bound ih =>
    intro e
    rcases Act.andThen_eq_halted.mp e with e | ⟨a, t, ha, e⟩
    · exact getRecord_not_halted _ _ _ e
    · have hb := getRecord_done_bound ha
      cases a with
      | leaf v => simp at e
      | internal =>
        rcases Act.andThen_eq_halted.mp e with e | ⟨lc, u, hl, e⟩
        · exact ih _ (by omega) e
        · have := ((getTree_grows bound (count + 1) t).of_done hl).readBound
          rcases Act.andThen_eq_halted.mp e with e | ⟨rc, v, _, e⟩
          · exact ih _ (by omega) e
          · simp at e

theorem getCode_not_halted (t : Tree) (s : State) (r : Fault) : getCode t s ≠ .halted r := by
  induction t generalizing s with
  | leaf v w => simp [getCode]
  | node w l r' ihl ihr =>
    intro e
    rcases Act.andThen_eq_halted.mp e with e | ⟨a, u, _, e⟩
    · exact inRead_not_halted _ _ _ e
    · match a with
      | .eos => simp at e
      | .val b =>
        dsimp only at e
        split at e
        · exact ihl u e
        · exact ihr u e

/-- A code of a tree with two or more leaves has at least one bit (R133). -/
theorem getCode_done_bound {t : Tree} {s u : State} {v : Sym} (ht : t.isLeaf = false) (h : getCode t s = .done v u) :
    u.readBound + 1 ≤ s.readBound := by
  cases t with
  | leaf => simp [Tree.isLeaf] at ht
  | node w l r =>
    obtain ⟨a, x, h1, h⟩ := Act.andThen_eq_done.mp h
    match a with
    | .eos => simp at h
    | .val b =>
      have hb := inRead_val_bound h1
      dsimp only at h
      split at h
      · have := ((getCode_grows l x).of_done h).readBound; omega
      · have := ((getCode_grows r x).of_done h).readBound; omega

theorem decLoop_not_halted {root : Tree} (hr : root.isLeaf = false) {bound : Nat} {s : State}
    (h : s.readBound ≤ bound) (r : Fault) : decLoop root bound s ≠ .halted r := by
  induction bound generalizing s with
  | zero => have := readBound_pos s; omega
  | succ bound ih =>
    intro e
    rcases Act.andThen_eq_halted.mp e with e | ⟨v, t, hv, e⟩
    · exact getCode_not_halted _ _ _ e
    · have hb := getCode_done_bound hr hv
      split at e
      · simp at e
      · rcases Act.andThen_eq_halted.mp e with e | ⟨_, u, hu, e⟩
        · exact outWrite_not_halted _ _ _ _ e
        · have := ((outWrite_grows 8 v.val t).of_done hu).readBound
          exact ih (by omega) e

theorem encLoop_not_halted {bound : Nat} {s : State} (h : s.readBound ≤ bound) (r : Fault) :
    encLoop bound s ≠ .halted r := by
  induction bound generalizing s with
  | zero => have := readBound_pos s; omega
  | succ bound ih =>
    intro e
    rcases Act.andThen_eq_halted.mp e with e | ⟨a, t, ha, e⟩
    · exact inRead_not_halted _ _ _ e
    · match a with
      | .eos => simp at e
      | .val b =>
        have hb := inRead_val_bound ha
        rcases Act.andThen_eq_halted.mp e with e | ⟨_, u, hu, e⟩
        · exact putCode_not_halted _ _ _ e
        · have := ((putCode_grows _ t).of_done hu).readBound
          exact ih (by omega) e

theorem countLoop_not_halted {bound : Nat} (f : Vector Nat 257) {s : State} (h : s.readBound ≤ bound) (r : Fault) :
    countLoop bound f s ≠ .halted r := by
  induction bound generalizing f s with
  | zero => have := readBound_pos s; omega
  | succ bound ih =>
    intro e
    rcases Act.andThen_eq_halted.mp e with e | ⟨a, t, ha, e⟩
    · exact inRead_not_halted _ _ _ e
    · match a with
      | .eos => simp at e
      | .val b =>
        have hb := inRead_val_bound ha
        dsimp only at e
        split at e
        · exact ih _ (by omega) e
        · simp at e

/-- BUILD's bound suffices for every queue. -/
theorem mergeLoop_not_bounded {tie : Tie} {bound k : Nat} {q : List Entry} (h : q.length ≤ bound + 1) :
    mergeLoop tie bound k q ≠ .error .loopBound := by
  induction bound generalizing k q with
  | zero =>
    match q, h with
    | [], _ => simp [mergeLoop]
    | [e], _ => simp [mergeLoop]
  | succ n ih =>
    match q, h with
    | [], _ => simp [mergeLoop]
    | [e], _ => simp [mergeLoop]
    | a :: b :: q, h => rw [mergeLoop]; exact ih (by simp at h ⊢; omega)

end Sys2Proof.Machine
end

