-- ==== Sys2Proof/Laws/CodeTable.lean ====
section
/-! SUPPORT. Laws/CodeTable.lean: GENCODES records each leaf's path. -/

namespace Sys2Proof.Machine

/-- The entries the walk leaves alone, and what it writes (R131). -/
theorem walk_get (t : Tree) (path : Bits) (tbl : Vector (Option Bits) 257) (v : Sym) :
    (v ∉ t.leaves → (walk t path tbl)[v] = tbl[v]) ∧
    (v ∈ t.leaves → ∃ p w, t.follow p = some (.leaf v w) ∧ (walk t path tbl)[v] = some (path ++ p)) := by
  induction t generalizing path tbl with
  | leaf s w =>
    simp only [Tree.leaves, List.mem_singleton, walk, Fin.getElem_fin, Vector.getElem_set]
    constructor
    · intro h
      have : ¬ s.val = v.val := fun e => h (Fin.ext e.symm)
      simp [this]
    · rintro rfl
      exact ⟨[], w, rfl, by simp⟩
  | node w l r ihl ihr =>
    simp only [Tree.leaves, List.mem_append, not_or, walk]
    obtain ⟨hr0, hr1⟩ := ihr (path ++ [true]) (walk l (path ++ [false]) tbl)
    obtain ⟨hl0, hl1⟩ := ihl (path ++ [false]) tbl
    constructor
    · rintro ⟨h1, h2⟩; rw [hr0 h2, hl0 h1]
    · intro h
      by_cases h2 : v ∈ r.leaves
      · obtain ⟨p, w, hf, e⟩ := hr1 h2
        exact ⟨true :: p, w, by simpa using hf, by simpa using e⟩
      · obtain ⟨p, w, hf, e⟩ := hl1 (by tauto)
        exact ⟨false :: p, w, by simpa using hf, by rw [hr0 h2, e]; simp⟩

theorem codeTable_absent {t : Tree} {v : Sym} (h : v ∉ t.leaves) : (codeTable t)[v] = none := by
  rw [codeTable, (walk_get t [] _ v).1 h]
  exact Vector.getElem_replicate _

/-- A present entry is the path of a leaf of its symbol (R131). -/
theorem codeTable_path {t : Tree} {v : Sym} {p : Bits} (h : (codeTable t)[v] = some p) :
    ∃ w, t.follow p = some (.leaf v w) := by
  by_cases hv : v ∈ t.leaves
  · obtain ⟨q, w, hf, e⟩ := (walk_get t [] (Vector.replicate 257 none) v).2 hv
    rw [codeTable, e] at h
    simp at h
    exact ⟨w, h ▸ hf⟩
  · rw [codeTable_absent hv] at h; simp at h

/-- Every leaf symbol has an entry (R131). -/
theorem codeTable_present {t : Tree} {v : Sym} (h : v ∈ t.leaves) : ∃ p, (codeTable t)[v] = some p := by
  obtain ⟨p, w, _, e⟩ := (walk_get t [] (Vector.replicate 257 none) v).2 h
  exact ⟨[] ++ p, e⟩

/-- In a tree without repeated symbols the table is exactly the leaves' paths (R30 (c)). -/
theorem codeTable_iff {t : Tree} (hn : t.leaves.Nodup) {v : Sym} {p : Bits} :
    (codeTable t)[v] = some p ↔ ∃ w, t.follow p = some (.leaf v w) := by
  refine ⟨codeTable_path, ?_⟩
  rintro ⟨w, h⟩
  obtain ⟨q, hq⟩ := codeTable_present (Tree.mem_leaves_iff.mpr ⟨p, w, h⟩)
  obtain ⟨x, hx⟩ := codeTable_path hq
  rw [hq, Tree.path_unique hn h hx]

theorem codeOf_follow {t : Tree} {v : Sym} (h : v ∈ t.leaves) : ∃ w, t.follow (codeOf t v) = some (.leaf v w) := by
  obtain ⟨p, hp⟩ := codeTable_present h
  rw [codeOf, hp]
  exact codeTable_path hp

end Sys2Proof.Machine
end

