-- ==== Sys2Proof/Laws/Coder.lean ====
section
/-! SUPPORT. Laws/Coder.lean: the loops of ENCBODY and DECBODY, and the steps of a macro. -/

namespace Sys2Proof.Machine

/-! ### ENCBODY -/

theorem putCode_present {v : Sym} {s : State} {p : Bits} (ho : s.oclosed = false) (h : s.code[v] = some p) :
    putCode v s = .done () { s with obits := s.obits ++ p } := by
  rw [putCode, h]; exact emit_open p ho

/-- ENCBODY's loop over the bytes that remain, when each has a code (R161, R164). -/
theorem encLoop_present {bound : Nat} {s : State} {bs : List Byte} (ho : s.oclosed = false) (hs : s.stale = false)
    (hb : s.inBits = unpack bs) (hn : bs.length < bound) (hc : ∀ b ∈ bs, (s.code[byteSym b]).isSome = true) :
    encLoop bound s = .done () (State.afterEos { s with
      ipos := s.ipos + 8 * bs.length,
      obits := s.obits ++ bs.flatMap fun b => (s.code[byteSym b]).getD [] }) := by
  induction bs generalizing bound s with
  | nil =>
    obtain ⟨n, rfl⟩ : ∃ n, bound = n + 1 := ⟨bound - 1, by simp at hn; omega⟩
    rw [encLoop, inRead_end (by decide) (by decide)
      (by have := inLen_of_inBits_nil (s := s) (by simpa using hb); omega)]
    simp
  | cons b bs ih =>
    obtain ⟨n, rfl⟩ : ∃ n, bound = n + 1 := ⟨bound - 1, by omega⟩
    rw [unpack_cons] at hb
    obtain ⟨p, hp⟩ := Option.isSome_iff_exists.mp (hc b (by simp))
    rw [encLoop, inRead_byte hs hb, Act.andThen_done]
    simp only
    rw [putCode_present (s := { s with ipos := s.ipos + 8 }) ho hp, Act.andThen_done,
      ih (s := { s with ipos := s.ipos + 8, obits := s.obits ++ p }) ho hs (inBits_advance' hb (by simp))
        (by simpa using hn) (fun c h => hc c (by simp [h]))]
    rw [List.flatMap_cons, hp, List.length_cons]
    simp only [Nat.mul_add, Nat.mul_one, Nat.add_assoc, Nat.add_comm 8, List.append_assoc, Option.getD_some]

/-- ENCBODY's loop stops at the first byte without a code, with the codes before it written (R163). -/
theorem encLoop_absent {bound : Nat} {s : State} {bs : List Byte} {b : Byte} {rest : List Byte}
    (ho : s.oclosed = false) (hs : s.stale = false) (hb : s.inBits = unpack (bs ++ b :: rest))
    (hn : bs.length < bound) (hc : ∀ b ∈ bs, (s.code[byteSym b]).isSome = true) (ha : s.code[byteSym b] = none) :
    encLoop bound s = .raised .noCode { s with
      ipos := s.ipos + 8 * (bs.length + 1),
      obits := s.obits ++ bs.flatMap fun b => (s.code[byteSym b]).getD [] } := by
  induction bs generalizing bound s with
  | nil =>
    obtain ⟨n, rfl⟩ : ∃ n, bound = n + 1 := ⟨bound - 1, by simp at hn; omega⟩
    rw [List.nil_append, unpack_cons] at hb
    rw [encLoop, inRead_byte hs hb, Act.andThen_done]
    simp only [putCode]
    rw [ha]
    simp
  | cons c bs ih =>
    obtain ⟨n, rfl⟩ : ∃ n, bound = n + 1 := ⟨bound - 1, by omega⟩
    rw [List.cons_append, unpack_cons] at hb
    obtain ⟨p, hp⟩ := Option.isSome_iff_exists.mp (hc c (by simp))
    rw [encLoop, inRead_byte hs hb, Act.andThen_done]
    simp only
    rw [putCode_present (s := { s with ipos := s.ipos + 8 }) ho hp, Act.andThen_done,
      ih (s := { s with ipos := s.ipos + 8, obits := s.obits ++ p }) ho hs (inBits_advance' hb (by simp))
        (by simpa using hn) (fun c h => hc c (by simp [h])) ha]
    rw [List.flatMap_cons, hp, List.length_cons]
    have e : s.ipos + 8 + 8 * (bs.length + 1) = s.ipos + 8 * (bs.length + 1 + 1) := by omega
    simp only [e, List.append_assoc, Option.getD_some]

/-! ### DECBODY -/

/-- The byte that a coded pair stands for, and its code. -/
abbrev Coded := Byte × Bits

/-- DECBODY's loop over the codes of some bytes and a code of `PSEUDO_EOF`, whatever follows them (R182, R187). -/
theorem decLoop_codes {t : Tree} {cs : List Coded} {e rest : Bits} {w bound : Nat} {s : State}
    (ho : s.oclosed = false) (hs : s.stale = false)
    (hc : ∀ c ∈ cs, ∃ w, t.follow c.2 = some (.leaf (byteSym c.1) w)) (he : t.follow e = some (.leaf pseudoEof w))
    (hb : s.inBits = cs.flatMap Prod.snd ++ e ++ rest) (hn : cs.length < bound) :
    decLoop t bound s = .done () { s with
      ipos := s.ipos + (cs.flatMap Prod.snd ++ e).length, obits := s.obits ++ unpack (cs.map Prod.fst) } := by
  induction cs generalizing bound s with
  | nil =>
    obtain ⟨n, rfl⟩ : ∃ n, bound = n + 1 := ⟨bound - 1, by simp at hn; omega⟩
    rw [decLoop, getCode_follow hs he (by simpa using hb), Act.andThen_done]
    simp
  | cons c cs ih =>
    obtain ⟨n, rfl⟩ : ∃ n, bound = n + 1 := ⟨bound - 1, by omega⟩
    obtain ⟨w, hw⟩ := hc c (by simp)
    have hb' : s.inBits = c.2 ++ (cs.flatMap Prod.snd ++ e ++ rest) := by simpa using hb
    rw [decLoop, getCode_follow hs hw hb', Act.andThen_done]
    simp only [byteSym_ne_eof, if_false]
    rw [outWrite_open (by exact ho) (by decide) (by decide), Act.andThen_done,
      ih (s := { s with ipos := s.ipos + c.2.length, obits := s.obits ++ field 8 (byteSym c.1).val }) ho hs
        (fun d h => hc d (by simp [h])) (inBits_advance' hb' rfl) (by simpa using hn)]
    rw [List.map_cons, unpack_cons, List.flatMap_cons]
    simp only [List.length_append, Nat.add_assoc, List.append_assoc]
    rfl

/-- A walk that stops at an internal node meets the end of the stream (R185). -/
theorem getCode_short {t : Tree} {q : Bits} {w : Nat} {l r : Tree} {s : State} (hs : s.stale = false)
    (hf : t.follow q = some (.node w l r)) (hb : s.inBits = q) :
    getCode t s = .raised .truncatedBody (State.afterEos { s with ipos := s.ipos + q.length }) := by
  induction q generalizing t s with
  | nil =>
    simp at hf; subst hf
    rw [getCode, inRead_end (by decide) (by decide) (by have := inLen_of_inBits_nil hb; omega)]
    rfl
  | cons b q ih =>
    cases t with
    | leaf => simp [Tree.follow] at hf
    | node x l r =>
      rw [getCode, inRead_bit hs hb, Act.andThen_done]
      have e : s.ipos + 1 + q.length = s.ipos + (b :: q).length := by simp; omega
      cases b
      · have := ih (t := l) (by exact hs) (by simpa using hf) (inBits_bit hb)
        rw [← e, ← this]; rfl
      · have := ih (t := r) (by exact hs) (by simpa using hf) (inBits_bit hb)
        rw [← e, ← this]; rfl

/-- DECBODY's loop over the codes of some bytes and then a broken one (R185). -/
theorem decLoop_short {t : Tree} {cs : List Coded} {q : Bits} {w bound : Nat} {l r : Tree} {s : State}
    (ho : s.oclosed = false) (hs : s.stale = false)
    (hc : ∀ c ∈ cs, ∃ w, t.follow c.2 = some (.leaf (byteSym c.1) w)) (hq : t.follow q = some (.node w l r))
    (hb : s.inBits = cs.flatMap Prod.snd ++ q) (hn : cs.length < bound) :
    decLoop t bound s = .raised .truncatedBody (State.afterEos { s with
      ipos := s.ipos + (cs.flatMap Prod.snd ++ q).length, obits := s.obits ++ unpack (cs.map Prod.fst) }) := by
  induction cs generalizing bound s with
  | nil =>
    obtain ⟨n, rfl⟩ : ∃ n, bound = n + 1 := ⟨bound - 1, by simp at hn; omega⟩
    rw [decLoop, getCode_short hs hq (by simpa using hb)]
    simp
  | cons c cs ih =>
    obtain ⟨n, rfl⟩ : ∃ n, bound = n + 1 := ⟨bound - 1, by omega⟩
    obtain ⟨w, hw⟩ := hc c (by simp)
    have hb' : s.inBits = c.2 ++ (cs.flatMap Prod.snd ++ q) := by simpa using hb
    rw [decLoop, getCode_follow hs hw hb', Act.andThen_done]
    simp only [byteSym_ne_eof, if_false]
    rw [outWrite_open (by exact ho) (by decide) (by decide), Act.andThen_done,
      ih (s := { s with ipos := s.ipos + c.2.length, obits := s.obits ++ field 8 (byteSym c.1).val }) ho hs
        (fun d h => hc d (by simp [h])) (inBits_advance' hb' rfl) (by simpa using hn)]
    rw [List.map_cons, unpack_cons, List.flatMap_cons]
    simp only [List.length_append, Nat.add_assoc, List.append_assoc]
    rfl

/-! ### The steps of a macro -/

/-- A step that does not leave `FAULT` hands its state to the next one (R166, R184). -/
theorem runSteps_next {c : State → Result} {cs : List (State → Result)} {s t : State} (h : c s = .next t)
    (hf : t.phase ≠ .fault) : runSteps (c :: cs) s = runSteps cs t := by
  rw [runSteps, h]; exact if_neg hf

/-- A step that leaves `FAULT` is followed by CLOSE alone (R166, R184). -/
theorem runSteps_fault {c : State → Result} {cs : List (State → Result)} {s t : State} (h : c s = .next t)
    (hf : t.phase = .fault) : runSteps (c :: cs) s = execClose t := by
  rw [runSteps, h]; exact if_pos hf

@[simp] theorem issueAll_nil (s : State) : issueAll [] s = .next s := rfl

theorem issueAll_cons {i : Instr} {is : List Instr} {s t : State} (h : exec i s = .next t) :
    issueAll (i :: is) s = issueAll is t := by rw [issueAll, h]

end Sys2Proof.Machine
end

