-- ==== Sys2Proof/Laws/Optimal.lean ====
section
/-! SUPPORT. Laws/Optimal.lean: merging the two least entries against any other way to give each entry a depth
(spec/41_tree_builder.md R110, R117 (d)). A list of pairs gives each weight a depth. -/

namespace Sys2Proof.Machine

/-- `Σ 2^(−depth)`. -/
def kraft (a : List (Nat × Nat)) : ℚ := (a.map fun x => (1 / 2 : ℚ) ^ x.2).sum

/-- `Σ weight · depth`. -/
def depthCost (a : List (Nat × Nat)) : Nat := (a.map fun x => x.1 * x.2).sum

@[simp] theorem kraft_cons (x : Nat × Nat) (a : List (Nat × Nat)) : kraft (x :: a) = (1 / 2 : ℚ) ^ x.2 + kraft a := by
  simp [kraft]

@[simp] theorem depthCost_cons (x : Nat × Nat) (a : List (Nat × Nat)) :
    depthCost (x :: a) = x.1 * x.2 + depthCost a := by simp [depthCost]

theorem kraft_perm {a b : List (Nat × Nat)} (h : (a.map Prod.snd).Perm (b.map Prod.snd)) : kraft a = kraft b := by
  have e : ∀ c : List (Nat × Nat), kraft c = ((c.map Prod.snd).map fun d => (1 / 2 : ℚ) ^ d).sum := by
    intro c; simp [kraft, Function.comp_def]
  rw [e, e, (h.map _).sum_eq]

theorem depthCost_perm {a b : List (Nat × Nat)} (h : a.Perm b) : depthCost a = depthCost b := (h.map _).sum_eq

theorem kraft_nonneg (a : List (Nat × Nat)) : 0 ≤ kraft a := by
  induction a with
  | nil => simp [kraft]
  | cons x a ih => rw [kraft_cons]; positivity

/-- The deepest entry of a complete tree with more than one leaf has another at its depth. -/
theorem exists_deepest_pair {a : List (Nat × Nat)} (hk : kraft a = 1) (hl : 2 ≤ a.length) :
    ∃ (x y d : Nat) (b : List (Nat × Nat)), a.Perm ((x, d + 1) :: (y, d + 1) :: b) ∧ ∀ z ∈ b, z.2 ≤ d + 1 := by
  obtain ⟨m, hm, hmax⟩ : ∃ m ∈ a, ∀ z ∈ a, z.2 ≤ m.2 := by
    have hne : a ≠ [] := by rintro rfl; simp at hl
    clear hk hl
    induction a with
    | nil => exact absurd rfl hne
    | cons x a ih =>
      by_cases ha : a = []
      · subst ha; exact ⟨x, by simp, by simp⟩
      · obtain ⟨m, hm, h⟩ := ih ha
        rcases le_total m.2 x.2 with hx | hx
        · exact ⟨x, by simp, by intro z hz; rcases List.mem_cons.mp hz with rfl | hz; exact le_rfl; exact (h z hz).trans hx⟩
        · exact ⟨m, by simp [hm], by intro z hz; rcases List.mem_cons.mp hz with rfl | hz; exact hx; exact h z hz⟩
  obtain ⟨c, hp⟩ : ∃ c, a.Perm (m :: c) := ⟨a.erase m, List.perm_cons_erase hm⟩
  have hc : ∀ z ∈ c, z.2 ≤ m.2 := fun z hz => hmax z (hp.mem_iff.mpr (by simp [hz]))
  have hk' : (1 / 2 : ℚ) ^ m.2 + kraft c = 1 := by rw [← kraft_cons, ← kraft_perm (hp.map _), hk]
  have hne : c ≠ [] := by rintro rfl; have := hp.length_eq; simp at this; omega
  have hpos : 0 < kraft c := by
    obtain ⟨z, c', rfl⟩ := List.exists_cons_of_ne_nil hne
    rw [kraft_cons]; have := kraft_nonneg c'; positivity
  obtain ⟨d, hd⟩ : ∃ d, m.2 = d + 1 := by
    rcases hm0 : m.2 with _ | d
    · rw [hm0] at hk'; simp at hk'; rw [hk'] at hpos; exact absurd hpos (lt_irrefl _)
    · exact ⟨d, rfl⟩
  obtain ⟨y, hy, hyd⟩ : ∃ y ∈ c, y.2 = m.2 := by
    by_contra hno
    simp only [not_exists, not_and] at hno
    have hlt : ∀ z ∈ c, z.2 ≤ d := fun z hz => by have := hc z hz; have := hno z hz; omega
    obtain ⟨n, hn⟩ : ∃ n : ℕ, kraft c * 2 ^ d = n := by
      clear hk' hp hc hne hpos hno
      induction c with
      | nil => exact ⟨0, by simp [kraft]⟩
      | cons z c ih =>
        obtain ⟨n, hn⟩ := ih fun w hw => hlt w (by simp [hw])
        have hz := hlt z (by simp)
        refine ⟨2 ^ (d - z.2) + n, ?_⟩
        rw [kraft_cons, add_mul, hn]
        push_cast
        congr 1
        rw [← Nat.sub_add_cancel hz, Nat.add_sub_cancel, pow_add, mul_left_comm, ← mul_pow]
        norm_num
    have h1 : (2 : ℚ) ^ (d + 1) * ((1 / 2 : ℚ) ^ (d + 1) + kraft c) = 2 ^ (d + 1) := by rw [← hd, hk', mul_one]
    rw [mul_add, ← mul_pow, pow_succ (2 : ℚ) d, mul_assoc, mul_comm 2 (kraft c), ← mul_assoc, mul_comm _ (kraft c), hn] at h1
    norm_num at h1
    have h2 : 1 + n * 2 = 2 ^ d * 2 := by exact_mod_cast h1
    omega
  obtain ⟨b, hb⟩ : ∃ b, c.Perm (y :: b) := ⟨c.erase y, List.perm_cons_erase hy⟩
  refine ⟨m.1, y.1, d, b, ?_, fun z hz => hd ▸ hc z (hb.mem_iff.mpr (by simp [hz]))⟩
  rw [← hd]
  refine hp.trans ?_
  have e : (y.1, m.2) = y := by rw [← hyd]
  rw [e]
  exact hb.cons m

/-- The least weight can take the greatest depth without a greater cost. -/
theorem exchange {x w d : Nat} {b : List (Nat × Nat)} (hd : ∀ z ∈ b, z.2 ≤ d) (hw : w ≤ x) (hx : w = x ∨ w ∈ b.map Prod.fst) :
    ∃ b', (w :: b'.map Prod.fst).Perm (x :: b.map Prod.fst) ∧ (b'.map Prod.snd).Perm (b.map Prod.snd) ∧
      w * d + depthCost b' ≤ x * d + depthCost b := by
  rcases hx with rfl | hx
  · exact ⟨b, .refl _, .refl _, le_rfl⟩
  · obtain ⟨z, hz, rfl⟩ := List.mem_map.mp hx
    obtain ⟨c, hc⟩ : ∃ c, b.Perm (z :: c) := ⟨b.erase z, List.perm_cons_erase hz⟩
    refine ⟨(x, z.2) :: c, ?_, ?_, ?_⟩
    · exact (List.Perm.swap _ _ _).trans ((hc.map Prod.fst).symm.cons x)
    · exact (hc.map Prod.snd).symm
    · rw [depthCost_perm hc, depthCost_cons, depthCost_cons]
      have := hd z hz
      obtain ⟨e, rfl⟩ := Nat.exists_eq_add_of_le this
      obtain ⟨g, rfl⟩ := Nat.exists_eq_add_of_le hw
      ring_nf
      omega

/-- The two least weights can be put together at the greatest depth without a greater cost. -/
theorem exists_least_deepest {u v : Nat} {ws : List Nat} {a : List (Nat × Nat)} (hk : kraft a = 1)
    (hp : (a.map Prod.fst).Perm (u :: v :: ws)) (huv : u ≤ v) (hv : ∀ w ∈ ws, v ≤ w) :
    ∃ d b, (b.map Prod.fst).Perm ws ∧ kraft ((u, d + 1) :: (v, d + 1) :: b) = 1 ∧
      depthCost ((u, d + 1) :: (v, d + 1) :: b) ≤ depthCost a := by
  have hl : 2 ≤ a.length := by have := hp.length_eq; simp at this; omega
  obtain ⟨x, y, d, b, hab, hmax⟩ := exists_deepest_pair hk hl
  have hall : ∀ w ∈ a.map Prod.fst, u ≤ w := by
    intro w hw
    rcases List.mem_cons.mp (hp.mem_iff.mp hw) with rfl | hw
    · exact le_rfl
    · rcases List.mem_cons.mp hw with rfl | hw
      · exact huv
      · exact huv.trans (hv w hw)
  have hfst : (a.map Prod.fst).Perm (x :: y :: b.map Prod.fst) := hab.map Prod.fst
  have hu : u ∈ x :: y :: b.map Prod.fst := hfst.mem_iff.mp (hp.mem_iff.mpr (by simp))
  obtain ⟨b1, f1, s1, c1⟩ := exchange (x := x) (w := u) (d := d + 1) (b := (y, d + 1) :: b)
    (by intro z hz; rcases List.mem_cons.mp hz with rfl | hz; exact le_rfl; exact hmax z hz)
    (hall x (hfst.mem_iff.mpr (by simp))) (List.mem_cons.mp hu)
  have g1 : (b1.map Prod.fst).Perm (v :: ws) := (f1.trans (hfst.symm.trans hp)).cons_inv
  obtain ⟨z, hz, hzd⟩ : ∃ z ∈ b1, z.2 = d + 1 := List.mem_map.mp (s1.mem_iff.mpr (by simp))
  obtain ⟨c, hc⟩ : ∃ c, b1.Perm (z :: c) := ⟨b1.erase z, List.perm_cons_erase hz⟩
  have hcs : (c.map Prod.snd).Perm (b.map Prod.snd) := by
    have h1 : (z.2 :: c.map Prod.snd).Perm ((d + 1) :: b.map Prod.snd) := ((hc.map Prod.snd).symm).trans s1
    rw [hzd] at h1
    exact h1.cons_inv
  have hcf : (z.1 :: c.map Prod.fst).Perm (v :: ws) := (hc.map Prod.fst).symm.trans g1
  have hvz : v ∈ z.1 :: c.map Prod.fst := hcf.mem_iff.mpr (by simp)
  have hzv : v ≤ z.1 := by
    rcases List.mem_cons.mp (hcf.mem_iff.mp List.mem_cons_self) with h | h
    · exact h.ge
    · exact hv _ h
  obtain ⟨e, f2, s2, c2⟩ := exchange (x := z.1) (w := v) (d := d + 1) (b := c)
    (by
      intro q hq
      obtain ⟨p, hp1, hp2⟩ := List.mem_map.mp (hcs.mem_iff.mp (List.mem_map_of_mem (f := Prod.snd) hq))
      rw [← hp2]; exact hmax p hp1)
    hzv (List.mem_cons.mp hvz)
  refine ⟨d, e, (f2.trans hcf).cons_inv, ?_, ?_⟩
  · rw [← hk, kraft_perm (hab.map Prod.snd)]
    exact kraft_perm ((s2.trans hcs).cons _ |>.cons _)
  · rw [depthCost_perm hab]
    have := depthCost_perm hc
    have hz1 : z.1 * z.2 = z.1 * (d + 1) := by rw [hzd]
    simp only [depthCost_cons] at *
    omega

theorem weight_eq_sum {f : Vector Nat 257} {t : Tree} (h : t.weighed f = true) :
    t.weight = (t.leaves.map fun v => f[v]).sum := by
  induction t with
  | leaf v w => simpa [Tree.weighed, Tree.weight, Tree.leaves] using h
  | node w l r ihl ihr =>
    simp only [Tree.weighed, Bool.and_eq_true, beq_iff_eq] at h
    rw [Tree.leaves, List.map_append, List.sum_append, ← ihl h.1.2, ← ihr h.2]
    exact h.1.1

/-- What the merges of a queue cost is at most what any depths for its entries cost that a complete tree can have
(R110). -/
theorem mergeLoop_cost_le {tie : Tie} {f : Vector Nat 257} {bound k : Nat} {q : List Entry} {t : Tree}
    (h : mergeLoop tie bound k q = .ok t) (hs : QueueSorted tie q) (ho : ∀ e ∈ q, EntryOk f e)
    {a : List (Nat × Nat)} (hp : (a.map Prod.fst).Perm (q.map Entry.weight)) (hk : kraft a = 1) :
    t.cost f ≤ (q.map fun e => e.tree.cost f).sum + depthCost a := by
  induction bound generalizing k q a with
  | zero =>
    match q, h with
    | [e], h => simp only [mergeLoop, Except.ok.injEq] at h; subst h; simp
  | succ n ih =>
    match q, h with
    | [e], h => simp only [mergeLoop, Except.ok.injEq] at h; subst h; simp
    | x :: y :: q, h =>
      obtain ⟨hx, hyq⟩ := List.pairwise_cons.mp hs
      obtain ⟨hy, hq⟩ := List.pairwise_cons.mp hyq
      have hins := queueInsert_perm tie (mergeEntry k x y) q
      obtain ⟨d, b, hb, hbk, hbc⟩ := exists_least_deepest hk hp
        (weight_le_of_not_before (tie := tie) (by rw [hx y (by simp)]; decide))
        (by
          intro w hw
          obtain ⟨e, he, rfl⟩ := List.mem_map.mp hw
          exact weight_le_of_not_before (tie := tie) (by rw [hy e he]; decide))
      have hok : EntryOk f (mergeEntry k x y) := mergeEntry_ok (ho x (by simp)) (ho y (by simp))
      have := ih (k := k + 1) (q := queueInsert tie (mergeEntry k x y) q) (a := (x.weight + y.weight, d) :: b) h
        (queueInsert_sorted hq)
        (by
          intro e he
          rcases List.mem_cons.mp (hins.mem_iff.mp he) with rfl | he
          · exact hok
          · exact ho e (by simp [he]))
        ((hb.cons _).trans (hins.map Entry.weight).symm)
        (by rw [← hbk]; simp only [kraft_cons, pow_succ]; ring)
      rw [(hins.map fun e => e.tree.cost f).sum_eq] at this
      have hw : ((x.tree.leaves ++ y.tree.leaves).map fun v => f[v]).sum = x.weight + y.weight := by
        rw [List.map_append, List.sum_append, ← weight_eq_sum (ho x (by simp)).2, ← weight_eq_sum (ho y (by simp)).2,
          (ho x (by simp)).1, (ho y (by simp)).1]
      simp only [List.map_cons, List.sum_cons, depthCost_cons, mergeEntry, Tree.cost, hw] at *
      nlinarith

/-- The counts and depths of a tree's leaves. -/
def leafDepths (f : Vector Nat 257) (t : Tree) : List (Nat × Nat) := t.paths.map fun sp => (f[sp.1], sp.2.length)

theorem paths_leaves (t : Tree) : t.paths.map Prod.fst = t.leaves := by
  induction t with
  | leaf => rfl
  | node w l r ihl ihr => simp [Tree.paths, Tree.leaves, Function.comp_def, ← ihl, ← ihr]

/-- The leaves of a tree have depths a complete tree has, at the tree's cost (R110). -/
theorem leafDepths_spec (f : Vector Nat 257) (t : Tree) :
    kraft (leafDepths f t) = 1 ∧ depthCost (leafDepths f t) = t.cost f ∧
      (leafDepths f t).map Prod.fst = t.leaves.map fun v => f[v] := by
  induction t with
  | leaf v w => simp [leafDepths, Tree.paths, Tree.cost, Tree.leaves, kraft, depthCost]
  | node w l r ihl ihr =>
    have hk : ∀ t : Tree, kraft (t.paths.map fun sp => (f[sp.1], sp.2.length + 1)) = kraft (leafDepths f t) / 2 := by
      intro t
      simp only [leafDepths]
      induction t.paths with
      | nil => simp [kraft]
      | cons x l ih => simp only [List.map_cons, kraft_cons, ih, pow_succ]; ring
    have hc : ∀ t : Tree, depthCost (t.paths.map fun sp => (f[sp.1], sp.2.length + 1)) =
        depthCost (leafDepths f t) + (t.leaves.map fun v => f[v]).sum := by
      intro t
      rw [← paths_leaves]
      simp only [leafDepths]
      induction t.paths with
      | nil => simp [depthCost]
      | cons x l ih => simp only [List.map_cons, depthCost_cons, ih, List.sum_cons]; ring
    have hd : leafDepths f (.node w l r) = (l.paths.map fun sp => (f[sp.1], sp.2.length + 1)) ++
        r.paths.map fun sp => (f[sp.1], sp.2.length + 1) := by
      simp [leafDepths, Tree.paths, Function.comp_def]
    have ka : ∀ a b : List (Nat × Nat), kraft (a ++ b) = kraft a + kraft b := by intro a b; simp [kraft]
    have ca : ∀ a b : List (Nat × Nat), depthCost (a ++ b) = depthCost a + depthCost b := by
      intro a b; simp [depthCost]
    refine ⟨?_, ?_, ?_⟩
    · rw [hd, ka, hk, hk, ihl.1, ihr.1]; norm_num
    · rw [hd, ca, hc, hc, ihl.2.1, ihr.2.1, Tree.cost, List.map_append, List.sum_append]; ring
    · have : ∀ t : Tree, (leafDepths f t).map Prod.fst = (t.paths.map Prod.fst).map fun v => f[v] := by
        intro t; simp [leafDepths, Function.comp_def]
      rw [this, paths_leaves]

end Sys2Proof.Machine
end

