-- ==== Sys2Proof/Laws/PerInstr.lean ====
section
/-! SUPPORT. Laws/PerInstr.lean: the families of statements made for each row of the opcode table. -/

namespace Sys2Proof.Laws

/-- A row is a command exactly if it has a word that decodes to it (R72, R75). -/
def Words.Statement (i : Instr) : Prop := i.isCommand = true ↔ ∃ w, encodeWord i = some w ∧ decode w = .ok i

theorem Words.count : Words.Statement .count := ⟨fun _ => ⟨0x1, rfl, rfl⟩, fun _ => rfl⟩
theorem Words.build : Words.Statement .build := ⟨fun _ => ⟨0x2, rfl, rfl⟩, fun _ => rfl⟩
theorem Words.genCodes : Words.Statement .genCodes := ⟨fun _ => ⟨0x3, rfl, rfl⟩, fun _ => rfl⟩
theorem Words.wrMagic : Words.Statement .wrMagic := ⟨fun _ => ⟨0x4, rfl, rfl⟩, fun _ => rfl⟩
theorem Words.wrTree : Words.Statement .wrTree := ⟨fun _ => ⟨0x5, rfl, rfl⟩, fun _ => rfl⟩
theorem Words.rewind : Words.Statement .rewind := ⟨fun _ => ⟨0x6, rfl, rfl⟩, fun _ => rfl⟩
theorem Words.encBody : Words.Statement .encBody := ⟨fun _ => ⟨0x7, rfl, rfl⟩, fun _ => rfl⟩
theorem Words.close : Words.Statement .close := ⟨fun _ => ⟨0x8, rfl, rfl⟩, fun _ => rfl⟩
theorem Words.rdMagic : Words.Statement .rdMagic := ⟨fun _ => ⟨0x9, rfl, rfl⟩, fun _ => rfl⟩
theorem Words.rdTree : Words.Statement .rdTree := ⟨fun _ => ⟨0xA, rfl, rfl⟩, fun _ => rfl⟩
theorem Words.decBody : Words.Statement .decBody := ⟨fun _ => ⟨0xB, rfl, rfl⟩, fun _ => rfl⟩
theorem Words.compress : Words.Statement .compress := ⟨fun _ => ⟨0xC, rfl, rfl⟩, fun _ => rfl⟩
theorem Words.decompress : Words.Statement .decompress := ⟨fun _ => ⟨0xD, rfl, rfl⟩, fun _ => rfl⟩
theorem Words.hdrMagic (m : Word) : Words.Statement (.hdrMagic m) := by
  simp [Words.Statement, encodeWord, opcode, Instr.isCommand]
theorem Words.treeInternal : Words.Statement .treeInternal := by
  simp [Words.Statement, encodeWord, opcode, Instr.isCommand]
theorem Words.treeLeaf (v : BitVec 9) : Words.Statement (.treeLeaf v) := by
  simp [Words.Statement, encodeWord, opcode, Instr.isCommand]
theorem Words.bodyCode (p : Bits) : Words.Statement (.bodyCode p) := by
  simp [Words.Statement, encodeWord, opcode, Instr.isCommand]
theorem Words.pad (p : Nat) : Words.Statement (.pad p) := by
  simp [Words.Statement, encodeWord, opcode, Instr.isCommand]

end Sys2Proof.Laws
end

