-- ==== Sys2Proof/Laws/Reader.lean ====
section
/-! SUPPORT. Laws/Reader.lean: what the bits were when a read succeeded: the inversion of the port's read, of a tree
record and of a tree, and the trees that are not read to their end (spec/43_tree_serdes.md R143 to R146, R210). -/

namespace Sys2Proof.Machine

/-- A read that answered a value read bits that were there (R42). -/
theorem inRead_val_inv {n : Nat} {s u : State} {v : BitVec n} (hs : s.stale = false)
    (h : inRead n s = .done (.val v) u) :
    ∃ p rest, p.length = n ∧ s.inBits = p ++ rest ∧ v = BitVec.ofNat n (num p) ∧ u = { s with ipos := s.ipos + n } := by
  unfold inRead at h
  split at h
  · simp at h
  · split at h
    · simp at h
    · rw [if_neg (by simp [hs])] at h
      simp only [Act.done.injEq, Answer.val.injEq] at h
      obtain ⟨rfl, rfl⟩ := h
      have := s.inBits_length
      exact ⟨s.inBits.take n, s.inBits.drop n, by rw [List.length_take]; omega,
        (List.take_append_drop _ _).symm, rfl, rfl⟩

/-- What a tree record that was read looked like (R77, R78, R143, R145). -/
theorem getRecord_inv {count : Nat} {s u : State} {r : TreeRecord} (hs : s.stale = false)
    (h : getRecord count s = .done r u) :
    FitsNodeCap s.params (count + 1) ∧
      ((r = .internal ∧ (∃ rest, s.inBits = false :: rest) ∧ u = { s with ipos := s.ipos + 1 }) ∨
      ∃ v rest, r = .leaf v ∧ s.inBits = true :: (field9 v ++ rest) ∧ u = { s with ipos := s.ipos + 10 }) := by
  obtain ⟨a, t, h1, h⟩ := Act.andThen_eq_done.mp h
  match a with
  | .eos => simp at h
  | .val b =>
    obtain ⟨p, rest, hp, hb, rfl, rfl⟩ := inRead_val_inv hs h1
    match p, hp with
    | [x], _ =>
      dsimp only at h
      split at h
      · simp at h
      · rename_i hc
        rw [nodeCap_any, not_not] at hc
        refine ⟨hc, ?_⟩
        cases x with
        | false =>
          left
          rw [if_pos (by decide)] at h
          cases h
          exact ⟨rfl, ⟨rest, hb⟩, rfl⟩
        | true =>
          right
          rw [if_neg (by decide)] at h
          obtain ⟨a, t, h2, h⟩ := Act.andThen_eq_done.mp h
          match a with
          | .eos => simp at h
          | .val f =>
            obtain ⟨q, rest', hq, hb', rfl, rfl⟩ := inRead_val_inv (s := { s with ipos := s.ipos + 1 }) hs h2
            dsimp only at h
            split at h
            · simp at h
            · rename_i sym hsym
              cases h
              refine ⟨sym, rest', rfl, ?_, rfl⟩
              have hlt := num_lt q
              rw [hq] at hlt
              unfold fieldSym at hsym
              split at hsym
              · simp only [Option.some.injEq] at hsym
                subst hsym
                rw [inBits_bit (b := true) (rest := rest) hb] at hb'
                rw [hb, hb', List.singleton_append, field9]
                simp only [BitVec.toNat_ofNat, Nat.mod_eq_of_lt hlt]
                rw [← hq, field_num]
              · simp at hsym

/-- What a tree that was read looked like: its serialization, no more and no less (R146). -/
theorem getTree_inv {bound count c : Nat} {s u : State} {t : Tree} (hs : s.stale = false)
    (h : getTree bound count s = .done (t, c) u) :
    t.shape = t ∧ c = count + t.size ∧ FitsNodeCap s.params c ∧ (∃ rest, s.inBits = t.ser ++ rest) ∧
      u = { s with ipos := s.ipos + t.ser.length } := by
  induction bound generalizing count c s u t with
  | zero => simp [getTree] at h
  | succ n ih =>
    obtain ⟨r, x, h1, h⟩ := Act.andThen_eq_done.mp h
    obtain ⟨hc, ⟨rfl, ⟨rest, hb⟩, rfl⟩ | ⟨v, rest, rfl, hb, rfl⟩⟩ := getRecord_inv hs h1
    · obtain ⟨⟨l, cl⟩, y, h2, h⟩ := Act.andThen_eq_done.mp h
      obtain ⟨⟨r, cr⟩, z, h3, h⟩ := Act.andThen_eq_done.mp h
      cases h
      obtain ⟨sl, rfl, _, ⟨restl, hl⟩, rfl⟩ := ih (by exact hs) h2
      obtain ⟨sr, rfl, hcr, ⟨restr, hr⟩, rfl⟩ := ih (by exact hs) h3
      have hb1 : rest = l.ser ++ restl := by rw [← hl, inBits_bit hb]
      subst hb1
      have hb2 : restl = r.ser ++ restr := by
        rw [← hr]
        exact (inBits_advance' (s := { s with ipos := s.ipos + 1 }) (inBits_bit hb) rfl).symm
      subst hb2
      refine ⟨by rw [Tree.shape, sl, sr], by simp only [Tree.size]; omega, hcr, ⟨restr, by simp [hb, Tree.ser]⟩, ?_⟩
      have : (Tree.node 0 l r).ser.length = 1 + l.ser.length + r.ser.length := by simp [Tree.ser]; omega
      simp only [this, Nat.add_assoc]
    · cases h
      exact ⟨rfl, rfl, hc, ⟨rest, by simp [hb, Tree.ser]⟩, by simp [Tree.ser]⟩

/-! ### A tree part way through its reading -/

@[simp] theorem TreeRecord.bits_internal : TreeRecord.internal.bits = [false] := rfl
@[simp] theorem TreeRecord.bits_leaf (v : Sym) : (TreeRecord.leaf v).bits = true :: field9 v := rfl
@[simp] theorem recordsBits_nil : recordsBits [] = [] := rfl
@[simp] theorem recordsBits_cons (r : TreeRecord) (rs : List TreeRecord) :
    recordsBits (r :: rs) = r.bits ++ recordsBits rs := rfl

/-- A record has at least one bit (R148). -/
theorem length_le_recordsBits (rs : List TreeRecord) : rs.length ≤ (recordsBits rs).length := by
  induction rs with
  | nil => simp
  | cons r rs ih => cases r <;> simp <;> omega

@[simp] theorem pendingTrees_zero (rs : List TreeRecord) : pendingTrees 0 rs = 0 := by cases rs <;> rfl
@[simp] theorem pendingTrees_nil (n : Nat) : pendingTrees n [] = n := by cases n <;> rfl
@[simp] theorem pendingTrees_internal (n : Nat) (rs : List TreeRecord) :
    pendingTrees (n + 1) (.internal :: rs) = pendingTrees (n + 2) rs := rfl
@[simp] theorem pendingTrees_leaf (n : Nat) (v : Sym) (rs : List TreeRecord) :
    pendingTrees (n + 1) (.leaf v :: rs) = pendingTrees n rs := rfl

/-- With one more subtree to read, at least as many are left. -/
theorem pendingTrees_mono (n : Nat) (rs : List TreeRecord) (h : pendingTrees n rs ≠ 0) : pendingTrees (n + 1) rs ≠ 0 := by
  induction rs generalizing n with
  | nil => simp
  | cons r rs ih =>
    obtain ⟨n, rfl⟩ : ∃ m, n = m + 1 := ⟨n - 1, by cases n <;> simp_all⟩
    cases r with
    | internal => exact ih _ h
    | leaf v => exact ih _ h

/-- Records that do not end inside their first tree begin with the records of a tree, and go on with those of the
next. -/
theorem unfinished_or_tree (rs : List TreeRecord) :
    Unfinished rs ∨ ∃ (t : Tree) (rest : List TreeRecord), recordsBits rs = t.ser ++ recordsBits rest ∧
      rs.length = t.size + rest.length ∧ ∀ k, pendingTrees (k + 1) rs = pendingTrees k rest := by
  match rs with
  | [] => exact .inl (by simp [Unfinished])
  | .leaf v :: rs => exact .inr ⟨.leaf v 0, rs, by simp [Tree.ser], by simp [Tree.size]; omega, fun _ => rfl⟩
  | .internal :: rs =>
    obtain h | ⟨l, rs1, hl, ll, kl⟩ := unfinished_or_tree rs
    · exact .inl (pendingTrees_mono 1 rs h)
    · obtain h | ⟨r, rs2, hr, lr, kr⟩ := unfinished_or_tree rs1
      · exact .inl (by rw [Unfinished, pendingTrees_internal, kl]; exact h)
      · exact .inr ⟨.node 0 l r, rs2, by simp [Tree.ser, hl, hr], by simp [Tree.size]; omega, fun k => by
          rw [pendingTrees_internal, kl, kr]⟩
termination_by rs.length
decreasing_by all_goals (simp only [List.length_cons]; omega)

/-- A fault met at the record after an incomplete tree's is the fault of the whole reading (R210). -/
theorem getTree_raises {bound count : Nat} {s u : State} {e : Err} {rs : List TreeRecord} {tail : Bits}
    (hs : s.stale = false) (hr : Unfinished rs) (hb : s.inBits = recordsBits rs ++ tail)
    (hc : FitsNodeCap s.params (count + rs.length)) (hd : rs.length < bound)
    (hx : getRecord (count + rs.length) { s with ipos := s.ipos + (recordsBits rs).length } = .raised e u) :
    getTree bound count s = .raised e u := by
  induction bound generalizing count s rs with
  | zero => omega
  | succ b ih =>
    match rs with
    | [] => rw [getTree, show getRecord count s = _ from hx, Act.andThen_raised]
    | .leaf v :: rs => simp [Unfinished] at hr
    | .internal :: rs =>
      simp only [recordsBits_cons, TreeRecord.bits_internal, List.cons_append, List.nil_append, List.length_cons]
        at hb hd hc hx
      have fits : ∀ n, n ≤ count + (rs.length + 1) → FitsNodeCap s.params n :=
        fun n hn c hcap => Nat.le_trans hn (hc c hcap)
      have h1 := inBits_bit hb
      rw [getTree, getRecord_internal hs hb (fits _ (by omega)), Act.andThen_done]
      simp only
      obtain h | ⟨l, rs1, hl, ll, kl⟩ := unfinished_or_tree rs
      · rw [ih (rs := rs) (by exact hs) h h1 (fits _ (by omega)) (by omega), Act.andThen_raised]
        rw [show count + 1 + rs.length = count + (rs.length + 1) by omega]
        simpa only [Nat.add_assoc, Nat.add_comm 1] using hx
      · have hr1 : Unfinished rs1 := by rw [Unfinished, ← kl]; exact hr
        rw [hl, List.append_assoc] at h1
        have h2 := inBits_advance' h1 rfl
        rw [getTree_ser l (by omega) (by exact hs) h1 (fits _ (by omega)), Act.andThen_done,
          ih (rs := rs1) (by exact hs) hr1 h2 (fits _ (by simp; omega)) (by omega), Act.andThen_raised]
        simp only [hl, List.length_append] at hx
        rw [show count + 1 + l.size + rs1.length = count + (rs.length + 1) by omega]
        simpa only [Nat.add_assoc, Nat.add_comm 1, Nat.add_left_comm] using hx

end Sys2Proof.Machine
end

