-- ==== Sys2Proof/Tests/Slice0.lean ====
section
/-! SUPPORT. Tests/Slice0.lean: small tests against the vectors of spec/95_test_vectors.md (named `V-..`, `P..`), and for
each obligation with hypotheses a witness that meets them. -/

namespace Sys2Proof.Tests

set_option Elab.async false

open Sys2Proof Sys2Proof.Machine

/-- The result is a next state with a property. -/
def ans (r : Result) (p : State → Bool) : Bool :=
  match r with
  | .next s => p s
  | .fault _ => false
  | .refused _ => false

theorem ans_next {r : Result} {p : State → Bool} (h : ans r p = true) : ∃ u, r = .next u ∧ p u = true := by
  cases r <;> simp_all [ans]

/-- A core in a phase, with an input. -/
def inPhase (p : Phase) (input : List Byte) : State := { State.reset with phase := p, ibytes := input }

/-- A core whose host writes a word to `CMD` next. -/
def offered (w : Word) (s : State) : State := { s with inbox := [.write .cmd w] }

/-- `"aab"`, its tree (V-TB2) and its artifact (P2). -/
def aab : List Byte := [0x61, 0x61, 0x62]
def aabTree : Tree := .node 4 (.leaf 97 2) (.node 2 (.leaf 98 1) (.leaf 256 1))
def aabArtifact : List Byte := [0xFA, 0xCE, 0x82, 0x01, 0x4C, 0x29, 0x8B, 0x00, 0x2C]

/-! ### Well-formedness: an ill-formed record for each bound, which the check refuses -/

theorem smoke_leaf_257 : (Instr.treeLeaf 257).wellFormed = false := by decide
theorem smoke_leaf_256 : (Instr.treeLeaf 256).wellFormed = true := by decide
theorem smoke_code_257 : (Instr.bodyCode (List.replicate 257 true)).wellFormed = false := by decide +kernel
theorem smoke_code_256 : (Instr.bodyCode (List.replicate 256 true)).wellFormed = true := by decide +kernel
theorem smoke_pad_8 : (Instr.pad 8).wellFormed = false := by decide
theorem smoke_pad_7 : (Instr.pad 7).wellFormed = true := by decide

/-! ### Decoding, from words and bits written out (R72, R76 to R81, Part 3) -/

theorem test_decode_count : decode 0b00000000000000000000000000000001 = .ok .count := by decide
theorem test_decode_build : decode 0b00000000000000000000000000000010 = .ok .build := by decide
theorem test_decode_genCodes : decode 0b00000000000000000000000000000011 = .ok .genCodes := by decide
theorem test_decode_wrMagic : decode 0b00000000000000000000000000000100 = .ok .wrMagic := by decide
theorem test_decode_wrTree : decode 0b00000000000000000000000000000101 = .ok .wrTree := by decide
theorem test_decode_rewind : decode 0b00000000000000000000000000000110 = .ok .rewind := by decide
theorem test_decode_encBody : decode 0b00000000000000000000000000000111 = .ok .encBody := by decide
theorem test_decode_close : decode 0b00000000000000000000000000001000 = .ok .close := by decide
theorem test_decode_rdMagic : decode 0b00000000000000000000000000001001 = .ok .rdMagic := by decide
theorem test_decode_rdTree : decode 0b00000000000000000000000000001010 = .ok .rdTree := by decide
theorem test_decode_decBody : decode 0b00000000000000000000000000001011 = .ok .decBody := by decide
theorem test_decode_compress : decode 0b00000000000000000000000000001100 = .ok .compress := by decide
theorem test_decode_decompress : decode 0b00000000000000000000000000001101 = .ok .decompress := by decide

/-- V-CMD1: opcode 1 with a reserved bit set is not COUNT. -/
theorem test_decode_reserved : decode 0x00000011 = .error .reservedBits ∧ decode 0 = .error .reservedOpcode := by decide

/-- V-ENC1: `1111 1010 1100 1110 1000 0010 0000 0001`. -/
theorem test_decode_hdrMagic :
    decodeBits .magic [true, true, true, true, true, false, true, false, true, true, false, false, true, true, true,
      false, true, false, false, false, false, false, true, false, false, false, false, false, false, false, false,
      true] = .ok (.hdrMagic 0xFACE8201, []) := by decide

/-- V-SER2: `0 1100000000 ..`. -/
theorem test_decode_treeInternal :
    decodeBits .tree [false, true, true] = .ok (.treeInternal, [true, true]) := by decide

/-- V-SER2: `1001100001` is the leaf 97. -/
theorem test_decode_treeLeaf :
    decodeBits .tree [true, false, false, true, true, false, false, false, false, true] = .ok (.treeLeaf 97, []) := by
  decide

/-- V-SER7: `1 100000001` has a field of 257. -/
theorem test_decode_treeLeaf_257 :
    decodeBits .tree [true, true, false, false, false, false, false, false, false, true] = .error .notSymbol := by decide

/-- V-ENC2: `0 0 10 11` under the tree of V-TB2: the code `10` of the symbol 98. -/
theorem test_decode_bodyCode :
    decodeBits (.body aabTree) [true, false, true, true] = .ok (.bodyCode [true, false], [true, true]) := by decide

/-- V-ENC7: a pad of `000000`. -/
theorem test_decode_pad :
    decodeBits .pad [false, false, false, false, false, false] = .ok (.pad 6, []) := by decide

theorem test_decodeTableWord : decodeTableWord 32 0x0000000A = some .rdTree := by decide

/-! ### One step of each instruction -/

/-- V-FA2, V-CMD4. -/
theorem test_count :
    ans (step ((inPhase .idle aab).withFetchWord 32 0x1)) (fun s => s.status = 0x001 ∧
      s.freq.map (fun f => (f[97], f[98], f[99], f[256])) = some (2, 1, 0, 1)) = true := by decide +kernel

/-- V-FA5. -/
theorem test_count_overflow :
    ans (exec .count { inPhase .idle [0x61, 0x61, 0x61, 0x61] with params := { Params.default with countBits := some 2 } })
      (fun s => s.status = 0x0000006C ∧ s.freq = none) = true := by decide +kernel

/-- V-TB2: the queue and the merges, ties among them. -/
theorem test_merges :
    mergeLoop .orderKey 3 0 (queueInsert .orderKey ⟨1, 256, .leaf 256 1⟩ (queueInsert .orderKey ⟨1, 98, .leaf 98 1⟩
      [⟨2, 97, .leaf 97 2⟩])) = .ok aabTree := by decide

/-- V-CG2. -/
theorem test_genCodes :
    ans (exec .genCodes { inPhase .built aab with tree := some aabTree })
      (fun s => s.status = 0x003 ∧ s.code[97] = some [false] ∧ s.code[98] = some [true, false] ∧
        s.code[256] = some [true, true] ∧ s.code[99] = none) = true := by decide +kernel

/-- V-ENC1. -/
theorem test_wrMagic :
    ans (exec .wrMagic (inPhase .coded [])) (fun s => s.status = 0x004 ∧ s.obytes = [0xFA, 0xCE, 0x82, 0x01]) = true := by
  decide +kernel

/-- V-SER3. -/
theorem test_wrTree :
    ans (exec .wrTree { inPhase .magicW [] with tree := some aabTree })
      (fun s => s.status = 0x005 ∧ s.obytes = [0x4C, 0x29, 0x8B, 0x00]) = true := by decide +kernel

/-- V-FA6. -/
theorem test_rewind :
    ans (exec .rewind { inPhase .treeW aab with ipos := 24, stale := true }) (fun s => s.status == 0x006 &&
      (match inRead 8 s with
        | .done (.val v) t => v == 0x61 && t.ipos == 8
        | _ => false)) = true := by decide +kernel

/-- V-ENC2. -/
theorem test_encBody :
    ans (exec .encBody { inPhase .rewound aab with code := codeTable aabTree })
      (fun s => s.status = 0x007 ∧ s.obits = [false, false, true, false, true, true]) = true := by decide +kernel

/-- V-ENC8. -/
theorem test_encBody_noCode :
    ans (exec .encBody { inPhase .rewound [0x61, 0x63] with code := codeTable aabTree })
      (fun s => s.status = 0x0000005C ∧ s.obits = [false]) = true := by decide +kernel

/-- V-PORT4, V-CMD4. -/
theorem test_close :
    ans (exec .close { inPhase .bodyW [] with
      obits := [true, false, true, true, false, false, false, false, false, false, false, false] })
      (fun s => s.status = 0x10B ∧ s.obytes = [0xB0, 0x00]) = true := by decide +kernel

/-- V-CMD3. -/
theorem test_close_fault :
    ans (step (offered 0x8 { inPhase .fault [] with err := .badSequence }))
      (fun s => s.status = 0x0000018C ∧ s.obytes = []) = true := by decide +kernel

/-- P3. -/
theorem test_rdMagic :
    ans (exec .rdMagic (inPhase .idle aabArtifact)) (fun s => s.status = 0x008 ∧ s.ipos = 32) = true := by decide +kernel

/-- V-DEC2. -/
theorem test_rdMagic_wrong :
    ans (exec .rdMagic (inPhase .idle [0xFA, 0xCE, 0x82, 0x00, 0x4C])) (fun s => s.status = 0x01C) = true := by
  decide +kernel

/-- P3. -/
theorem test_rdTree :
    ans (exec .rdTree { inPhase .magicR aabArtifact with ipos := 32 })
      (fun s => s.status = 0x009 ∧ s.ipos = 64 ∧ s.tree = some aabTree.shape) = true := by decide +kernel

/-- V-SER6. -/
theorem test_rdTree_short :
    ans (exec .rdTree { inPhase .magicR [0xFA, 0xCE, 0x82, 0x01, 0x4C, 0x38] with ipos := 32 })
      (fun s => s.status = 0x02C ∧ s.obytes = []) = true := by decide +kernel

/-- P3. -/
theorem test_decBody :
    ans (exec .decBody { inPhase .treeR aabArtifact with ipos := 64, tree := some aabTree.shape })
      (fun s => s.status = 0x00A ∧ s.ipos = 70 ∧ s.obytes = aab) = true := by decide +kernel

/-- V-DEC7: no leaf for `PSEUDO_EOF`. -/
theorem test_decBody_truncated :
    ans (exec .decBody { inPhase .treeR [0x40] with tree := some (.node 0 (.leaf 97 0) (.leaf 98 0)) })
      (fun s => s.err = .truncatedBody ∧ s.obytes = [0x61, 0x62, 0x61, 0x61, 0x61, 0x61, 0x61, 0x61]) = true := by
  decide +kernel

/-- V-DEC8: trailing data is ignored. -/
theorem test_decompress :
    ans (step ((inPhase .idle (aabArtifact ++ [0xFF, 0xFF])).withFetchWord 32 0xD))
      (fun s => s.status = 0x10B ∧ s.obytes = aab) = true := by decide +kernel

/-- V-SER7: a leaf field of 257. -/
theorem test_decompress_illegal :
    ans (exec .decompress (inPhase .idle [0xFA, 0xCE, 0x82, 0x01, 0x60, 0x20]))
      (fun s => s.status = 0x14C ∧ s.obytes = []) = true := by decide +kernel

/-- V-PORT5. -/
theorem test_hdrMagic :
    ans (exec (.hdrMagic 0xFACE8201) State.reset) (fun s => s.obytes = [0xFA, 0xCE, 0x82, 0x01]) = true := by
  decide +kernel

theorem test_treeInternal : ans (exec .treeInternal State.reset) (fun s => s.obits = [false]) = true := by decide +kernel

/-- V-SER1. -/
theorem test_treeLeaf :
    ans (exec (.treeLeaf 256) State.reset) (fun s => s.obits =
      [true, true, false, false, false, false, false, false, false, false]) = true := by decide +kernel

/-- V-ENC6: the 41-bit code of symbol 0 in V-CG9: 40 ones and a zero. -/
theorem test_bodyCode :
    ans (exec (.bodyCode (List.replicate 40 true ++ [false])) State.reset)
      (fun s => s.obits = List.replicate 40 true ++ [false]) = true := by decide +kernel

theorem test_pad : ans (exec (.pad 3) State.reset) (fun s => s.obits = [false, false, false]) = true := by decide +kernel

/-! ### The host's moves -/

/-- V-CMD1. -/
theorem test_illegal_word : ans (step (offered 0xFFFFFFFF State.reset)) (fun s => s.status = 0x0000007C) = true := by
  decide +kernel

/-- V-CMD2. -/
theorem test_wrong_phase : ans (step (offered 0x2 State.reset)) (fun s => s.status = 0x0000008C) = true := by
  decide +kernel

/-- R22. -/
theorem test_read_status :
    ans (step { inPhase .done [] with oclosed := true, inbox := [.read .status] }) (fun s => s.rdata = some 0x0000010B) =
      true := by decide +kernel

/-- R230: what a call had delivered stays with the host. -/
theorem test_reset :
    ans (step { inPhase .treeW [] with obits := field 12 0xABC, inbox := [.reset aab] })
      (fun s => s.status = 0 ∧ s.ibytes = aab ∧ s.taken = [[0xAB]]) = true := by decide +kernel

/-! ### Witnesses: for each obligation with hypotheses, a state and operands that meet them, for each of its clauses -/

theorem witness_DecodeOfEncodeIsTheInstruction :
    ((Instr.treeLeaf 256).wellFormed = true ∧ Admits .tree [true] (.treeLeaf 256)) ∧
    ((Instr.bodyCode [true, true]).wellFormed = true ∧ Admits (.body aabTree) [] (.bodyCode [true, true])) ∧
    ((Instr.bodyCode []).wellFormed = true ∧ Admits (.body (.leaf 256 1)) [true] (.bodyCode [])) ∧
    ((Instr.pad 7).wellFormed = true ∧ Admits .pad [] (.pad 7)) ∧
    ((Instr.hdrMagic 0xFFFFFFFF).wellFormed = true ∧ Admits .magic [] (.hdrMagic 0xFFFFFFFF)) ∧
    ((Instr.treeInternal).wellFormed = true ∧ Admits .tree [] .treeInternal) ∧
    (Instr.decompress.wellFormed = true ∧ Admits .cmd [] .decompress) :=
  ⟨⟨by decide, rfl⟩, ⟨by decide, aabTree, 256, 1, rfl, by decide⟩, ⟨by decide, .leaf 256 1, 256, 1, rfl, by decide⟩,
    ⟨by decide, rfl, rfl⟩, ⟨rfl, rfl⟩, ⟨rfl, rfl⟩, ⟨rfl, rfl⟩⟩

theorem witness_EncodeOfDecodedIsTheBits :
    decodeBits .tree [false, true] = .ok (.treeInternal, [true]) ∧
      decodeBits (.body aabTree) [true, true] = .ok (.bodyCode [true, true], []) ∧
      decodeBits .pad [] = .ok (.pad 0, []) := by decide

theorem witness_StepRunsTheWrittenCommand :
    ((offered 0xD State.reset).inbox = .write .cmd 0xD :: [] ∧ decode 0xD = .ok .decompress) ∧
      State.reset.inbox = [] := by decide

theorem witness_IllegalWordRaisesBadCommand :
    let s := offered 0x80000001 (inPhase .done aab)
    s.inbox = .write .cmd 0x80000001 :: [] ∧ s.phase ≠ .fault ∧ s.err = .none ∧
      (0x80000001 : Word).extractLsb' 4 28 ≠ 0 := by decide

theorem witness_WrongPhaseRaisesBadSequence :
    (let s := inPhase .idle aab;
      s.phase ≠ .fault ∧ s.err = .none ∧ s.phase ≠ .counted ∧ s.phase ≠ .built ∧ s.phase ≠ .coded ∧
        s.phase ≠ .magicW ∧ s.phase ≠ .treeW ∧ s.phase ≠ .rewound ∧ s.phase ≠ .bodyW ∧ s.phase ≠ .bodyR ∧
        s.phase ≠ .magicR ∧ s.phase ≠ .treeR) ∧
    let s := inPhase .counted aab
    s.phase ≠ .fault ∧ s.err = .none ∧ s.phase ≠ .idle := by decide

theorem witness_FaultAcceptsOnlyClose :
    (let s := offered 0x8 (inPhase .fault aab);
      s.inbox = .write .cmd 0x8 :: [] ∧ s.phase = .fault ∧ (0x8 : Word) = 0x00000008 ∧ s.oclosed = false) ∧
    (let s := offered 0x8 { inPhase .fault aab with oclosed := true };
      s.inbox = .write .cmd 0x8 :: [] ∧ s.phase = .fault ∧ ¬ ((0x8 : Word) = 0x00000008 ∧ s.oclosed = false)) ∧
    let s := offered 0x1 (inPhase .fault aab)
    s.inbox = .write .cmd 0x1 :: [] ∧ s.phase = .fault ∧ ¬ ((0x1 : Word) = 0x00000008 ∧ s.oclosed = false) := by decide

theorem witness_OnlyResetLeavesFault :
    (let s := offered 0x1 { inPhase .fault aab with err := .noCode };
      s.inbox = .write .cmd 0x1 :: [] ∧ s.phase = .fault ∧ step s = .next { s with inbox := [] }) ∧
    (let s := { inPhase .fault aab with err := .noCode };
      exec .count s = .next s ∧ s.err ≠ .none) ∧
    let s := inPhase .idle aab
    exec .build s = .next (s.raise .badSequence) ∧ (s.raise .badSequence).err ≠ s.err :=
  ⟨⟨rfl, rfl, rfl⟩, ⟨rfl, by decide⟩, rfl, by decide⟩

theorem witness_StatusRegister :
    { State.reset with inbox := [.read .status] }.inbox = .read .status :: [] ∧
      { State.reset with inbox := [.read .cmd] }.inbox = .read .cmd :: [] ∧
      { State.reset with inbox := [.write .status 7] }.inbox = .write .status 7 :: [] ∧
      Succeeded { inPhase .done [] with oclosed := true } := ⟨rfl, rfl, rfl, rfl, rfl, rfl⟩

theorem witness_ResetFromAnyState :
    { inPhase .bodyW aab with inbox := [.reset [0x61]] }.inbox = .reset [0x61] :: [] := rfl

theorem witness_ResetInTheMiddleOfACommandWins :
    { inPhase .coded aab with inbox := [.resetDuring 0x4 9 []] }.inbox = .resetDuring 0x4 9 [] :: [] := rfl

theorem witness_ReadAnswersTheNextBits :
    (let s := inPhase .idle aabArtifact;
      1 ≤ 32 ∧ 32 ≤ 32 ∧ s.stale = false ∧ s.ipos + 32 ≤ 8 * s.ibytes.length) ∧
    (let s := { inPhase .idle aab with ipos := 23 };
      1 ≤ 1 ∧ 1 ≤ 32 ∧ s.stale = false ∧ s.ipos + 1 ≤ 8 * s.ibytes.length) ∧
    let s := { inPhase .idle aab with ipos := 24 }
    1 ≤ 1 ∧ 1 ≤ 32 ∧ 8 * s.ibytes.length < s.ipos + 1 ∧ s.ipos ≤ 8 * s.ibytes.length := by decide

theorem witness_RewoundPortReadsFromTheStart :
    (1 ≤ 24 ∧ 24 ≤ 32 ∧ 24 ≤ 8 * (inPhase .treeW aab).ibytes.length) ∧ (inPhase .treeW []).ibytes = [] := by decide

theorem witness_PortAccessesConcatenate :
    (let s := inPhase .idle aabArtifact;
      1 ≤ 1 ∧ 1 ≤ 31 ∧ 1 + 31 ≤ 32 ∧ s.stale = false ∧ s.ipos + (1 + 31) ≤ 8 * s.ibytes.length) ∧
    1 ≤ 1 ∧ 1 ≤ 31 ∧ 1 + 31 ≤ 32 ∧ 0x7FFFFFFE < 2 ^ 31 ∧ State.reset.oclosed = false := by decide

theorem witness_WriteAppendsTheLowBits : 1 ≤ 32 ∧ 32 ≤ 32 ∧ State.reset.oclosed = false := by decide

theorem witness_CloseCompletesTheLastByte :
    { State.reset with obits := [true] }.oclosed = false ∧ [true].length % 8 ≠ 0 ∧
      State.reset.oclosed = false ∧ State.reset.obits.length % 8 = 0 := by decide

theorem witness_OutputBytesAreTheBits : 1 < { State.reset with obits := field 16 0xABCD }.obits.length / 8 := by decide

theorem witness_DeliveredBytesReadBackAsTheBits :
    let s := { State.reset with obits := field 16 0xABCD }
    let t := inPhase .idle [0xAB, 0xCD]
    s.obits.length % 8 = 0 ∧ t.ibytes = s.obytes ∧ t.ipos = 0 := by decide

theorem witness_RecordsAppendTheirBits :
    State.reset.oclosed = false ∧ { State.reset with oclosed := true }.oclosed = true ∧ [true] ≠ ([] : Bits) := by decide

/-- Every count of a short input fits a counter of 32 bits. -/
theorem aab_fits : CountsFit Params.default aab := by
  intro k hk b
  cases hk
  exact Nat.lt_of_le_of_lt List.count_le_length (by decide)

theorem witness_CountTabulatesTheInput :
    let s := inPhase .idle aab
    s.phase = .idle ∧ s.ipos = 0 ∧ s.stale = false ∧ CountsFit s.params s.ibytes := ⟨rfl, rfl, rfl, aab_fits⟩

/-- The inputs `"aab"` and the empty one. -/
theorem witness_CountsSumToTheLength :
    (let s := inPhase .idle aab;
      s.phase = .idle ∧ s.ipos = 0 ∧ s.stale = false ∧ ∃ u, exec .count s = .next u ∧ u.phase ≠ .fault) ∧
    let s := inPhase .idle []
    s.phase = .idle ∧ s.ipos = 0 ∧ s.stale = false ∧ ∃ u, exec .count s = .next u ∧ u.phase ≠ .fault := by
  obtain ⟨u, h, k⟩ := ans_next (r := exec .count (inPhase .idle aab)) (p := fun u => u.phase ≠ .fault) (by decide +kernel)
  obtain ⟨u', h', k'⟩ := ans_next (r := exec .count (inPhase .idle [])) (p := fun u => u.phase ≠ .fault) (by decide +kernel)
  exact ⟨⟨rfl, rfl, rfl, u, h, by simpa using k⟩, rfl, rfl, rfl, u', h', by simpa using k'⟩

/-- V-FA5. -/
theorem witness_CountOverflowFaults :
    let s := { inPhase .idle [0x61, 0x61, 0x61, 0x61] with params := { Params.default with countBits := some 2 } }
    s.phase = .idle ∧ s.ipos = 0 ∧ s.stale = false ∧ s.err = .none ∧ s.params.countBits = some 2 ∧
      s.ibytes = [0x61, 0x61, 0x61] ++ 0x61 :: [] ∧ CountsFit s.params [0x61, 0x61, 0x61] ∧
      [(0x61 : Byte), 0x61, 0x61].count 0x61 = 2 ^ 2 - 1 := by
  refine ⟨rfl, rfl, rfl, rfl, rfl, rfl, ?_, by decide⟩
  intro k hk b
  cases hk
  exact Nat.lt_of_le_of_lt List.count_le_length (by decide)

theorem witness_RewindReturnsToTheStart : (inPhase .treeW aab).phase = .treeW := rfl

theorem witness_BuildMakesTheTree :
    let s := { inPhase .counted aab with freq := some (freqOf aab) }
    s.phase = .counted ∧ s.freq = some (freqOf aab) ∧ (freqOf aab)[pseudoEof] ≠ 0 :=
  ⟨rfl, rfl, by rw [freqOf_eof]; decide⟩

theorem witness_MergesTakeTheTwoLeast :
    [Entry.mk 1 98 (.leaf 98 1), ⟨1, 256, .leaf 256 1⟩, ⟨2, 97, .leaf 97 2⟩].Pairwise
      fun x y => entryBefore .orderKey y x = false := by decide

theorem witness_QueueOrderIsStrictAndTotal :
    let x : Entry := ⟨1, 98, .leaf 98 1⟩
    let y : Entry := ⟨1, 256, .leaf 256 1⟩
    let z : Entry := ⟨2, 97, .leaf 97 2⟩
    entryBefore .orderKey x y = true ∧ entryBefore .orderKey y z = true ∧ x.order ≠ y.order ∧ y.weight < z.weight := by
  decide

theorem witness_SingleByteInput :
    (let s := { inPhase .counted [] with freq := some (freqOf (List.replicate 2 0xFF)) };
      s.phase = .counted ∧ s.params.tie = .orderKey ∧ s.freq = some (freqOf (List.replicate 2 0xFF)) ∧ 2 ≤ 2) ∧
    let s := { inPhase .counted [] with freq := some (freqOf (List.replicate 1 0x00)) }
    s.phase = .counted ∧ s.params.tie = .orderKey ∧ s.freq = some (freqOf (List.replicate 1 0x00)) ∧ 1 = 1 :=
  ⟨⟨rfl, rfl, rfl, le_rfl⟩, rfl, rfl, rfl, rfl⟩

theorem witness_EmptyInputTree :
    (let s := { inPhase .counted [] with freq := some (freqOf []) };
      s.phase = .counted ∧ s.freq = some (freqOf [])) ∧
    let s := { inPhase .built [] with tree := some (.leaf pseudoEof 1) }
    s.phase = .built ∧ s.tree = some (.leaf pseudoEof 1) := ⟨⟨rfl, rfl⟩, rfl, rfl⟩

theorem witness_BuiltTreeIsOptimal :
    ∃ t u : Tree, buildTree .orderKey (freqOf aab) = .ok t ∧ u.leaves.Perm t.leaves := by
  obtain ⟨t, h, -⟩ := buildTree_ok (tie := .orderKey) (f := freqOf aab) (s := pseudoEof) (by rw [freqOf_eof]; decide)
  exact ⟨t, t, h, .refl _⟩

theorem witness_GenCodesRecordsThePaths :
    let s := { inPhase .built aab with tree := some aabTree }
    s.phase = .built ∧ s.tree = some aabTree ∧ 99 ∉ aabTree.leaves ∧ 98 ∈ aabTree.leaves ∧ aabTree.leaves.Nodup := by
  decide +kernel

theorem witness_CodesArePrefixFree :
    (codeTable aabTree)[(98 : Sym)] = some [true, false] ∧ (codeTable aabTree)[(256 : Sym)] = some [true, true] ∧
      (98 : Sym) ≠ 256 ∧ aabTree.leaves.Nodup := by decide +kernel

theorem witness_WrTreeAppendsTheSerialization :
    let s := { inPhase .magicW aab with tree := some aabTree }
    s.phase = .magicW ∧ s.tree = some aabTree ∧ s.oclosed = false := by decide +kernel

theorem fits_default {n : Nat} (h : n ≤ 513) : FitsNodeCap Params.default n := by
  intro c hc
  cases hc
  exact h

theorem witness_RdTreeInvertsTheSerialization :
    let s := { inPhase .magicR aabArtifact with ipos := 32 }
    s.phase = .magicR ∧ s.stale = false ∧ s.inBits = aabTree.ser ++ [false, false, true, false, true, true, false, false] ∧
      FitsNodeCap s.params aabTree.size ∧ LegalRoot aabTree :=
  ⟨rfl, rfl, by decide +kernel, fits_default (by decide), fun h => absurd h (by decide)⟩

theorem witness_RdTreeConsumesASerialization :
    let s := { inPhase .magicR aabArtifact with ipos := 32 }
    s.phase = .magicR ∧ s.stale = false ∧ ∃ u, exec .rdTree s = .next u ∧ u.phase ≠ .fault := by
  refine ⟨rfl, rfl, ?_⟩
  obtain ⟨u, h, k⟩ := ans_next (r := exec .rdTree { inPhase .magicR aabArtifact with ipos := 32 })
    (p := fun u => u.phase ≠ .fault) (by decide +kernel)
  exact ⟨u, h, by simpa using k⟩

/-- V-SER6, where the stream ends inside a symbol field; a field `1000 0001` cut before its last bit, which no symbol
completes; 512 zero flags and the end, where no completion fits `NODE_CAP`; and with nothing after the magic. -/
theorem witness_RdTreeOnATruncatedTree :
    let start (bs : List Byte) : State := { inPhase .magicR ([0xFA, 0xCE, 0x82, 0x01] ++ bs) with ipos := 32 }
    (∀ bs, (start bs).phase = .magicR ∧ (start bs).stale = false ∧ (start bs).err = .none) ∧
    (let s := start [0x4C, 0x38];
      let rs : List TreeRecord := [.internal, .leaf 97]
      let q := [true, false, false, false]
      s.ipos ≤ 8 * s.ibytes.length ∧ Unfinished rs ∧ s.inBits = recordsBits rs ++ true :: q ∧ q.length < 9 ∧
        FitsNodeCap s.params (rs.length + 1)) ∧
    (let s := { inPhase .magicR [0x01, 0x81] with ipos := 7 };
      let q := [true, false, false, false, false, false, false, true]
      s.phase = .magicR ∧ s.stale = false ∧ s.err = .none ∧ s.ipos ≤ 8 * s.ibytes.length ∧ Unfinished [] ∧ s.inBits = recordsBits [] ++ true :: q ∧ q.length < 9 ∧
        FitsNodeCap s.params (([] : List TreeRecord).length + 1)) ∧
    (let s := start (List.replicate 64 0);
      let rs : List TreeRecord := List.replicate 512 .internal
      s.ipos ≤ 8 * s.ibytes.length ∧ Unfinished rs ∧ s.inBits = recordsBits rs ++ [] ∧
        FitsNodeCap s.params rs.length) ∧
    let s := start []
    s.ipos ≤ 8 * s.ibytes.length ∧ Unfinished [] ∧ s.inBits = recordsBits [] ++ [] ∧
      FitsNodeCap s.params ([] : List TreeRecord).length :=
  ⟨fun _ => ⟨rfl, rfl, rfl⟩,
    ⟨by decide, by unfold Unfinished; decide, by decide +kernel, by decide, fits_default (by decide)⟩,
    ⟨rfl, rfl, rfl, by decide, by unfold Unfinished; decide, by decide +kernel, by decide, fits_default (by decide)⟩,
    ⟨by decide +kernel, by unfold Unfinished; decide +kernel, by decide +kernel,
      fits_default (by rw [List.length_replicate]; decide)⟩,
    by decide, by unfold Unfinished; decide, by decide +kernel, fits_default (by decide)⟩

/-- V-SER7; the leaf 97 and then a field of 257, under an internal node; the leaf 97 and then the flag of a leaf beyond
a `NODE_CAP` of 2, and 513 internal nodes and the flag of one more; and a bare leaf 97. -/
theorem witness_RdTreeOnAnIllegalTree :
    let start (bs : List Byte) : State := { inPhase .magicR ([0xFA, 0xCE, 0x82, 0x01] ++ bs) with ipos := 32 }
    (∀ bs, (start bs).phase = .magicR ∧ (start bs).stale = false ∧ (start bs).err = .none) ∧
    (let s := start [0x60, 0x20];
      Unfinished [.internal] ∧ 256 < 257 ∧ 257 < 512 ∧ FitsNodeCap s.params ([TreeRecord.internal].length + 1) ∧
        s.inBits = recordsBits [.internal] ++ true :: (field 9 257 ++ [false, false, false, false, false])) ∧
    (let s := start [0x4C, 0x38, 0x08];
      let rs : List TreeRecord := [.internal, .leaf 97]
      Unfinished rs ∧ 256 < 257 ∧ 257 < 512 ∧ FitsNodeCap s.params (rs.length + 1) ∧
        s.inBits = recordsBits rs ++ true :: (field 9 257 ++ [false, false, false])) ∧
    (let s := { start [0x4C, 0x38] with params := { Params.default with nodeCap := some 2 } };
      let rs : List TreeRecord := [.internal, .leaf 97]
      Unfinished rs ∧ s.params.nodeCap = some rs.length ∧
        s.inBits = recordsBits rs ++ true :: [true, false, false, false]) ∧
    (let s := start (List.replicate 65 0);
      let rs : List TreeRecord := List.replicate 513 .internal
      Unfinished rs ∧ s.params.nodeCap = some rs.length ∧
        s.inBits = recordsBits rs ++ false :: List.replicate 6 false) ∧
    let s := start [0x98, 0x40]
    (97 : Sym) ≠ pseudoEof ∧ FitsNodeCap s.params 1 ∧
      s.inBits = true :: (field9 97 ++ [false, false, false, false, false, false]) :=
  ⟨fun _ => ⟨rfl, rfl, rfl⟩,
    ⟨by unfold Unfinished; decide, by decide, by decide, fits_default (by decide), by decide +kernel⟩,
    ⟨by unfold Unfinished; decide, by decide, by decide, fits_default (by decide), by decide +kernel⟩,
    ⟨by unfold Unfinished; decide, rfl, by decide +kernel⟩,
    ⟨by unfold Unfinished; decide +kernel, by rw [List.length_replicate]; rfl, by decide +kernel⟩,
    by decide, fits_default (by decide), by decide +kernel⟩

theorem witness_WrMagicAppendsTheMagic :
    (inPhase .coded aab).phase = .coded ∧ (inPhase .coded aab).oclosed = false := by decide

theorem witness_EncBodyAppendsTheCodes :
    let s := { inPhase .rewound aab with code := codeTable aabTree }
    s.phase = .rewound ∧ s.ipos = 0 ∧ s.stale = false ∧ s.oclosed = false ∧
      (∀ b ∈ s.ibytes, s.code[byteSym b] = some (codeOf aabTree (byteSym b))) ∧
      s.code[pseudoEof] = some (codeOf aabTree pseudoEof) := by decide +kernel

/-- V-ENC8; and a table without a code of `PSEUDO_EOF`. -/
theorem witness_EncBodyWithoutACode :
    (let s := { inPhase .rewound [0x61, 0x63] with code := codeTable aabTree };
      s.phase = .rewound ∧ s.ipos = 0 ∧ s.stale = false ∧ s.oclosed = false ∧ s.err = .none ∧
        (∀ b ∈ [(0x61 : Byte)], s.code[byteSym b] = some (codeOf aabTree (byteSym b))) ∧
        s.ibytes = [0x61] ++ 0x63 :: [] ∧ s.code[byteSym 0x63] = none) ∧
    let t := Tree.node 0 (.leaf 97 0) (.leaf 98 0)
    let s := { inPhase .rewound [0x61] with code := codeTable t }
    s.phase = .rewound ∧ s.ipos = 0 ∧ s.stale = false ∧ s.oclosed = false ∧ s.err = .none ∧
      (∀ b ∈ [(0x61 : Byte)], s.code[byteSym b] = some (codeOf t (byteSym b))) ∧ s.ibytes = [0x61] ∧
      s.code[pseudoEof] = none := by decide +kernel

theorem witness_CloseEndsTheCall :
    ((inPhase .bodyW aab).phase = .bodyW ∧ (inPhase .bodyW aab).oclosed = false) ∧
    ((inPhase .bodyR aab).phase = .bodyR ∧ (inPhase .bodyR aab).oclosed = false) ∧
    ((inPhase .fault aab).phase = .fault ∧ (inPhase .fault aab).oclosed = false) ∧
    ({ inPhase .fault aab with oclosed := true }.phase = .fault ∧
      { inPhase .fault aab with oclosed := true }.oclosed = true) := by decide

theorem launched (input : List Byte) : Launched input (inPhase .idle input) := ⟨rfl, rfl, rfl, rfl, rfl, rfl, rfl⟩

/-- A core after reset, and one with other counters and with what an earlier call left with the host. -/
theorem witness_CompressWritesTheArtifact :
    let s := inPhase .idle aab
    let s' := { inPhase .idle aab with params := { Params.default with countBits := none }, draws := 5, taken := [[0xAB]] }
    Launched aab s ∧ Launched aab s' ∧ CountsFit s.params aab ∧ CountsFit s'.params aab ∧
      s'.params.magic = s.params.magic ∧ s'.params.tie = s.params.tie :=
  ⟨launched aab, ⟨rfl, rfl, rfl, rfl, rfl, rfl, rfl⟩, aab_fits, fun _ h => by simp at h, rfl, rfl⟩

theorem witness_ArtifactLength : ∃ t, BuiltFor (freqOf aab) t := by
  obtain ⟨t, -, h⟩ := buildTree_ok (tie := .orderKey) (f := freqOf aab) (s := pseudoEof) (by rw [freqOf_eof]; decide)
  exact ⟨t, h⟩

/-- V-FA5. -/
theorem witness_CompressOnOverflow :
    let s := { inPhase .idle [0x61, 0x61, 0x61, 0x61] with params := { Params.default with countBits := some 2 } }
    Launched [0x61, 0x61, 0x61, 0x61] s ∧ s.params.countBits = some 2 ∧
      2 ^ 2 ≤ [(0x61 : Byte), 0x61, 0x61, 0x61].count 0x61 := ⟨⟨rfl, rfl, rfl, rfl, rfl, rfl, rfl⟩, rfl, by decide⟩

/-- P3, V-DEC2, V-DEC3. -/
theorem witness_RdMagicComparesEveryBit :
    (let s := inPhase .idle aabArtifact;
      s.phase = .idle ∧ s.ipos = 0 ∧ s.stale = false ∧ s.err = .none ∧ 32 ≤ 8 * s.ibytes.length ∧
        ∀ i, i < 32 → bitAt s.ibytes i = s.params.magic.getLsbD (31 - i)) ∧
    (let s := inPhase .idle [0xFA, 0xCE, 0x82, 0x00];
      s.phase = .idle ∧ s.ipos = 0 ∧ s.stale = false ∧ s.err = .none ∧ 32 ≤ 8 * s.ibytes.length ∧
        (31 < 32 ∧ bitAt s.ibytes 31 ≠ s.params.magic.getLsbD (31 - 31))) ∧
    let s := inPhase .idle [0xFA, 0xCE, 0x82]
    s.phase = .idle ∧ s.ipos = 0 ∧ s.stale = false ∧ s.err = .none ∧ 8 * s.ibytes.length < 32 := by decide +kernel

/-- `"aab"` as pairs of a byte and its code (V-CG2). -/
def aabCodes : List (Byte × Bits) := [(0x61, [false]), (0x61, [false]), (0x62, [true, false])]

theorem aabCodes_follow : ∀ c ∈ aabCodes, ∃ w, aabTree.follow c.2 = some (.leaf (byteSym c.1) w) := by
  intro c hc
  simp only [aabCodes, List.mem_cons, List.not_mem_nil, or_false] at hc
  rcases hc with rfl | rfl | rfl
  exacts [⟨2, by decide⟩, ⟨2, by decide⟩, ⟨1, by decide⟩]

theorem witness_DecBodyWritesTheBytes :
    let s := { inPhase .treeR aabArtifact with ipos := 64, tree := some aabTree }
    s.phase = .treeR ∧ s.stale = false ∧ s.oclosed = false ∧ s.tree = some aabTree ∧ aabTree.isLeaf = false ∧
      (∀ c ∈ aabCodes, ∃ w, aabTree.follow c.2 = some (.leaf (byteSym c.1) w)) ∧
      aabTree.follow [true, true] = some (.leaf pseudoEof 1) ∧
      s.inBits = aabCodes.flatMap Prod.snd ++ [true, true] ++ [false, false] :=
  ⟨rfl, rfl, rfl, rfl, rfl, aabCodes_follow, by decide, by decide +kernel⟩

theorem witness_DecBodyOnTheBareLeaf :
    let s := { inPhase .treeR [] with tree := some (.leaf pseudoEof 0) }
    Invariant s ∧ s.phase = .treeR ∧ s.tree = some (.leaf pseudoEof 0) ∧ (Tree.leaf pseudoEof 0).isLeaf = true := by
  refine ⟨?_, rfl, rfl, rfl⟩
  constructor <;> simp [inPhase, State.reset, countedPhases, builtPhases, codedPhases, silentPhases, State.inLen]
  · decide
  · exact ⟨fits_default (by decide), fun _ => rfl⟩

/-- The stream ends inside a code, and at the root. -/
theorem witness_DecBodyOnATruncatedBody :
    let s := { inPhase .treeR [0xFF] with ipos := 7, tree := some aabTree }
    let t := { inPhase .treeR [] with tree := some aabTree }
    let r := Tree.node 2 (.leaf 98 1) (.leaf 256 1)
    (s.phase = .treeR ∧ s.stale = false ∧ s.oclosed = false ∧ s.err = .none ∧ s.ipos ≤ 8 * s.ibytes.length ∧
      s.tree = some aabTree ∧ aabTree.isLeaf = false ∧ aabTree.follow [true] = some r ∧
      s.inBits = ([] : List (Byte × Bits)).flatMap Prod.snd ++ [true]) ∧
    (t.phase = .treeR ∧ t.stale = false ∧ t.oclosed = false ∧ t.err = .none ∧ t.ipos ≤ 8 * t.ibytes.length ∧
      t.tree = some aabTree ∧ aabTree.follow [] = some aabTree ∧
      t.inBits = ([] : List (Byte × Bits)).flatMap Prod.snd ++ []) := by decide +kernel

theorem witness_DecompressWritesTheBytes :
    let s := inPhase .idle aabArtifact
    Launched aabArtifact s ∧ FitsNodeCap s.params aabTree.size ∧
      (∀ c ∈ aabCodes, ∃ w, aabTree.follow c.2 = some (.leaf (byteSym c.1) w)) ∧
      aabTree.follow [true, true] = some (.leaf pseudoEof 1) ∧
      unpack aabArtifact = field 32 s.params.magic.toNat ++ aabTree.ser ++ aabCodes.flatMap Prod.snd ++ [true, true] ++
        [false, false] :=
  ⟨launched _, fits_default (by decide), aabCodes_follow, by decide, by decide +kernel⟩

/-- V-DEC2. -/
theorem witness_DecompressRejectsAWrongHeader :
    let s := inPhase .idle [0xFA, 0xCE, 0x82, 0x00]
    Launched [0xFA, 0xCE, 0x82, 0x00] s ∧
      ∀ rest, unpack [0xFA, 0xCE, 0x82, 0x00] ≠ field 32 s.params.magic.toNat ++ rest := by
  refine ⟨launched _, fun rest h => ?_⟩
  have h := congrArg (List.take 32) h
  rw [List.take_left' (field_length _ _)] at h
  exact absurd h (by decide +kernel)

theorem witness_DecompressAlwaysEnds : Launched aab (inPhase .idle aab) := launched aab

/-- A state other than reset that meets the invariant: a core in `FAULT` with part of an output written. -/
theorem witness_invariant : Invariant { inPhase .fault aab with err := .truncatedBody, obits := [true], ipos := 5 } := by
  constructor <;> simp [inPhase, State.reset, countedPhases, builtPhases, codedPhases, silentPhases, State.inLen, aab]
  decide

theorem witness_StepKeepsTheInvariant :
    ∃ s t : State, Invariant s ∧ step s = .next t := ⟨_, _, witness_invariant, rfl⟩

theorem witness_InvariantStatesNeverStop : ∃ s : State, Invariant s := ⟨_, witness_invariant⟩

theorem witness_CommandsOnlyAppend :
    exec .treeInternal State.reset = .next { State.reset with obits := [false] } := rfl

/-- V-TB1. -/
theorem test_build :
    ans (exec .build { inPhase .counted [] with freq := some ((Vector.replicate 257 0).set 256 1) })
      (fun s => s.status = 0x002 ∧ s.tree = some (.leaf 256 1)) = true := by decide +kernel

/-! ### A whole compression, and the witnesses that rest on it -/

/-- P2. -/
theorem test_compress :
    ans (exec .compress (inPhase .idle aab)) (fun s => s.status = 0x10B ∧ s.obytes = aabArtifact) = true := by
  decide +kernel

theorem test_step_compress : step ((inPhase .idle aab).withFetchWord 32 0xC) = exec .compress (inPhase .idle aab) := rfl

theorem witness_RoundTrip :
    ∃ u, Launched aab (inPhase .idle aab) ∧ CountsFit (inPhase .idle aab).params aab ∧
      exec .compress (inPhase .idle aab) = .next u ∧ Launched u.obytes (inPhase .idle aabArtifact) ∧
      (inPhase .idle aabArtifact).params.magic = (inPhase .idle aab).params.magic ∧
      (inPhase .idle aabArtifact).params.legal = true := by
  obtain ⟨u, h, k⟩ := ans_next test_compress
  have hu : u.obytes = aabArtifact := by simp only [decide_eq_true_eq] at k; exact k.2
  exact ⟨u, launched _, aab_fits, h, by rw [hu]; exact launched _, rfl, by decide⟩

theorem witness_TruncatedArtifactFails :
    ∃ u, Launched aab (inPhase .idle aab) ∧ CountsFit (inPhase .idle aab).params aab ∧
      exec .compress (inPhase .idle aab) = .next u ∧ Launched u.obytes.dropLast (inPhase .idle aabArtifact.dropLast) ∧
      (inPhase .idle aabArtifact.dropLast).params.magic = (inPhase .idle aab).params.magic ∧
      (inPhase .idle aabArtifact.dropLast).params.legal = true := by
  obtain ⟨u, h, k⟩ := ans_next test_compress
  have hu : u.obytes = aabArtifact := by simp only [decide_eq_true_eq] at k; exact k.2
  exact ⟨u, launched _, aab_fits, h, by rw [hu]; exact launched _, rfl, by decide⟩

/-- P2 and V-DEC1, where every step is a next state; V-FA5, where COUNT leaves `FAULT`, and a tree cut short, where RDTREE
does; and P2's artifact without its last byte, where the body ends inside the code of the symbol 98. -/
theorem witness_MacrosAreTheirSteps :
    (∃ u, exec .compress (inPhase .idle aab) = .next u ∧ (inPhase .idle aab).phase = .idle ∧ u.status = 0x10B) ∧
    (∃ u, exec .decompress (inPhase .idle [0xFA, 0xCE, 0x82, 0x01, 0xC0, 0x00]) = .next u ∧ u.phase = .done) ∧
    (let s := { inPhase .idle [0x61, 0x61, 0x61, 0x61] with params := { Params.default with countBits := some 2 } };
      s.phase = .idle ∧ ∃ t, issueAll ([] ++ [.count]) s = .next t ∧ t.phase = .fault) ∧
    (let s := inPhase .idle [0xFA, 0xCE, 0x82, 0x01, 0x4C];
      s.phase = .idle ∧ ∃ t, issueAll ([.rdMagic] ++ [.rdTree]) s = .next t ∧ t.phase = .fault) ∧
    let s := inPhase .idle aabArtifact.dropLast
    Launched aabArtifact.dropLast s ∧ FitsNodeCap s.params aabTree.size ∧
      (∀ c ∈ ([] : List (Byte × Bits)), ∃ w, aabTree.follow c.2 = some (.leaf (byteSym c.1) w)) ∧
      aabTree.follow [] = some (.node 4 (.leaf 97 2) (.node 2 (.leaf 98 1) (.leaf 256 1))) ∧
      unpack aabArtifact.dropLast = field 32 s.params.magic.toNat ++ aabTree.ser ++
        ([] : List (Byte × Bits)).flatMap Prod.snd ++ [] := by
  obtain ⟨u, h, k⟩ := ans_next test_compress
  obtain ⟨u1, h1, k1⟩ := ans_next (r := exec .decompress (inPhase .idle [0xFA, 0xCE, 0x82, 0x01, 0xC0, 0x00]))
    (p := fun u => u.phase = .done) (by decide +kernel)
  obtain ⟨u2, h2, k2⟩ := ans_next (r := issueAll ([] ++ [.count])
    { inPhase .idle [0x61, 0x61, 0x61, 0x61] with params := { Params.default with countBits := some 2 } })
    (p := fun u => u.phase = .fault) (by decide +kernel)
  obtain ⟨u3, h3, k3⟩ := ans_next (r := issueAll ([.rdMagic] ++ [.rdTree]) (inPhase .idle [0xFA, 0xCE, 0x82, 0x01, 0x4C]))
    (p := fun u => u.phase = .fault) (by decide +kernel)
  simp only [decide_eq_true_eq] at k k1 k2 k3
  exact ⟨⟨u, h, rfl, k.1⟩, ⟨u1, h1, k1⟩, ⟨rfl, u2, h2, k2⟩, ⟨rfl, u3, h3, k3⟩,
    launched _, fits_default (by decide), by simp, rfl, by decide +kernel⟩

end Sys2Proof.Tests
end

section
/-! SUPPORT. The pieces of a command that change the two ports alone, and every way COUNT's loop can end
(spec/20_memory.md R41 to R48; spec/40_frequency_analyzer.md R100, R101). -/

namespace Sys2Proof.Machine

/-- `t` is `s` but for the two ports, and the input position is still in range (R16, R24). -/
def PortsMoved (s t : State) : Prop :=
  ∃ pos out stale draws, t = { s with ipos := pos, obits := out, stale := stale, draws := draws } ∧
    (s.ipos ≤ s.inLen → pos ≤ s.inLen)

theorem PortsMoved.refl (s : State) : PortsMoved s s := ⟨_, _, _, _, rfl, id⟩

theorem PortsMoved.trans {s t u : State} (h : PortsMoved s t) (k : PortsMoved t u) : PortsMoved s u := by
  obtain ⟨_, _, _, _, rfl, hp⟩ := h
  obtain ⟨_, _, _, _, rfl, kp⟩ := k
  exact ⟨_, _, _, _, rfl, fun e => kp (hp e)⟩

theorem PortsMoved.oclosed {s t : State} (h : PortsMoved s t) : t.oclosed = s.oclosed := by
  obtain ⟨_, _, _, _, rfl, -⟩ := h; rfl

theorem PortsMoved.position {s t : State} (h : PortsMoved s t) (hs : s.ipos ≤ s.inLen) : t.ipos ≤ t.inLen := by
  obtain ⟨_, _, _, _, rfl, hp⟩ := h; exact hp hs

theorem portsMoved_write (p : Bits) (s : State) : PortsMoved s { s with obits := s.obits ++ p } :=
  ⟨_, _, _, _, rfl, id⟩

/-- The piece moves the ports alone, and what it raises is a fault code, not `NONE` (R21, R209). -/
def Act.MovesPorts {α : Type} (s : State) (x : Act α) : Prop :=
  match x with
  | .done _ t => PortsMoved s t
  | .raised e t => e ≠ .none ∧ PortsMoved s t
  | .halted _ => True
  | .refused _ => True

theorem Act.MovesPorts.of_done {α : Type} {s t : State} {x : Act α} {a : α} (h : x.MovesPorts s)
    (e : x = .done a t) : PortsMoved s t := by subst e; exact h

theorem Act.MovesPorts.trans {α : Type} {s t : State} {x : Act α} (h : PortsMoved s t) (k : x.MovesPorts t) :
    x.MovesPorts s := by
  cases x with
  | done a u => exact h.trans k
  | raised e u => exact ⟨k.1, h.trans k.2⟩
  | halted r => trivial
  | refused r => trivial

/-- A sequence moves the ports alone if both its parts do. -/
theorem Act.MovesPorts.andThen {α β : Type} {s : State} {x : Act α} {f : α → State → Act β} (h : x.MovesPorts s)
    (k : ∀ a t, PortsMoved s t → (f a t).MovesPorts t) : (x.andThen f).MovesPorts s := by
  cases x with
  | done a t => exact (k a t h).trans h
  | raised e t => exact h
  | halted r => trivial
  | refused r => trivial

theorem inRead_movesPorts (n : Nat) (s : State) : (inRead n s).MovesPorts s := by
  rcases inRead_cases n s with ⟨_, e⟩ | ⟨_, _, _, e⟩ | ⟨_, _, hn, v, d, _, e⟩ <;> rw [e]
  · trivial
  · exact ⟨_, _, _, _, rfl, fun h => (State.afterEos_ipos_le h).2⟩
  · exact ⟨_, _, _, _, rfl, fun _ => hn⟩

theorem getRecord_movesPorts (count : Nat) (s : State) : (getRecord count s).MovesPorts s := by
  refine (inRead_movesPorts 1 s).andThen fun a t _ => ?_
  match a with
  | .eos => exact ⟨by decide, .refl t⟩
  | .val b =>
    dsimp only
    split
    · exact ⟨by decide, .refl t⟩
    · split
      · exact .refl t
      · refine (inRead_movesPorts 9 t).andThen fun a u _ => ?_
        match a with
        | .eos => exact ⟨by decide, .refl u⟩
        | .val v =>
          dsimp only
          split
          · exact ⟨by decide, .refl u⟩
          · exact .refl u

theorem getTree_movesPorts (bound count : Nat) (s : State) : (getTree bound count s).MovesPorts s := by
  induction bound generalizing count s with
  | zero => trivial
  | succ bound ih =>
    refine (getRecord_movesPorts count s).andThen fun a t _ => ?_
    cases a with
    | leaf v => exact .refl t
    | internal => exact (ih _ t).andThen fun lc u _ => (ih _ u).andThen fun rc v _ => .refl v

theorem getCode_movesPorts (t : Tree) (s : State) : (getCode t s).MovesPorts s := by
  induction t generalizing s with
  | leaf v w => exact .refl s
  | node w l r ihl ihr =>
    refine (inRead_movesPorts 1 s).andThen fun a u _ => ?_
    match a with
    | .eos => exact ⟨by decide, .refl u⟩
    | .val b =>
      dsimp only
      split
      · exact ihl u
      · exact ihr u

theorem putCode_movesPorts (v : Sym) {s : State} (ho : s.oclosed = false) : (putCode v s).MovesPorts s := by
  unfold putCode
  split
  · exact ⟨by decide, .refl s⟩
  · rw [emit_open _ ho]; exact portsMoved_write _ s

theorem encLoop_movesPorts (bound : Nat) {s : State} (ho : s.oclosed = false) : (encLoop bound s).MovesPorts s := by
  induction bound generalizing s with
  | zero => trivial
  | succ bound ih =>
    refine (inRead_movesPorts 8 s).andThen fun a t ht => ?_
    match a with
    | .eos => exact .refl t
    | .val b =>
      have ho : t.oclosed = false := ht.oclosed.trans ho
      exact (putCode_movesPorts _ ho).andThen fun _ u hu => ih (hu.oclosed.trans ho)

theorem decLoop_movesPorts (root : Tree) (bound : Nat) {s : State} (ho : s.oclosed = false) :
    (decLoop root bound s).MovesPorts s := by
  induction bound generalizing s with
  | zero => trivial
  | succ bound ih =>
    refine (getCode_movesPorts root s).andThen fun v t ht => ?_
    have ho : t.oclosed = false := ht.oclosed.trans ho
    split
    · exact .refl t
    · rw [outWrite_open ho (by decide) (by decide)]
      exact (ih (by exact ho)).trans (portsMoved_write _ t)

/-- Every way COUNT's loop can end over the bytes that remain: its bound is used up, the counters are those of the bytes,
or a counter would overflow (R100, R101). -/
theorem countLoop_cases (bound : Nat) (f : Vector Nat 257) {s : State} {bs : List Byte} (hs : s.stale = false)
    (hb : s.inBits = unpack bs) :
    countLoop bound f s = .halted .loopBound ∨
    countLoop bound f s = .done (bs.foldl tick f) (State.afterEos { s with ipos := s.ipos + 8 * bs.length }) ∨
    ∃ k, k ≤ bs.length ∧
      countLoop bound f s = .raised .countOverflow { s with freq := none, ipos := s.ipos + 8 * k } := by
  induction bound generalizing f s bs with
  | zero => exact .inl rfl
  | succ bound ih =>
    cases bs with
    | nil =>
      have hend := inLen_of_inBits_nil (by simpa using hb)
      rw [countLoop, inRead_end (by decide) (by decide) (by omega)]
      exact .inr (.inl rfl)
    | cons b bs =>
      rw [unpack_cons] at hb
      rw [countLoop, inRead_byte hs hb, Act.andThen_done]
      dsimp only
      split
      · have hpos (k : Nat) : s.ipos + 8 + 8 * k = s.ipos + 8 * (k + 1) := by omega
        obtain e | e | ⟨k, hk, e⟩ := ih (tick f b) (s := { s with ipos := s.ipos + 8 }) hs
          (inBits_advance' hb (by simp)) <;> rw [tick] at e
        · exact .inl e
        · exact .inr (.inl (by rw [e, List.foldl_cons, tick, List.length_cons, hpos]))
        · exact .inr (.inr ⟨k + 1, by simpa using hk, by rw [e, hpos]⟩)
      · exact .inr (.inr ⟨1, by simp, rfl⟩)

end Sys2Proof.Machine
end

section
/-! SUPPORT. The invariant of reachable states (spec/10_state.md R30) read phase by phase, and what keeps it: fault entry,
reset, each command's rule, each command, each move of the host. -/

namespace Sys2Proof.Machine

/-! ### The invariant, phase by phase -/

/-- No fault is recorded and the output is open, as in every phase but `DONE` and `FAULT` (R30 (e), (f)). -/
def Running (s : State) : Prop := s.err = .none ∧ s.oclosed = false

/-- The next read is the call's first (R43). -/
def AtStart (s : State) : Prop := s.ipos = 0 ∧ s.stale = false

/-- `FREQ` is the table of the input (R30 (a)). -/
def HasCounts (s : State) : Prop := s.freq = some (freqOf s.ibytes)

/-- `TREE` is a tree BUILD may make of that table (R30 (b)). -/
def HasBuiltTree (s : State) : Prop := ∃ t, s.tree = some t ∧ BuiltFor (freqOf s.ibytes) t

/-- `CODE` holds exactly the paths of the leaves of `TREE` (R30 (c)). -/
def HasCodes (s : State) : Prop :=
  ∃ t, s.tree = some t ∧ ∀ v p, s.code[v] = some p ↔ ∃ w, t.follow p = some (.leaf v w)

/-- `TREE` is one that RDTREE accepts (R30 (d), R145). -/
def HasReadTree (s : State) : Prop := ∃ t, s.tree = some t ∧ FitsNodeCap s.params t.size ∧ LegalRoot t

/-- What a compression call has from GENCODES on (R30 (a) to (c)). -/
def Encoding (s : State) : Prop := Running s ∧ HasCounts s ∧ HasBuiltTree s ∧ HasCodes s

/-- What the invariant says of a state in each phase, beside the parameters and the range of the position. -/
abbrev HoldsIn (s : State) : Phase → Prop
  | .idle => Running s ∧ AtStart s ∧ s.obits = []
  | .counted => Running s ∧ HasCounts s ∧ s.obits = []
  | .built => Running s ∧ HasCounts s ∧ HasBuiltTree s ∧ s.obits = []
  | .coded => Encoding s ∧ s.obits = []
  | .magicW => Encoding s
  | .treeW => Encoding s
  | .rewound => Encoding s ∧ AtStart s
  | .bodyW => Encoding s
  | .magicR => Running s ∧ s.ipos = 32 ∧ s.stale = false ∧ s.obits = []
  | .treeR => Running s ∧ HasReadTree s ∧ s.stale = false ∧ s.obits = []
  | .bodyR => Running s ∧ HasReadTree s
  | .done => s.err = .none ∧ s.oclosed = true ∧ s.obits.length % 8 = 0
  | .fault => s.err ≠ .none ∧ (s.oclosed = true → s.obits.length % 8 = 0)

theorem Invariant.running {s : State} (h : Invariant s) (hp : s.phase ≠ .fault ∧ s.phase ≠ .done) : Running s :=
  ⟨by_contra fun e => hp.1 (h.faulted.mp e), eq_false_of_ne_true fun e => (h.closed e).elim hp.2 hp.1⟩

/-- From the invariant, what holds in the phase the state is in. -/
theorem Invariant.holdsIn {s : State} {p : Phase} (h : Invariant s) (hp : s.phase = p) : HoldsIn s p := by
  have hrun (hn : p ≠ .fault ∧ p ≠ .done) : Running s := h.running (hp ▸ hn)
  obtain ⟨-, -, hcounted, hbuilt, hcoded, hread, hfault, -, hfinished, hrewound, hmagic, hbody, hsilent, hwhole⟩ := h
  rw [hp] at hcounted hbuilt hcoded hread hfault hfinished hrewound hmagic hbody hsilent
  cases p with
  | idle => exact ⟨hrun (by decide), hrewound (.inl rfl), hsilent (by decide)⟩
  | counted => exact ⟨hrun (by decide), hcounted (by decide), hsilent (by decide)⟩
  | built => exact ⟨hrun (by decide), hcounted (by decide), hbuilt (by decide), hsilent (by decide)⟩
  | coded =>
    exact ⟨⟨hrun (by decide), hcounted (by decide), hbuilt (by decide), hcoded (by decide)⟩, hsilent (by decide)⟩
  | rewound =>
    exact ⟨⟨hrun (by decide), hcounted (by decide), hbuilt (by decide), hcoded (by decide)⟩, hrewound (.inr rfl)⟩
  | magicW | treeW | bodyW =>
    exact ⟨hrun (by decide), hcounted (by decide), hbuilt (by decide), hcoded (by decide)⟩
  | magicR => exact ⟨hrun (by decide), (hmagic rfl).1, (hmagic rfl).2, hsilent (by decide)⟩
  | treeR => exact ⟨hrun (by decide), hread (.inl rfl), hbody rfl, hsilent (by decide)⟩
  | bodyR => exact ⟨hrun (by decide), hread (.inr rfl)⟩
  | done => exact ⟨by simpa using hfault, hfinished rfl, hwhole (hfinished rfl)⟩
  | fault => exact ⟨hfault.mpr rfl, hwhole⟩

/-- To the invariant: each of its clauses asks no more than what holds in the phase. -/
theorem Invariant.of_holdsIn {s : State} {p : Phase} (hp : s.phase = p) (hl : s.params.legal = true)
    (hi : s.ipos ≤ s.inLen) (h : HoldsIn s p) : Invariant s := by
  have tables : (p ∈ countedPhases → HasCounts s) ∧ (p ∈ builtPhases → HasBuiltTree s) ∧
      (p ∈ codedPhases → HasCodes s) ∧ (p = .treeR ∨ p = .bodyR → HasReadTree s) := by
    cases p <;> simp_all [HoldsIn, countedPhases, builtPhases, codedPhases, Encoding]
  have control : (s.err ≠ .none ↔ p = .fault) ∧ (s.oclosed = true → p = .done ∨ p = .fault) ∧
      (p = .done → s.oclosed = true) := by
    cases p <;> simp_all [HoldsIn, Running, Encoding]
  have ports : (p = .idle ∨ p = .rewound → AtStart s) ∧ (p = .magicR → s.ipos = 32 ∧ s.stale = false) ∧
      (p = .treeR → s.stale = false) ∧ (p ∈ silentPhases → s.obits = []) ∧
      (s.oclosed = true → s.obits.length % 8 = 0) := by
    cases p <;> simp_all [HoldsIn, silentPhases, Running, Encoding]
  subst hp
  obtain ⟨hcounted, hbuilt, hcoded, hread⟩ := tables
  obtain ⟨hfault, hclosed, hfinished⟩ := control
  obtain ⟨hstart, hmagic, hbody, hsilent, hwhole⟩ := ports
  exact ⟨hl, hi, hcounted, hbuilt, hcoded, hread, hfault, hclosed, hfinished, hstart, hmagic, hbody, hsilent, hwhole⟩

/-- Fault entry meets the invariant wherever the output is open or whole (R209). -/
theorem invariant_raise {u : State} {e : Err} (he : e ≠ .none) (hl : u.params.legal = true) (hi : u.ipos ≤ u.inLen)
    (hw : u.oclosed = true → u.obits.length % 8 = 0) : Invariant (u.raise e) := by
  refine .of_holdsIn (p := .fault) rfl hl hi ⟨?_, hw⟩
  rw [State.raise_err]
  split <;> assumption

theorem invariant_applyReset {s : State} (hl : s.params.legal = true) (input : List Byte) :
    Invariant (s.applyReset input) :=
  .of_holdsIn (p := .idle) rfl hl (Nat.zero_le _) ⟨⟨rfl, rfl⟩, ⟨rfl, rfl⟩, rfl⟩

/-- The host's side is not the invariant's: it holds whatever the moves to come and the last value read. -/
theorem Invariant.hostSide {s : State} (h : Invariant s) (inbox : List HostMove) (rdata : Option Word) :
    Invariant { s with inbox := inbox, rdata := rdata } :=
  { h with }

/-! ### The rules of the commands keep the invariant -/

/-- Every next state of a command meets the invariant if the state before it does. -/
def Keeps (c : State → Result) : Prop := ∀ s t : State, Invariant s → c s = .next t → Invariant t

/-- What a rule must leave so that its end meets the invariant: a state of the invariant, or a fault code raised on an open
output. -/
def Act.Keeps (x : Act Unit) : Prop :=
  match x with
  | .done _ t => Invariant t
  | .raised e u => e ≠ .none ∧ u.params.legal = true ∧ u.ipos ≤ u.inLen ∧ u.oclosed = false
  | .halted _ => True
  | .refused _ => True

theorem Act.Keeps.finish {x : Act Unit} {t : State} (h : x.Keeps) (e : x.finish = .next t) : Invariant t := by
  obtain rfl | ⟨e, u, rfl, rfl⟩ := Act.finish_eq_next.mp e
  · exact h
  · obtain ⟨he, hl, hi, ho⟩ := h
    exact invariant_raise he hl hi (by simp [ho])

/-- A rule that begins by moving the ports keeps the invariant if the rest of it does. -/
theorem keeps_andThen {α : Type} {s : State} {x : Act α} {f : α → State → Act Unit} (hx : x.MovesPorts s)
    (hl : s.params.legal = true) (hi : s.ipos ≤ s.inLen) (ho : s.oclosed = false)
    (hf : ∀ a t, x = .done a t → (f a t).Keeps) : (x.andThen f).Keeps := by
  cases x with
  | done a t => exact hf a t rfl
  | raised e u =>
    obtain ⟨he, _, _, _, _, rfl, hpos⟩ := hx
    exact ⟨he, hl, hpos hi, ho⟩
  | halted r => trivial
  | refused r => trivial

theorem issue_keeps {i : Instr} {rule : State → Result}
    (h : ∀ s t, Invariant s → s.phase ∈ legalPhases i → rule s = .next t → Invariant t) : Keeps (issue i rule) := by
  intro s t hs e
  rcases issue_cases i rule s with ⟨_, k⟩ | ⟨_, hp, k⟩ | ⟨_, _, k⟩ <;> rw [k] at e
  · cases e; exact hs
  · exact h s t hs hp e
  · cases e; exact invariant_raise (by decide) hs.legal hs.position hs.whole

/-- A command with one legal phase keeps the invariant if its rule does from that phase. -/
theorem issue_rule_keeps {i : Instr} {p : Phase} {rule : State → Act Unit} (hp : legalPhases i = [p])
    (h : ∀ s, Invariant s → HoldsIn s p → (rule s).Keeps) : Keeps (issue i fun s => (rule s).finish) :=
  issue_keeps fun s _ hs hl e => (h s hs (hs.holdsIn (List.mem_singleton.mp (hp ▸ hl)))).finish e

theorem countRule_keeps {s : State} (h : Invariant s) (hp : HoldsIn s .idle) : (countRule s).Keeps := by
  obtain ⟨hrun, ⟨hpos, hs⟩, hout⟩ := hp
  have hend : ∀ k, k ≤ s.ibytes.length → s.ipos + 8 * k ≤ s.inLen := by simp only [State.inLen]; omega
  have hb : s.inBits = unpack s.ibytes := by rw [State.inBits, hpos, List.drop_zero]
  rw [countRule]
  obtain e | e | ⟨k, hk, e⟩ := countLoop_cases s.readBound (Vector.replicate 257 0) hs hb <;> rw [e]
  · trivial
  · exact .of_holdsIn (p := .counted) rfl h.legal (State.afterEos_ipos_le (hend _ le_rfl)).2
      ⟨hrun, congrArg some (tally_eq_freqOf _), hout⟩
  · exact ⟨by decide, h.legal, hend k hk, hrun.2⟩

theorem buildRule_keeps {s : State} (h : Invariant s) (hp : HoldsIn s .counted) : (buildRule s).Keeps := by
  obtain ⟨hrun, hfreq, hout⟩ := hp
  obtain ⟨t, e, ht⟩ := buildTree_ok (tie := s.params.tie) (f := freqOf s.ibytes) (s := pseudoEof)
    (by rw [freqOf_eof]; decide)
  rw [buildRule, needFreq, hfreq, Act.andThen_done, e]
  exact .of_holdsIn (p := .built) rfl h.legal h.position ⟨hrun, hfreq, ⟨t, rfl, ht⟩, hout⟩

theorem genCodesRule_keeps {s : State} (h : Invariant s) (hp : HoldsIn s .built) : (genCodesRule s).Keeps := by
  obtain ⟨hrun, hfreq, ⟨t, htree, ht⟩, hout⟩ := hp
  rw [genCodesRule, needTree, htree]
  exact .of_holdsIn (p := .coded) rfl h.legal h.position
    ⟨⟨hrun, hfreq, ⟨t, htree, ht⟩, t, htree, fun _ _ => codeTable_iff ht.nodup⟩, hout⟩

theorem wrMagicRule_keeps {s : State} (h : Invariant s) (hp : HoldsIn s .coded) : (wrMagicRule s).Keeps := by
  obtain ⟨henc, -⟩ := hp
  have ⟨⟨_, ho⟩, _⟩ := henc
  rw [wrMagicRule, putMagic, outWrite_open ho (by decide) (by decide)]
  exact .of_holdsIn (p := .magicW) rfl h.legal h.position henc

theorem wrTreeRule_keeps {s : State} (h : Invariant s) (henc : HoldsIn s .magicW) : (wrTreeRule s).Keeps := by
  have ⟨⟨_, ho⟩, _, ⟨t, htree, _⟩, _⟩ := henc
  rw [wrTreeRule, needTree, htree, Act.andThen_done, putTree_open t ho]
  exact .of_holdsIn (p := .treeW) rfl h.legal h.position henc

theorem encBodyRule_keeps {s : State} (h : Invariant s) (hp : HoldsIn s .rewound) : (encBodyRule s).Keeps := by
  obtain ⟨henc, -⟩ := hp
  have ⟨⟨_, ho⟩, _⟩ := henc
  have hbody : ((encLoop s.readBound s).andThen fun _ t => putCode pseudoEof t).MovesPorts s :=
    (encLoop_movesPorts _ ho).andThen fun _ _ ht => putCode_movesPorts _ (ht.oclosed.trans ho)
  rw [encBodyRule, ← Act.andThen_assoc]
  refine keeps_andThen hbody h.legal h.position ho fun _ t et => ?_
  obtain ⟨_, _, _, _, rfl, hi⟩ := hbody.of_done et
  exact .of_holdsIn (p := .bodyW) rfl h.legal (hi h.position) henc

/-- CLOSE of an open output leaves `DONE`, or the fault that was there (R165). -/
theorem closeRule_keeps {s : State} (h : Invariant s) (ho : s.oclosed = false) : (closeRule s).Keeps := by
  have hwhole : (s.obits ++ List.replicate (padLen s.obits.length) false).length % 8 = 0 := by
    rw [List.length_append, List.length_replicate, add_padLen_mod]
  rw [closeRule, outClose_open ho, Act.andThen_done]
  dsimp only
  split
  · next hf => exact .of_holdsIn hf h.legal h.position ⟨h.faulted.mpr hf, fun _ => hwhole⟩
  · next hf =>
    have herr : s.err = .none := by_contra fun e => hf (h.faulted.mp e)
    exact .of_holdsIn (p := .done) rfl h.legal h.position ⟨herr, rfl, hwhole⟩

theorem rdMagicRule_keeps {s : State} (h : Invariant s) (hp : HoldsIn s .idle) : (rdMagicRule s).Keeps := by
  obtain ⟨hrun, ⟨hpos, hs⟩, hout⟩ := hp
  rw [rdMagicRule, getMagic]
  rcases inRead_cases 32 s with ⟨_, e⟩ | ⟨_, _, _, e⟩ | ⟨_, _, hi, v, d, _, e⟩ <;> rw [e]
  · trivial
  · exact ⟨by decide, h.legal, (State.afterEos_ipos_le h.position).2, hrun.2⟩
  · dsimp only [Act.andThen_done]
    split
    · exact .of_holdsIn (p := .magicR) rfl h.legal hi ⟨hrun, by simp [hpos], hs, hout⟩
    · exact ⟨by decide, h.legal, hi, hrun.2⟩

theorem rdTreeRule_keeps {s : State} (h : Invariant s) (hp : HoldsIn s .magicR) : (rdTreeRule s).Keeps := by
  obtain ⟨hrun, -, hs, hout⟩ := hp
  have hread := getTree_movesPorts s.readBound 0 { s with tree := none }
  refine keeps_andThen hread h.legal h.position hrun.2 fun tc u et => ?_
  obtain ⟨t, c⟩ := tc
  have hi : u.ipos ≤ u.inLen := (hread.of_done et).position h.position
  obtain ⟨-, rfl, hcap, -, rfl⟩ := getTree_inv (by exact hs) et
  rw [Nat.zero_add] at hcap
  dsimp only
  split
  · exact ⟨by decide, h.legal, hi, hrun.2⟩
  · next hroot =>
    have hlegal : LegalRoot t := fun hl => by_contra fun hv => hroot ⟨hl, hv⟩
    exact .of_holdsIn (p := .treeR) rfl h.legal hi ⟨hrun, ⟨t, rfl, hcap, hlegal⟩, hs, hout⟩

theorem decBodyRule_keeps {s : State} (h : Invariant s) (hp : HoldsIn s .treeR) : (decBodyRule s).Keeps := by
  obtain ⟨hrun, ⟨t, htree, ht⟩, -, -⟩ := hp
  have hloop := decLoop_movesPorts t s.readBound hrun.2
  rw [decBodyRule, needTree, htree]
  dsimp only [Act.andThen_done]
  split
  · exact .of_holdsIn (p := .bodyR) rfl h.legal h.position ⟨hrun, t, htree, ht⟩
  · refine keeps_andThen hloop h.legal h.position hrun.2 fun _ u eu => ?_
    obtain ⟨_, _, _, _, rfl, hi⟩ := hloop.of_done eu
    exact .of_holdsIn (p := .bodyR) rfl h.legal (hi h.position) ⟨hrun, t, htree, ht⟩

/-! ### The commands keep the invariant -/

theorem execCount_keeps : Keeps execCount := issue_rule_keeps rfl fun _ => countRule_keeps
theorem execBuild_keeps : Keeps execBuild := issue_rule_keeps rfl fun _ => buildRule_keeps
theorem execGenCodes_keeps : Keeps execGenCodes := issue_rule_keeps rfl fun _ => genCodesRule_keeps
theorem execWrMagic_keeps : Keeps execWrMagic := issue_rule_keeps rfl fun _ => wrMagicRule_keeps
theorem execWrTree_keeps : Keeps execWrTree := issue_rule_keeps rfl fun _ => wrTreeRule_keeps
theorem execEncBody_keeps : Keeps execEncBody := issue_rule_keeps rfl fun _ => encBodyRule_keeps
theorem execRdMagic_keeps : Keeps execRdMagic := issue_rule_keeps rfl fun _ => rdMagicRule_keeps
theorem execRdTree_keeps : Keeps execRdTree := issue_rule_keeps rfl fun _ => rdTreeRule_keeps
theorem execDecBody_keeps : Keeps execDecBody := issue_rule_keeps rfl fun _ => decBodyRule_keeps

theorem execRewind_keeps : Keeps execRewind := by
  refine issue_keeps fun s t h hp e => ?_
  have henc : Encoding s := h.holdsIn (List.mem_singleton.mp hp)
  cases e
  exact .of_holdsIn (p := .rewound) rfl h.legal (Nat.zero_le _) ⟨henc, rfl, rfl⟩

theorem execClose_keeps : Keeps execClose := by
  intro s t h e
  unfold execClose at e
  split at e
  · split at e
    · cases e; exact h
    · next ho => exact (closeRule_keeps h (eq_false_of_ne_true ho)).finish e
  · refine issue_keeps (fun s t h hp e => ?_) s t h e
    have ho : s.phase ≠ .fault ∧ s.phase ≠ .done := by
      rcases List.mem_pair.mp hp with k | k <;> rw [k] <;> decide
    exact (closeRule_keeps h (h.running ho).2).finish e

/-- COMPRESS and DECOMPRESS keep the invariant if their steps do: a call goes from one to the next, and to CLOSE (R86). -/
theorem runSteps_keeps {cs : List (State → Result)} (h : ∀ c ∈ cs, Keeps c) : Keeps (runSteps cs) := by
  induction cs with
  | nil => exact execClose_keeps
  | cons c cs ih =>
    obtain ⟨hc, hcs⟩ := List.forall_mem_cons.mp h
    intro s t hs e
    cases k : c s with
    | next u =>
      by_cases hu : u.phase = .fault
      · exact execClose_keeps u t (hc s u hs k) (runSteps_fault k hu ▸ e)
      · exact ih hcs u t (hc s u hs k) (runSteps_next k hu ▸ e)
    | fault r => simp [runSteps, k] at e
    | refused r => simp [runSteps, k] at e

theorem execCompress_keeps : Keeps execCompress :=
  issue_keeps fun s t h _ => runSteps_keeps (by
    simp only [List.forall_mem_cons]
    exact ⟨execCount_keeps, execBuild_keeps, execGenCodes_keeps, execWrMagic_keeps, execWrTree_keeps,
      execRewind_keeps, execEncBody_keeps, nofun⟩) s t h

theorem execDecompress_keeps : Keeps execDecompress :=
  issue_keeps fun s t h _ => runSteps_keeps (by
    simp only [List.forall_mem_cons]
    exact ⟨execRdMagic_keeps, execRdTree_keeps, execDecBody_keeps, nofun⟩) s t h

/-- Every command keeps the invariant; a record alone does not, but no word is one (R72, R75). -/
theorem exec_keeps {i : Instr} (hi : i.isCommand = true) : Keeps (exec i) := by
  cases i with
  | count => exact execCount_keeps
  | build => exact execBuild_keeps
  | genCodes => exact execGenCodes_keeps
  | wrMagic => exact execWrMagic_keeps
  | wrTree => exact execWrTree_keeps
  | rewind => exact execRewind_keeps
  | encBody => exact execEncBody_keeps
  | close => exact execClose_keeps
  | rdMagic => exact execRdMagic_keeps
  | rdTree => exact execRdTree_keeps
  | decBody => exact execDecBody_keeps
  | compress => exact execCompress_keeps
  | decompress => exact execDecompress_keeps
  | hdrMagic | treeInternal | treeLeaf | bodyCode | pad => simp [Instr.isCommand] at hi

/-! ### The moves of the host keep the invariant -/

/-- With no move to take, the core waits (R216, R230). -/
theorem step_eq_wait {s : State} (h : s.inbox = []) : step s = .next s := by
  rw [step, takeMove, h]

/-- The step that takes a move is that move's (R246). -/
theorem step_eq_hostMove {s : State} {m : HostMove} {rest : List HostMove} (h : s.inbox = m :: rest) :
    step s = hostMove m { s with inbox := rest } := by
  rw [step, takeMove, h]

/-- A decoded word is a command, never a record (R72, R75). -/
theorem isCommand_of_decode {w : Word} {i : Instr} (h : decode w = .ok i) : i.isCommand = true := by
  unfold decode at h
  split at h
  · cases h
  · split at h <;> cases h <;> rfl

theorem issueWord_keeps (w : Word) : Keeps (issueWord w) := by
  intro s t h e
  unfold issueWord at e
  split at e
  · next hd => exact exec_keeps (isCommand_of_decode hd) s t h e
  · split at e <;> cases e
    · exact h
    · exact invariant_raise (by decide) h.legal h.position h.whole

/-- The part of a command that a reset cuts off changes the output alone (R230). -/
theorem cutShort_params (w : Word) (cut : Nat) (s : State) : (cutShort w cut s).params = s.params := by
  unfold cutShort; split <;> rfl

theorem hostMove_keeps (m : HostMove) : Keeps (hostMove m) := by
  intro s t h e
  match m with
  | .write .cmd w => exact issueWord_keeps w s t h e
  | .write .status w => cases e; exact h
  | .read r => cases e; exact h.hostSide _ _
  | .reset input => cases e; exact invariant_applyReset h.legal input
  | .resetDuring w cut input =>
    cases e; exact invariant_applyReset (by rw [cutShort_params]; exact h.legal) input

/-- Settles O57: each move of the host keeps the invariant, and a written command does because its rule does from each
phase in which R73 lets it run. -/
theorem stepKeepsTheInvariant : Obligations.StepKeepsTheInvariant := by
  intro s t h e
  match hm : s.inbox with
  | [] =>
    rw [step_eq_wait hm] at e
    cases e; exact h
  | m :: rest =>
    rw [step_eq_hostMove hm] at e
    exact hostMove_keeps m _ t (h.hostSide rest s.rdata) e

/-- Settles O56: at reset the call is at its start with nothing written. -/
theorem resetMeetsTheInvariant : Obligations.ResetMeetsTheInvariant :=
  .of_holdsIn (p := .idle) rfl (by decide) le_rfl ⟨⟨rfl, rfl⟩, ⟨rfl, rfl⟩, rfl⟩

end Sys2Proof.Machine
end

section
/-! SUPPORT. The reset values and the status register (spec/10_state.md R22, R29). -/

namespace Sys2Proof.Machine

/-- Settles O11: each field of `State.reset` is the value R29 gives. -/
theorem resetValues : Obligations.ResetValues :=
  ⟨rfl, rfl, rfl, rfl, rfl, rfl, rfl, fun _ => Vector.getElem_replicate _, rfl, rfl⟩

/-! ### The status register -/

theorem State.status_phase (s : State) : s.status.extractLsb' 0 4 = s.phase.code := by
  rw [State.status, BitVec.extractLsb'_append_eq_of_add_le (by decide)]
  exact BitVec.extractLsb'_eq_self

theorem State.status_err (s : State) : s.status.extractLsb' 4 4 = s.err.code := by
  rw [State.status, BitVec.extractLsb'_append_eq_of_le (by decide),
    BitVec.extractLsb'_append_eq_of_add_le (by decide)]
  exact BitVec.extractLsb'_eq_self

theorem State.status_oclosed (s : State) : s.status.getLsbD 8 = s.oclosed := by
  rw [State.status, BitVec.getLsbD_append, if_neg (by decide), BitVec.getLsbD_append, if_neg (by decide),
    BitVec.getLsbD_append, if_pos (by decide)]
  simp

theorem State.status_reserved (s : State) : s.status.extractLsb' 9 23 = 0 := by
  rw [State.status, BitVec.extractLsb'_append_eq_of_le (by decide), BitVec.extractLsb'_append_eq_of_le (by decide),
    BitVec.extractLsb'_append_eq_of_le (by decide)]
  rfl

theorem State.status_of_succeeded {s : State} (h : Succeeded s) : s.status = 0x0000010B := by
  obtain ⟨ho, hp, he⟩ := h
  rw [State.status, ho, hp, he]
  rfl

/-- Settles O10: the fields of `STATUS` one by one, and the host's three moves on the registers. -/
theorem statusRegister : Obligations.StatusRegister :=
  ⟨rfl, rfl, fun s => ⟨s.status_phase, s.status_err, s.status_oclosed, s.status_reserved⟩,
    fun _ _ h => step_eq_hostMove h, fun _ _ h => step_eq_hostMove h, fun _ _ _ h => step_eq_hostMove h,
    rfl, fun _ => State.status_of_succeeded, rfl, rfl⟩

end Sys2Proof.Machine
end

section
/-! SUPPORT. Bit strings as sums of their bits, and the bits of a byte sequence by position (spec/20_memory.md R41, R42,
R46, R47). -/

namespace Sys2Proof

/-- The number of a bit string as the sum of its bits, the first most significant (R7). -/
theorem num_eq_sum (p : Bits) :
    num p = ∑ i ∈ Finset.range p.length, (p.getD i false).toNat * 2 ^ (p.length - 1 - i) := by
  induction p with
  | nil => rfl
  | cons b p ih =>
    rw [num_cons, ih, List.length_cons, Finset.sum_range_succ', Nat.add_comm]
    simp [Nat.sub_sub, Nat.add_comm 1]

/-- The number of the `n` bits from position `j` on, as a sum over the positions. -/
theorem num_take_drop {p : Bits} {j n : Nat} (h : j + n ≤ p.length) :
    num ((p.drop j).take n) = ∑ i ∈ Finset.range n, (p.getD (j + i) false).toNat * 2 ^ (n - 1 - i) := by
  have hl : ((p.drop j).take n).length = n := by simp; omega
  rw [num_eq_sum, hl]
  refine Finset.sum_congr rfl fun i hi => ?_
  rw [List.getD_eq_getElem?_getD, List.getElem?_take_of_lt (Finset.mem_range.mp hi), List.getElem?_drop,
    ← List.getD_eq_getElem?_getD]

/-- The number of an `n`-bit string fits `n` bits. -/
theorem toNat_ofNat_num {p : Bits} {n : Nat} (h : p.length = n) : (BitVec.ofNat n (num p)).toNat = num p := by
  subst h
  rw [BitVec.toNat_ofNat, Nat.mod_eq_of_lt (num_lt p)]

/-- The bits of a field one by one (R46). -/
theorem field_eq_map (n v : Nat) : field n v = (List.range n).map fun i => v.testBit (n - 1 - i) := by
  induction n with
  | zero => rfl
  | succ n ih =>
    simp [field_succ, ih, List.range_succ_eq_map, Nat.sub_sub, Nat.add_comm 1]

/-- A field of two parts is the field of the first followed by that of the second (R51). -/
theorem field_concat {n m b : Nat} (a : Nat) (h : b < 2 ^ m) :
    field (n + m) (a * 2 ^ m + b) = field n a ++ field m b := by
  have high : (a * 2 ^ m + b) >>> m = a := by
    rw [Nat.shiftRight_eq_div_pow, Nat.mul_comm, Nat.mul_add_div (by positivity), Nat.div_eq_of_lt h, Nat.add_zero]
  rw [field_add, high, field_congr (Nat.mul_add_mod' a (2 ^ m) b)]

/-- Bit `j` of a byte, counted from the first in stream order (R41). -/
theorem byteBits_getD (b : Byte) {j : Nat} (h : j < 8) : (byteBits b).getD j false = b.getLsbD (7 - j) := by
  simp [byteBits, field_eq_map, List.getD_eq_getElem?_getD, h, BitVec.testBit_toNat]

/-- The bit sequence of a byte sequence, position by position (R41). -/
theorem unpack_getD (bs : List Byte) (j : Nat) : (unpack bs).getD j false = bitAt bs j := by
  induction bs generalizing j with
  | nil => simp [bitAt]
  | cons b bs ih =>
    rw [unpack_cons]
    by_cases h : j < 8
    · rw [List.getD_append _ _ _ _ (by simpa using h), byteBits_getD b h, bitAt, Nat.div_eq_of_lt h,
        Nat.mod_eq_of_lt h]
      rfl
    · obtain ⟨i, rfl⟩ : ∃ i, j = i + 8 := ⟨j - 8, by omega⟩
      rw [List.getD_append_right _ _ _ _ (by simp), byteBits_length, Nat.add_sub_cancel, ih, bitAt, bitAt,
        Nat.add_div_right _ (by decide), Nat.add_mod_right, List.getD_cons_succ]

/-- Packed byte `k` is the number of the eight bits from bit `8·k` on (R47). -/
theorem pack_getD {p : Bits} {k : Nat} (h : k < p.length / 8) :
    (pack p).getD k 0 = BitVec.ofNat 8 (num ((p.drop (8 * k)).take 8)) := by
  induction k generalizing p with
  | zero =>
    rw [← List.take_append_drop 8 p, pack_append_eight (by rw [List.length_take]; omega)]
    simp
  | succ k ih =>
    have hk : k < (p.drop 8).length / 8 := by rw [List.length_drop]; omega
    conv_lhs => rw [← List.take_append_drop 8 p]
    rw [pack_append_eight (by rw [List.length_take]; omega), List.getD_cons_succ, ih hk, List.drop_drop,
      Nat.mul_succ, Nat.add_comm]

end Sys2Proof
end

section
/-! SUPPORT. The two ports: what a read answers, how accesses join, what a write and a close append, and the bytes
delivered (spec/20_memory.md R41 to R51). -/

namespace Sys2Proof.Machine

/-! ### The input port -/

/-- The bits a read of `n` takes, where `n` are there. -/
theorem State.inBits_split {s : State} {n : Nat} (h : s.ipos + n ≤ s.inLen) :
    ∃ p rest, s.inBits = p ++ rest ∧ p.length = n := by
  refine ⟨s.inBits.take n, s.inBits.drop n, (List.take_append_drop ..).symm, ?_⟩
  rw [List.length_take, s.inBits_length]; omega

/-- The number of the next `n` bits, by the positions of the stream (R42). -/
theorem State.num_inBits_take {s : State} {n : Nat} (h : s.ipos + n ≤ s.inLen) :
    num (s.inBits.take n) = ∑ i ∈ Finset.range n, (bitAt s.ibytes (s.ipos + i)).toNat * 2 ^ (n - 1 - i) := by
  rw [State.inBits, num_take_drop (by simpa [State.inLen] using h)]
  simp_rw [unpack_getD]

/-- A read with `n` bits left answers their number (R42). -/
theorem inRead_val {n : Nat} {s : State} (h0 : 1 ≤ n) (h1 : n ≤ 32) (hs : s.stale = false)
    (h : s.ipos + n ≤ s.inLen) :
    ∃ v : BitVec n, inRead n s = .done (.val v) { s with ipos := s.ipos + n } ∧
      v.toNat = ∑ i ∈ Finset.range n, (bitAt s.ibytes (s.ipos + i)).toNat * 2 ^ (n - 1 - i) := by
  obtain ⟨p, rest, hb, hp⟩ := State.inBits_split h
  refine ⟨_, inRead_fresh h0 h1 hs hb hp, ?_⟩
  rw [toNat_ofNat_num hp, ← State.num_inBits_take h, hb, List.take_left' hp]

/-- Settles O14: a read takes its bits off the stream, or leaves the position where an `EOS` may leave it. -/
theorem readAnswersTheNextBits : Obligations.ReadAnswersTheNextBits :=
  fun _ s h0 h1 => ⟨inRead_val h0 h1, fun hend =>
    ⟨s.afterEos.ipos, State.afterEos_ipos_le, inRead_end h0 h1 hend⟩⟩

/-- Settles O15: the rewound port is at position 0, where a read answers the first bits. -/
theorem rewoundPortReadsFromTheStart : Obligations.RewoundPortReadsFromTheStart := by
  refine fun s => ⟨rfl, List.drop_zero, fun n h0 h1 hn => ?_⟩
  simpa [inReset] using inRead_val (s := inReset s) h0 h1 rfl (by simpa [State.inLen] using hn)

/-- Two reads take the bits one read of both widths takes, and answer the two parts of its number (R51). -/
theorem inRead_concat {n m : Nat} {s : State} (hn : 1 ≤ n) (hm : 1 ≤ m) (h1 : n + m ≤ 32) (hs : s.stale = false)
    (h : s.ipos + (n + m) ≤ s.inLen) :
    ∃ (a : BitVec n) (b : BitVec m) (c : BitVec (n + m)) (t : State),
      inRead n s = .done (.val a) { s with ipos := s.ipos + n } ∧
      inRead m { s with ipos := s.ipos + n } = .done (.val b) t ∧
      inRead (n + m) s = .done (.val c) t ∧ c.toNat = a.toNat * 2 ^ m + b.toNat := by
  obtain ⟨p, rest, hp, hpn⟩ := State.inBits_split (s := s) (n := n) (by omega)
  obtain ⟨q, rest, hq, hqm⟩ := State.inBits_split (s := { s with ipos := s.ipos + n }) (n := m) (by
    simp only [State.inLen] at h ⊢; omega)
  have hpq : s.inBits = (p ++ q) ++ rest := by
    rw [List.append_assoc, ← hq, inBits_advance' hp hpn, hp]
  have hl : (p ++ q).length = n + m := by rw [List.length_append, hpn, hqm]
  have hread := inRead_fresh (by omega) h1 hs hpq hl
  rw [← Nat.add_assoc] at hread
  refine ⟨_, _, _, _, inRead_fresh hn (by omega) hs hp hpn, inRead_fresh hm (by omega) (by exact hs) hq hqm,
    hread, ?_⟩
  rw [toNat_ofNat_num hl, toNat_ofNat_num hpn, toNat_ofNat_num hqm, num_append, hqm]

/-! ### The output port -/

/-- Two writes append what one write of both widths appends (R51). -/
theorem outWrite_concat {n m a b : Nat} {s : State} (hn : 1 ≤ n) (hm : 1 ≤ m) (h1 : n + m ≤ 32) (hb : b < 2 ^ m)
    (ho : s.oclosed = false) :
    ((outWrite n a s).andThen fun _ s => outWrite m b s) = outWrite (n + m) (a * 2 ^ m + b) s := by
  rw [outWrite_open ho hn (by omega), Act.andThen_done, outWrite_open (by exact ho) hm (by omega),
    outWrite_open ho (by omega) h1, field_concat a hb, List.append_assoc]

/-- Settles O16: the bits of two accesses are those of one. -/
theorem portAccessesConcatenate : Obligations.PortAccessesConcatenate := by
  refine ⟨fun n m s hn hm h1 hs h => ?_, fun n m a b s hn hm h1 hb ho => ?_⟩
  · obtain ⟨a, b, c, t, ha, hb, hc, hv⟩ := inRead_concat hn hm h1 hs h
    refine ⟨a, b, c, t, ?_, hc, hv⟩
    rw [ha, Act.andThen_done, hb, Act.andThen_done]
  · rw [outWrite_concat hn hm h1 hb ho]
    exact ⟨_, outWrite_open ho (by omega) h1 _, outWrite_open ho (by omega) h1 _⟩

/-- Settles O17: the field a write appends, bit by bit. -/
theorem writeAppendsTheLowBits : Obligations.WriteAppendsTheLowBits := by
  intro n v s h0 h1 ho
  rw [outWrite_open ho h0 h1, field_eq_map]

/-- Settles O18: the pad of R48 completes the last byte. -/
theorem closeCompletesTheLastByte : Obligations.CloseCompletesTheLastByte :=
  fun s ho => ⟨padLen s.obits.length, rfl, padLen_lt _, outClose_open ho, add_padLen_mod _, padLen_of_whole,
    by rw [pack_length, List.length_append, List.length_replicate]⟩

/-- Settles O19: a packed byte is the number of its eight bits, and there is one for each eight. -/
theorem outputBytesAreTheBits : Obligations.OutputBytesAreTheBits := by
  refine fun s => ⟨pack_length _, fun k hk => ?_⟩
  have hbits : 8 * k + 8 ≤ s.obits.length := by omega
  have h8 : ((s.obits.drop (8 * k)).take 8).length = 8 := by rw [List.length_take, List.length_drop]; omega
  rw [State.obytes, pack_getD hk, toNat_ofNat_num h8, num_take_drop hbits]

/-- Settles O20: unpacking undoes packing on whole bytes. -/
theorem deliveredBytesReadBackAsTheBits : Obligations.DeliveredBytesReadBackAsTheBits := by
  intro s t hwhole hin hpos
  rw [State.inBits, hpos, List.drop_zero, hin, State.obytes, unpack_pack hwhole]

end Sys2Proof.Machine
end

section
/-! SUPPORT. No command changes its input or takes back output: the frame of each piece (Laws/Frame.lean) taken through
fault entry, the order of commands and the runs of several commands (spec/20_memory.md R52, R54;
spec/70_reset_and_hazards.md R237). -/

namespace Sys2Proof.Machine

/-- The output of `s` begins that of `t`, and the input, the parameters and the host's side are the same. Of `Grows`,
the part that REWIND and fault entry keep too. -/
structure OnlyAppends (s t : State) : Prop where
  obits : s.obits <+: t.obits
  ibytes : t.ibytes = s.ibytes
  params : t.params = s.params
  inbox : t.inbox = s.inbox
  rdata : t.rdata = s.rdata
  taken : t.taken = s.taken

theorem OnlyAppends.trans {s t u : State} (h : OnlyAppends s t) (k : OnlyAppends t u) : OnlyAppends s u :=
  ⟨h.obits.trans k.obits, k.ibytes.trans h.ibytes, k.params.trans h.params, k.inbox.trans h.inbox,
    k.rdata.trans h.rdata, k.taken.trans h.taken⟩

theorem Grows.onlyAppends {s t : State} (h : Grows s t) : OnlyAppends s t :=
  ⟨h.obits, h.ibytes, h.params, h.inbox, h.rdata, h.taken⟩

theorem OnlyAppends.refl (s : State) : OnlyAppends s s := (Grows.refl s).onlyAppends

theorem onlyAppends_raise (e : Err) (s : State) : OnlyAppends s (s.raise e) :=
  { OnlyAppends.refl s with }

theorem onlyAppends_rewind (p : Phase) (s : State) : OnlyAppends s ((inReset s).enter p) :=
  { OnlyAppends.refl s with }

/-- Every next state of a command only appends to the state before it. -/
def Appends (c : State → Result) : Prop := ∀ s t : State, c s = .next t → OnlyAppends s t

/-- The end of a piece that grows the output, done or raised, only appends (R209). -/
theorem Act.All.finish_onlyAppends {s t : State} {x : Act Unit} (h : x.All (Grows s)) (e : x.finish = .next t) :
    OnlyAppends s t := by
  obtain rfl | ⟨err, u, rfl, rfl⟩ := Act.finish_eq_next.mp e
  · exact Grows.onlyAppends h
  · exact (Grows.onlyAppends h).trans (onlyAppends_raise err u)

theorem finish_appends {rule : State → Act Unit} (h : ∀ s, (rule s).All (Grows s)) :
    Appends fun s => (rule s).finish :=
  fun s _ e => (h s).finish_onlyAppends e

theorem issue_appends {i : Instr} {rule : State → Result} (h : Appends rule) : Appends (issue i rule) := by
  intro s t e
  rcases issue_cases i rule s with ⟨_, k⟩ | ⟨_, _, k⟩ | ⟨_, _, k⟩ <;> rw [k] at e
  · cases e; exact .refl s
  · exact h s t e
  · cases e; exact onlyAppends_raise _ s

theorem execClose_appends : Appends execClose := by
  have hrule : Appends fun s => (closeRule s).finish := finish_appends closeRule_grows
  intro s t e
  unfold execClose at e
  split at e
  · split at e
    · cases e; exact .refl s
    · exact hrule s t e
  · exact issue_appends hrule s t e

/-- COMPRESS and DECOMPRESS only append if their steps do: CLOSE, the last of them, does (R86). -/
theorem runSteps_appends {cs : List (State → Result)} (h : ∀ c ∈ cs, Appends c) : Appends (runSteps cs) := by
  induction cs with
  | nil => exact execClose_appends
  | cons c cs ih =>
    obtain ⟨hc, hcs⟩ := List.forall_mem_cons.mp h
    intro s t e
    cases k : c s with
    | next u =>
      refine (hc s u k).trans ?_
      by_cases hu : u.phase = .fault
      · exact execClose_appends u t (runSteps_fault k hu ▸ e)
      · exact ih hcs u t (runSteps_next k hu ▸ e)
    | fault r => simp [runSteps, k] at e
    | refused r => simp [runSteps, k] at e

theorem execCount_appends : Appends execCount := issue_appends (finish_appends countRule_grows)
theorem execBuild_appends : Appends execBuild := issue_appends (finish_appends buildRule_grows)
theorem execGenCodes_appends : Appends execGenCodes := issue_appends (finish_appends genCodesRule_grows)
theorem execWrMagic_appends : Appends execWrMagic := issue_appends (finish_appends wrMagicRule_grows)
theorem execWrTree_appends : Appends execWrTree := issue_appends (finish_appends wrTreeRule_grows)
theorem execEncBody_appends : Appends execEncBody := issue_appends (finish_appends encBodyRule_grows)
theorem execRdMagic_appends : Appends execRdMagic := issue_appends (finish_appends rdMagicRule_grows)
theorem execRdTree_appends : Appends execRdTree := issue_appends (finish_appends rdTreeRule_grows)
theorem execDecBody_appends : Appends execDecBody := issue_appends (finish_appends decBodyRule_grows)

theorem execRewind_appends : Appends execRewind :=
  issue_appends fun s _ e => by cases e; exact onlyAppends_rewind _ s

theorem execCompress_appends : Appends execCompress :=
  issue_appends (runSteps_appends (by
    simp only [List.forall_mem_cons]
    exact ⟨execCount_appends, execBuild_appends, execGenCodes_appends, execWrMagic_appends, execWrTree_appends,
      execRewind_appends, execEncBody_appends, nofun⟩))

theorem execDecompress_appends : Appends execDecompress :=
  issue_appends (runSteps_appends (by
    simp only [List.forall_mem_cons]
    exact ⟨execRdMagic_appends, execRdTree_appends, execDecBody_appends, nofun⟩))

/-- Every instruction, a record's writing among them, only appends. -/
theorem exec_appends (i : Instr) : Appends (exec i) := by
  cases i with
  | count => exact execCount_appends
  | build => exact execBuild_appends
  | genCodes => exact execGenCodes_appends
  | wrMagic => exact execWrMagic_appends
  | wrTree => exact execWrTree_appends
  | rewind => exact execRewind_appends
  | encBody => exact execEncBody_appends
  | close => exact execClose_appends
  | rdMagic => exact execRdMagic_appends
  | rdTree => exact execRdTree_appends
  | decBody => exact execDecBody_appends
  | compress => exact execCompress_appends
  | decompress => exact execDecompress_appends
  | hdrMagic m => exact finish_appends (outWrite_grows 32 m.toNat)
  | treeInternal => exact finish_appends (outWrite_grows 1 0)
  | treeLeaf v => exact finish_appends (putLeaf_grows v)
  | bodyCode p => exact finish_appends (emit_grows p)
  | pad p => exact finish_appends (outBits_grows (List.replicate p false))

/-- Settles O60: each instruction is made of pieces that only append. -/
theorem commandsOnlyAppend : Obligations.CommandsOnlyAppend := by
  intro i s t e
  obtain ⟨hout, hin, hparams, hinbox, hrdata, htaken⟩ := exec_appends i s t e
  exact ⟨hout, hin, hparams, hinbox, hrdata, htaken⟩

end Sys2Proof.Machine
end

section
/-! SUPPORT. From the invariant nothing stops and nothing is refused (spec/30_encoding.md R71; spec/45_decoder.md R186;
spec/70_reset_and_hazards.md R244): the widths are the ports' own, the output is open, the tables are there. -/

namespace Sys2Proof.Machine

/-! ### The ports are never misused -/

/-- No port refuses the piece (U10, U11). -/
def Act.NeverRefused {α : Type} (x : Act α) : Prop := ∀ r, x ≠ .refused r

theorem Act.neverRefused_done {α : Type} (a : α) (s : State) : (Act.done a s).NeverRefused := nofun

theorem Act.neverRefused_raised {α : Type} (e : Err) (s : State) : (Act.raised e s : Act α).NeverRefused := nofun

/-- A sequence is never refused if neither of its parts is. -/
theorem Act.NeverRefused.andThen {α β : Type} {x : Act α} {f : α → State → Act β} (h : x.NeverRefused)
    (k : ∀ a t, x = .done a t → (f a t).NeverRefused) : (x.andThen f).NeverRefused := by
  intro r e
  obtain e | ⟨a, t, ha, e⟩ := Act.andThen_eq_refused.mp e
  · exact h r e
  · exact k a t ha r e

/-- A read of a width the port has is never refused (R42). -/
theorem inRead_neverRefused {n : Nat} (h0 : 1 ≤ n) (h1 : n ≤ 32) (s : State) : (inRead n s).NeverRefused := by
  rcases inRead_cases n s with ⟨h, _⟩ | ⟨_, _, _, e⟩ | ⟨_, _, _, v, d, _, e⟩
  · exact absurd ⟨h0, h1⟩ h
  · rw [e]; exact Act.neverRefused_done _ _
  · rw [e]; exact Act.neverRefused_done _ _

theorem getRecord_neverRefused (count : Nat) (s : State) : (getRecord count s).NeverRefused := by
  refine (inRead_neverRefused (by decide) (by decide) s).andThen fun a t _ => ?_
  match a with
  | .eos => exact Act.neverRefused_raised _ t
  | .val b =>
    dsimp only
    split
    · exact Act.neverRefused_raised _ t
    · split
      · exact Act.neverRefused_done _ t
      · refine (inRead_neverRefused (by decide) (by decide) t).andThen fun a u _ => ?_
        match a with
        | .eos => exact Act.neverRefused_raised _ u
        | .val v =>
          dsimp only
          split
          · exact Act.neverRefused_raised _ u
          · exact Act.neverRefused_done _ u

theorem getTree_neverRefused (bound count : Nat) (s : State) : (getTree bound count s).NeverRefused := by
  induction bound generalizing count s with
  | zero => exact nofun
  | succ bound ih =>
    refine (getRecord_neverRefused count s).andThen fun a t _ => ?_
    cases a with
    | leaf v => exact Act.neverRefused_done _ t
    | internal =>
      exact (ih _ t).andThen fun lc u _ => (ih _ u).andThen fun rc v _ => Act.neverRefused_done _ v

theorem getCode_neverRefused (t : Tree) (s : State) : (getCode t s).NeverRefused := by
  induction t generalizing s with
  | leaf v w => exact Act.neverRefused_done _ s
  | node w l r ihl ihr =>
    refine (inRead_neverRefused (by decide) (by decide) s).andThen fun a u _ => ?_
    match a with
    | .eos => exact Act.neverRefused_raised _ u
    | .val b =>
      dsimp only
      split
      · exact ihl u
      · exact ihr u

theorem putCode_neverRefused (v : Sym) {s : State} (ho : s.oclosed = false) : (putCode v s).NeverRefused := by
  unfold putCode
  split
  · exact Act.neverRefused_raised _ s
  · rw [emit_open _ ho]; exact Act.neverRefused_done _ _

theorem encLoop_neverRefused (bound : Nat) {s : State} (ho : s.oclosed = false) :
    (encLoop bound s).NeverRefused := by
  induction bound generalizing s with
  | zero => exact nofun
  | succ bound ih =>
    refine (inRead_neverRefused (by decide) (by decide) s).andThen fun a t et => ?_
    match a with
    | .eos => exact Act.neverRefused_done _ t
    | .val b =>
      have ht : t.oclosed = false := ((inRead_movesPorts 8 s).of_done et).oclosed.trans ho
      exact (putCode_neverRefused _ ht).andThen fun _ u eu =>
        ih (((putCode_movesPorts _ ht).of_done eu).oclosed.trans ht)

theorem decLoop_neverRefused (root : Tree) (bound : Nat) {s : State} (ho : s.oclosed = false) :
    (decLoop root bound s).NeverRefused := by
  induction bound generalizing s with
  | zero => exact nofun
  | succ bound ih =>
    refine (getCode_neverRefused root s).andThen fun v t et => ?_
    have ht : t.oclosed = false := ((getCode_movesPorts root s).of_done et).oclosed.trans ho
    split
    · exact Act.neverRefused_done _ t
    · rw [outWrite_open ht (by decide) (by decide)]
      exact ih (by exact ht)

/-! ### The rules of the commands answer a next state -/

/-- The piece ends its command with a next state: it is done, or it raises a fault of the spec (R209). -/
def Act.Answers (x : Act Unit) : Prop := ∃ t, x.finish = .next t

theorem Act.answers_done (t : State) : (Act.done () t).Answers := ⟨t, rfl⟩

theorem Act.answers_raised (e : Err) (t : State) : (Act.raised e t).Answers := ⟨t.raise e, rfl⟩

/-- A rule answers if its first piece neither stops nor is refused, and the rest of it answers. -/
theorem answers_andThen {α : Type} {x : Act α} {f : α → State → Act Unit} (hh : ∀ r, x ≠ .halted r)
    (hr : x.NeverRefused) (k : ∀ a t, x = .done a t → (f a t).Answers) : (x.andThen f).Answers := by
  cases x with
  | done a t => exact k a t rfl
  | raised e t => exact Act.answers_raised e t
  | halted r => exact absurd rfl (hh r)
  | refused r => exact absurd rfl (hr r)

theorem countRule_answers {s : State} (hp : HoldsIn s .idle) : (countRule s).Answers := by
  obtain ⟨-, ⟨hpos, hs⟩, -⟩ := hp
  have hb : s.inBits = unpack s.ibytes := by rw [State.inBits, hpos, List.drop_zero]
  rw [countRule]
  obtain e | e | ⟨k, -, e⟩ := countLoop_cases s.readBound (Vector.replicate 257 0) hs hb
  · exact absurd e (countLoop_not_halted _ le_rfl _)
  · rw [e]; exact Act.answers_done _
  · rw [e]; exact Act.answers_raised _ _

/-- BUILD's table is there, and its queue holds at least `PSEUDO_EOF` (R100, R118). -/
theorem buildRule_answers {s : State} (hp : HoldsIn s .counted) : (buildRule s).Answers := by
  obtain ⟨-, hfreq, -⟩ := hp
  obtain ⟨t, e, -⟩ := buildTree_ok (tie := s.params.tie) (f := freqOf s.ibytes) (s := pseudoEof)
    (by rw [freqOf_eof]; decide)
  rw [buildRule, needFreq, hfreq, Act.andThen_done, e]
  exact Act.answers_done _

theorem genCodesRule_answers {s : State} (hp : HoldsIn s .built) : (genCodesRule s).Answers := by
  obtain ⟨-, -, ⟨t, htree, -⟩, -⟩ := hp
  rw [genCodesRule, needTree, htree]
  exact Act.answers_done _

theorem wrMagicRule_answers {s : State} (hp : HoldsIn s .coded) : (wrMagicRule s).Answers := by
  obtain ⟨⟨⟨-, ho⟩, -⟩, -⟩ := hp
  rw [wrMagicRule, putMagic, outWrite_open ho (by decide) (by decide)]
  exact Act.answers_done _

theorem wrTreeRule_answers {s : State} (hp : HoldsIn s .magicW) : (wrTreeRule s).Answers := by
  obtain ⟨⟨-, ho⟩, -, ⟨t, htree, -⟩, -⟩ := hp
  rw [wrTreeRule, needTree, htree, Act.andThen_done, putTree_open t ho]
  exact Act.answers_done _

theorem encBodyRule_answers {s : State} (hp : HoldsIn s .rewound) : (encBodyRule s).Answers := by
  obtain ⟨⟨⟨-, ho⟩, -⟩, -⟩ := hp
  refine answers_andThen (encLoop_not_halted le_rfl) (encLoop_neverRefused _ ho) fun _ t et => ?_
  have ht : t.oclosed = false := ((encLoop_movesPorts _ ho).of_done et).oclosed.trans ho
  exact answers_andThen (putCode_not_halted _ t) (putCode_neverRefused _ ht) fun _ u _ => Act.answers_done _

theorem closeRule_answers {s : State} (ho : s.oclosed = false) : (closeRule s).Answers := by
  rw [closeRule, outClose_open ho]
  exact Act.answers_done _

theorem rdMagicRule_answers (s : State) : (rdMagicRule s).Answers := by
  refine answers_andThen (inRead_not_halted 32 s) (inRead_neverRefused (by decide) (by decide) s) fun a t _ => ?_
  match a with
  | .eos => exact Act.answers_raised _ t
  | .val m =>
    dsimp only
    split
    · exact Act.answers_done _
    · exact Act.answers_raised _ t

theorem rdTreeRule_answers (s : State) : (rdTreeRule s).Answers := by
  refine answers_andThen (getTree_not_halted 0 le_rfl) (getTree_neverRefused _ 0 _) fun tc t _ => ?_
  split
  · exact Act.answers_raised _ t
  · exact Act.answers_done _

/-- DECBODY's tree is there; its loop is entered only for a tree whose codes have at least one bit (R133, R183). -/
theorem decBodyRule_answers {s : State} (hp : HoldsIn s .treeR) : (decBodyRule s).Answers := by
  obtain ⟨⟨-, ho⟩, ⟨t, htree, -⟩, -, -⟩ := hp
  rw [decBodyRule, needTree, htree]
  dsimp only [Act.andThen_done]
  split
  · exact Act.answers_done _
  · next hl =>
    exact answers_andThen (decLoop_not_halted (eq_false_of_ne_true hl) le_rfl) (decLoop_neverRefused t _ ho)
      fun _ u _ => Act.answers_done _

/-! ### The commands answer a next state -/

/-- The command answers a next state from every state of the invariant. -/
def Answers (c : State → Result) : Prop := ∀ s : State, Invariant s → ∃ t, c s = .next t

theorem issue_answers {i : Instr} {rule : State → Result}
    (h : ∀ s, Invariant s → s.phase ∈ legalPhases i → ∃ t, rule s = .next t) : Answers (issue i rule) := by
  intro s hs
  rcases issue_cases i rule s with ⟨_, k⟩ | ⟨_, hp, k⟩ | ⟨_, _, k⟩ <;> rw [k]
  · exact ⟨_, rfl⟩
  · exact h s hs hp
  · exact ⟨_, rfl⟩

/-- A command with one legal phase answers if its rule does from that phase. -/
theorem issue_rule_answers {i : Instr} {p : Phase} {rule : State → Act Unit} (hp : legalPhases i = [p])
    (h : ∀ s, HoldsIn s p → (rule s).Answers) : Answers (issue i fun s => (rule s).finish) :=
  issue_answers fun s hs hl => h s (hs.holdsIn (List.mem_singleton.mp (hp ▸ hl)))

theorem execCount_answers : Answers execCount := issue_rule_answers rfl fun _ => countRule_answers
theorem execBuild_answers : Answers execBuild := issue_rule_answers rfl fun _ => buildRule_answers
theorem execGenCodes_answers : Answers execGenCodes := issue_rule_answers rfl fun _ => genCodesRule_answers
theorem execWrMagic_answers : Answers execWrMagic := issue_rule_answers rfl fun _ => wrMagicRule_answers
theorem execWrTree_answers : Answers execWrTree := issue_rule_answers rfl fun _ => wrTreeRule_answers
theorem execRewind_answers : Answers execRewind := issue_answers fun _ _ _ => ⟨_, rfl⟩
theorem execEncBody_answers : Answers execEncBody := issue_rule_answers rfl fun _ => encBodyRule_answers
theorem execRdMagic_answers : Answers execRdMagic := issue_answers fun s _ _ => rdMagicRule_answers s
theorem execRdTree_answers : Answers execRdTree := issue_answers fun s _ _ => rdTreeRule_answers s
theorem execDecBody_answers : Answers execDecBody := issue_rule_answers rfl fun _ => decBodyRule_answers

/-- CLOSE is only run on an open output: in `FAULT` it is checked, and in the phases of a body it is open (R71, R73). -/
theorem execClose_answers : Answers execClose := by
  intro s hs
  unfold execClose
  split
  · split
    · exact ⟨_, rfl⟩
    · next ho => exact closeRule_answers (eq_false_of_ne_true ho)
  · refine issue_answers (fun s hs hp => ?_) s hs
    have hn : s.phase ≠ .fault ∧ s.phase ≠ .done := by
      rcases List.mem_pair.mp hp with k | k <;> rw [k] <;> decide
    exact closeRule_answers (hs.running hn).2

/-- COMPRESS and DECOMPRESS answer if each of their steps does and hands on a state of the invariant (R86). -/
theorem runSteps_answers {cs : List (State → Result)} (h : ∀ c ∈ cs, Answers c ∧ Keeps c) :
    Answers (runSteps cs) := by
  induction cs with
  | nil => exact execClose_answers
  | cons c cs ih =>
    obtain ⟨⟨ha, hk⟩, hcs⟩ := List.forall_mem_cons.mp h
    intro s hs
    obtain ⟨u, e⟩ := ha s hs
    by_cases hu : u.phase = .fault
    · rw [runSteps_fault e hu]; exact execClose_answers u (hk s u hs e)
    · rw [runSteps_next e hu]; exact ih hcs u (hk s u hs e)

theorem execCompress_answers : Answers execCompress :=
  issue_answers fun s h _ => runSteps_answers (by
    simp only [List.forall_mem_cons]
    exact ⟨⟨execCount_answers, execCount_keeps⟩, ⟨execBuild_answers, execBuild_keeps⟩,
      ⟨execGenCodes_answers, execGenCodes_keeps⟩, ⟨execWrMagic_answers, execWrMagic_keeps⟩,
      ⟨execWrTree_answers, execWrTree_keeps⟩, ⟨execRewind_answers, execRewind_keeps⟩,
      ⟨execEncBody_answers, execEncBody_keeps⟩, nofun⟩) s h

theorem execDecompress_answers : Answers execDecompress :=
  issue_answers fun s h _ => runSteps_answers (by
    simp only [List.forall_mem_cons]
    exact ⟨⟨execRdMagic_answers, execRdMagic_keeps⟩, ⟨execRdTree_answers, execRdTree_keeps⟩,
      ⟨execDecBody_answers, execDecBody_keeps⟩, nofun⟩) s h

/-- Every command answers; a record alone may be refused, but no word is one (R72, R75). -/
theorem exec_answers {i : Instr} (hi : i.isCommand = true) : Answers (exec i) := by
  cases i with
  | count => exact execCount_answers
  | build => exact execBuild_answers
  | genCodes => exact execGenCodes_answers
  | wrMagic => exact execWrMagic_answers
  | wrTree => exact execWrTree_answers
  | rewind => exact execRewind_answers
  | encBody => exact execEncBody_answers
  | close => exact execClose_answers
  | rdMagic => exact execRdMagic_answers
  | rdTree => exact execRdTree_answers
  | decBody => exact execDecBody_answers
  | compress => exact execCompress_answers
  | decompress => exact execDecompress_answers
  | hdrMagic | treeInternal | treeLeaf | bodyCode | pad => simp [Instr.isCommand] at hi

/-! ### The moves of the host are answered -/

theorem issueWord_answers (w : Word) : Answers (issueWord w) := by
  intro s h
  unfold issueWord
  split
  · next hd => exact exec_answers (isCommand_of_decode hd) s h
  · split <;> exact ⟨_, rfl⟩

theorem hostMove_answers (m : HostMove) : Answers (hostMove m) := by
  intro s h
  match m with
  | .write .cmd w => exact issueWord_answers w s h
  | .write .status _ | .read _ | .reset _ | .resetDuring _ _ _ => exact ⟨_, rfl⟩

/-- Settles O58: each move of the host is answered, and a written command is because its rule finds the tables, widths and
open output it needs in each phase in which R73 lets it run. -/
theorem invariantStatesNeverStop : Obligations.InvariantStatesNeverStop := by
  intro s h
  match hm : s.inbox with
  | [] => exact ⟨s, step_eq_wait hm⟩
  | m :: rest =>
    rw [step_eq_hostMove hm]
    exact hostMove_answers m _ (h.hostSide rest s.rdata)

end Sys2Proof.Machine
end

section
/-! SUPPORT. The decoders and the encoder (spec/30_encoding.md R70 to R81): for each of them the one equivalence that
says when it answers what. -/

namespace Sys2Proof

/-! ### The command word -/

/-- The reserved bits are zero exactly below 16 (R70). -/
theorem reservedBits_eq_zero_iff (w : Word) : w.extractLsb' 4 28 = 0 ↔ w.toNat < 16 := by
  rw [← BitVec.toNat_inj, BitVec.extractLsb'_toNat, Nat.shiftRight_eq_div_pow]
  have := w.isLt
  simp; omega

/-- The opcode is the word modulo 16 (R70). -/
theorem opcodeBits_toNat (w : Word) : (w.extractLsb' 0 4).toNat = w.toNat % 16 := by
  rw [BitVec.extractLsb'_toNat, Nat.shiftRight_zero]

/-- An opcode field read as the number it is. -/
theorem opcodeBits_eq_iff (w : Word) (o : BitVec 4) : w.extractLsb' 0 4 = o ↔ w.toNat % 16 = o.toNat := by
  rw [← BitVec.toNat_inj, opcodeBits_toNat]

theorem encodeWord_eq_some_iff {i : Instr} {w : Word} :
    encodeWord i = some w ↔ ∃ o, opcode i = some o ∧ w.toNat = o.toNat := by
  have hword (o : BitVec 4) : o.zeroExtend 32 = w ↔ w.toNat = o.toNat := by
    rw [← BitVec.toNat_inj, BitVec.toNat_setWidth_of_le (by decide), eq_comm]
  rw [encodeWord, Option.map_eq_some_iff]
  simp_rw [hword]

/-- The 13 opcodes (R72). -/
theorem opcode_range {i : Instr} {o : BitVec 4} (h : opcode i = some o) : 1 ≤ o.toNat ∧ o.toNat ≤ 13 := by
  cases i <;> cases h <;> decide

/-- The decoder and the encoder of command words are each other's inverse (R70, R72). -/
theorem decode_eq_ok_iff {w : Word} {i : Instr} : decode w = .ok i ↔ encodeWord i = some w := by
  constructor
  · intro h
    rw [encodeWord_eq_some_iff]
    unfold decode at h
    split at h
    · cases h
    · next hz =>
      have hw : (w.extractLsb' 0 4).toNat = w.toNat := by
        rw [opcodeBits_toNat, Nat.mod_eq_of_lt ((reservedBits_eq_zero_iff w).mp (not_not.mp hz))]
      split at h <;> cases h <;> next ho => exact ⟨_, rfl, hw.symm.trans ho⟩
  · intro h
    cases i <;> cases h <;> rfl

theorem decode_isOk_iff (w : Word) : (∃ i, decode w = .ok i) ↔ 1 ≤ w.toNat ∧ w.toNat ≤ 13 := by
  constructor
  · rintro ⟨i, h⟩
    obtain ⟨o, ho, hw⟩ := encodeWord_eq_some_iff.mp (decode_eq_ok_iff.mp h)
    exact hw ▸ opcode_range ho
  · intro h
    have hall : ∀ n ∈ Finset.Icc 1 13, (decode (BitVec.ofNat 32 n)).isOk = true := by decide
    have hok := hall w.toNat (Finset.mem_Icc.mpr h)
    rw [BitVec.ofNat_toNat, BitVec.setWidth_eq] at hok
    cases e : decode w with
    | ok i => exact ⟨i, rfl⟩
    | error r => rw [e] at hok; cases hok

/-- The 13 command words are those without a reserved bit and without a reserved opcode (R74). -/
theorem not_reserved_iff (w : Word) :
    ¬ (w.extractLsb' 4 28 ≠ 0 ∨ w.extractLsb' 0 4 = 0x0 ∨ w.extractLsb' 0 4 = 0xE ∨ w.extractLsb' 0 4 = 0xF) ↔
      1 ≤ w.toNat ∧ w.toNat ≤ 13 := by
  rw [ne_eq, reservedBits_eq_zero_iff, opcodeBits_eq_iff, opcodeBits_eq_iff, opcodeBits_eq_iff]
  simp; omega

/-- Settles O1: the words of R72 and some of R74's, evaluated. -/
theorem commandWordsDecode : Obligations.CommandWordsDecode :=
  ⟨rfl, rfl, rfl, rfl, rfl, rfl, rfl, rfl, rfl, rfl, rfl, rfl, rfl, rfl, rfl, rfl, rfl, rfl⟩

/-- Settles O2: a word that decodes is the word of its command, so its number is one of the 13 opcodes. -/
theorem exactlyThirteenWordsAreCommands : Obligations.ExactlyThirteenWordsAreCommands :=
  ⟨decode_isOk_iff, fun w => (decode_isOk_iff w).trans (not_reserved_iff w).symm, fun _ _ => decode_eq_ok_iff⟩

/-! ### Fields and codes off the head of a bit string -/

theorem takeBits_eq_ok_iff {n : Nat} {bits p rest : Bits} :
    takeBits n bits = .ok (p, rest) ↔ bits = p ++ rest ∧ p.length = n := by
  unfold takeBits
  split
  · next h =>
    simp only [Except.ok.injEq, Prod.mk.injEq]
    constructor
    · rintro ⟨rfl, rfl⟩
      exact ⟨(List.take_append_drop n bits).symm, List.length_take_of_le h⟩
    · rintro ⟨rfl, hp⟩
      exact ⟨List.take_left' hp, List.drop_left' hp⟩
  · next h =>
    simp only [reduceCtorEq, false_iff]
    rintro ⟨rfl, hp⟩
    exact h (by rw [List.length_append]; omega)

/-- A bit string of the field's width is the field of one number only (R7). -/
theorem ofNat_num_eq_iff {n : Nat} {p : Bits} (hp : p.length = n) (v : BitVec n) :
    BitVec.ofNat n (num p) = v ↔ p = field n v.toNat := by
  have hnum : num (field n v.toNat) = v.toNat := by rw [num_field, Nat.mod_eq_of_lt v.isLt]
  rw [← BitVec.toNat_inj, toNat_ofNat_num hp]
  exact ⟨fun h => num_injective (by rw [hp, field_length]) (h.trans hnum.symm), fun h => (congrArg num h).trans hnum⟩

/-- A field read off the head of a bit string (R7). -/
theorem takeBits_field_iff {n : Nat} {bits rest : Bits} {v : BitVec n} :
    (∃ p, takeBits n bits = .ok (p, rest) ∧ BitVec.ofNat n (num p) = v) ↔ bits = field n v.toNat ++ rest := by
  constructor
  · rintro ⟨p, h, hv⟩
    obtain ⟨rfl, hp⟩ := takeBits_eq_ok_iff.mp h
    rw [← (ofNat_num_eq_iff hp v).mp hv]
  · intro h
    have hl := field_length n v.toNat
    exact ⟨_, takeBits_eq_ok_iff.mpr ⟨h, hl⟩, (ofNat_num_eq_iff hl v).mpr rfl⟩

@[simp] theorem takeCode_leaf (v : Sym) (w : Nat) (bits : Bits) : takeCode (.leaf v w) bits = .ok ([], bits) := by
  cases bits <;> rfl

@[simp] theorem takeCode_node_nil (w : Nat) (l r : Tree) : takeCode (.node w l r) [] = .error .shortStream := rfl

/-- A step of the walk takes one bit and goes on in its subtree (R79). -/
theorem takeCode_node_cons {w : Nat} {l r : Tree} {b : Bool} {bits p rest : Bits} :
    takeCode (.node w l r) (b :: bits) = .ok (p, rest) ↔
      ∃ q, p = b :: q ∧ takeCode (if b then r else l) bits = .ok (q, rest) := by
  rw [takeCode]
  split <;> next e => simp [e, eq_comm]

/-- A code is taken off the head exactly if it is a path to a leaf (R79). -/
theorem takeCode_eq_ok_iff {t : Tree} {bits p rest : Bits} :
    takeCode t bits = .ok (p, rest) ↔ bits = p ++ rest ∧ ∃ v w, t.follow p = some (.leaf v w) := by
  induction t generalizing bits p with
  | leaf v w =>
    simp only [takeCode_leaf, Tree.follow_leaf, Except.ok.injEq, Prod.mk.injEq]
    constructor
    · rintro ⟨rfl, rfl⟩
      exact ⟨rfl, v, w, rfl, rfl⟩
    · rintro ⟨rfl, _, _, rfl, -⟩
      exact ⟨rfl, rfl⟩
  | node w l r ihl ihr =>
    cases bits with
    | nil => cases p <;> simp
    | cons b bits =>
      have ih (q : Bits) : takeCode (if b then r else l) bits = .ok (q, rest) ↔
          bits = q ++ rest ∧ ∃ v w, (if b then r else l).follow q = some (.leaf v w) := by
        cases b
        · exact ihl
        · exact ihr
      simp only [takeCode_node_cons, ih]
      cases p with
      | nil => simp
      | cons c p =>
        by_cases hbc : b = c
        · subst hbc; simp [apply_ite Tree.follow, ite_apply]
        · simp [hbc, Ne.symm hbc]

/-! ### The bits of a command -/

theorem isCommand_iff {i : Instr} : i.isCommand = true ↔ ∃ w, encodeWord i = some w := by
  cases i <;> simp [Instr.isCommand, encodeWord, opcode]

theorem encode_of_encodeWord {i : Instr} {w : Word} (h : encodeWord i = some w) : encode i = field 32 w.toNat := by
  cases i <;> cases h <;> rfl

theorem wellFormed_of_isCommand {i : Instr} (h : i.isCommand = true) : i.wellFormed = true := by
  cases i <;> simp_all [Instr.isCommand, Instr.wellFormed]

theorem admits_cmd_iff {rest : Bits} {i : Instr} : Admits .cmd rest i ↔ i.isCommand = true := by
  cases i <;> simp [Admits, Instr.isCommand]

/-! ### What decodes in each place -/

/-- The place of a command word (R70, R72). -/
theorem decodeBits_cmd_iff {bits rest : Bits} {i : Instr} :
    decodeBits .cmd bits = .ok (i, rest) ↔ i.isCommand = true ∧ bits = encode i ++ rest := by
  have hdecode : decodeBits .cmd bits = .ok (i, rest) ↔
      ∃ w : Word, encodeWord i = some w ∧ bits = field 32 w.toNat ++ rest := by
    simp only [← takeBits_field_iff, ← decode_eq_ok_iff, decodeBits]
    cases takeBits 32 bits with
    | error e => simp
    | ok pr =>
      obtain ⟨p, r⟩ := pr
      cases hd : decode (BitVec.ofNat 32 (num p)) with
      | error e => simp [hd]
      | ok j => simp [hd]
  rw [hdecode, isCommand_iff]
  constructor
  · rintro ⟨w, hw, rfl⟩
    exact ⟨⟨w, hw⟩, by rw [encode_of_encodeWord hw]⟩
  · rintro ⟨⟨w, hw⟩, rfl⟩
    exact ⟨w, hw, by rw [encode_of_encodeWord hw]⟩

/-- The place of the magic field (R76). -/
theorem decodeBits_magic_iff {bits rest : Bits} {i : Instr} :
    decodeBits .magic bits = .ok (i, rest) ↔ ∃ m, i = .hdrMagic m ∧ bits = field 32 m.toNat ++ rest := by
  simp only [decodeBits, ← takeBits_field_iff]
  cases takeBits 32 bits with
  | error e => simp
  | ok pr => obtain ⟨p, r⟩ := pr; simp [eq_comm]

/-- The place of a tree record (R77, R78). -/
theorem decodeBits_tree_iff {bits rest : Bits} {i : Instr} :
    decodeBits .tree bits = .ok (i, rest) ↔ (i = .treeInternal ∧ bits = false :: rest) ∨
      ∃ v : BitVec 9, v.toNat ≤ 256 ∧ i = .treeLeaf v ∧ bits = true :: (field 9 v.toNat ++ rest) := by
  match bits with
  | [] => simp [decodeBits]
  | false :: bits => simp [decodeBits, eq_comm]
  | true :: bits =>
    simp only [List.cons.injEq, true_and, reduceCtorEq, false_and, and_false, false_or, ← takeBits_field_iff,
      decodeBits]
    cases h : takeBits 9 bits with
    | error e => simp
    | ok pr =>
      obtain ⟨p, r⟩ := pr
      have hv : num p % 512 = num p := by
        rw [← toNat_ofNat_num (takeBits_eq_ok_iff.mp h).2, BitVec.toNat_mod_cancel]
      by_cases hs : num p ≤ 256 <;> simp [hs, hv, eq_comm]

/-- The place of a code: the body read by its tree (R79). -/
theorem decodeBits_body_iff {t : Tree} {bits rest : Bits} {i : Instr} :
    decodeBits (.body t) bits = .ok (i, rest) ↔
      ∃ p, i = .bodyCode p ∧ bits = p ++ rest ∧ ∃ v w, t.follow p = some (.leaf v w) := by
  simp only [decodeBits, ← takeCode_eq_ok_iff]
  cases takeCode t bits with
  | error e => simp
  | ok pr => obtain ⟨p, r⟩ := pr; simp [eq_comm]

/-- The place of the pad (R81). -/
theorem decodeBits_pad_iff {bits rest : Bits} {i : Instr} :
    decodeBits .pad bits = .ok (i, rest) ↔
      ∃ p, p ≤ 7 ∧ i = .pad p ∧ bits = List.replicate p false ∧ rest = [] := by
  have hzero : bits.all (! ·) = true ↔ bits = List.replicate bits.length false := by
    simp [List.eq_replicate_iff]
  simp only [decodeBits, Bool.and_eq_true, decide_eq_true_eq, hzero]
  split
  · next h =>
    obtain ⟨hl, hz⟩ := h
    simp only [Except.ok.injEq, Prod.mk.injEq]
    constructor
    · rintro ⟨rfl, rfl⟩
      exact ⟨bits.length, hl, rfl, hz, rfl⟩
    · rintro ⟨p, -, rfl, rfl, rfl⟩
      simp
  · next h =>
    simp only [reduceCtorEq, false_iff]
    rintro ⟨p, hp, -, rfl, -⟩
    exact h (by simpa using hp)

/-- Settles O3: in the place its record has, the bits of each instruction are what that place decodes. -/
theorem decodeOfEncodeIsTheInstruction : Obligations.DecodeOfEncodeIsTheInstruction := by
  intro i sp rest hw ha
  cases i with
  | hdrMagic m => cases ha; exact decodeBits_magic_iff.mpr ⟨m, rfl, rfl⟩
  | treeInternal => cases ha; exact decodeBits_tree_iff.mpr (.inl ⟨rfl, rfl⟩)
  | treeLeaf v => cases ha; exact decodeBits_tree_iff.mpr (.inr ⟨v, of_decide_eq_true hw, rfl, rfl⟩)
  | bodyCode p =>
    obtain ⟨t, v, w, rfl, hf⟩ := ha
    exact decodeBits_body_iff.mpr ⟨p, rfl, rfl, v, w, hf⟩
  | pad p =>
    obtain ⟨rfl, rfl⟩ := ha
    exact decodeBits_pad_iff.mpr ⟨p, of_decide_eq_true hw, rfl, List.append_nil _, rfl⟩
  | count | build | genCodes | wrMagic | wrTree | rewind | encBody | close | rdMagic | rdTree | decBody | compress
  | decompress => cases ha; exact decodeBits_cmd_iff.mpr ⟨rfl, rfl⟩

/-- Settles O4: each place decodes the bits of its own records and no others. -/
theorem encodeOfDecodedIsTheBits : Obligations.EncodeOfDecodedIsTheBits := by
  intro i sp bits rest h
  cases sp with
  | cmd =>
    obtain ⟨hi, rfl⟩ := decodeBits_cmd_iff.mp h
    exact ⟨rfl, admits_cmd_iff.mpr hi, fun _ => wellFormed_of_isCommand hi⟩
  | magic =>
    obtain ⟨m, rfl, rfl⟩ := decodeBits_magic_iff.mp h
    exact ⟨rfl, rfl, fun _ => rfl⟩
  | tree =>
    obtain ⟨rfl, rfl⟩ | ⟨v, hv, rfl, rfl⟩ := decodeBits_tree_iff.mp h
    · exact ⟨rfl, rfl, fun _ => rfl⟩
    · exact ⟨rfl, rfl, fun _ => decide_eq_true hv⟩
  | body t =>
    obtain ⟨p, rfl, rfl, v, w, hf⟩ := decodeBits_body_iff.mp h
    exact ⟨rfl, ⟨t, v, w, rfl, hf⟩, fun hn => absurd rfl (hn t)⟩
  | pad =>
    obtain ⟨p, hp, rfl, rfl, rfl⟩ := decodeBits_pad_iff.mp h
    exact ⟨(List.append_nil _).symm, ⟨rfl, rfl⟩, fun _ => decide_eq_true hp⟩

end Sys2Proof
end

section
/-! SUPPORT. A record's meaning is its writing (spec/30_encoding.md R76 to R81; spec/44_encoder.md R162), and a step runs
the command that is written (R71). -/

namespace Sys2Proof.Machine

/-! ### The records -/

theorem outBits_closed {s : State} (h : s.oclosed = true) (p : Bits) : outBits p s = .refused .portClosed := by
  rw [outBits, if_pos h]

theorem outWrite_closed {s : State} (h : s.oclosed = true) {n : Nat} (h0 : 1 ≤ n) (h1 : n ≤ 32) (v : Nat) :
    outWrite n v s = .refused .portClosed := by
  rw [outWrite, if_neg (by omega), outBits_closed h]

theorem emit_nil (s : State) : emit [] s = .done () s := rfl

/-- Any code but the empty one is at least one write (R162). -/
theorem emit_closed {s : State} (h : s.oclosed = true) {p : Bits} (hp : p ≠ []) : emit p s = .refused .portClosed := by
  have hl := List.length_pos_of_ne_nil hp
  unfold emit emitPair
  split
  · obtain ⟨q, hq⟩ : ∃ q, p.length / 32 = q + 1 := ⟨p.length / 32 - 1, by omega⟩
    rw [hq, emitGroups, outWrite_closed h (by decide) (by decide), Act.andThen_refused]
  · rw [outWrite_closed h (by omega) (by omega), Act.andThen_refused]

theorem putLeaf_closed {s : State} (h : s.oclosed = true) (v : BitVec 9) : putLeaf v s = .refused .portClosed := by
  rw [putLeaf, outWrite_closed h (by decide) (by decide), Act.andThen_refused]

/-- Settles O21: a record ends with its write, which an open output takes and a closed one refuses. -/
theorem recordsAppendTheirBits : Obligations.RecordsAppendTheirBits :=
  ⟨fun _ h =>
    ⟨fun m => congrArg Act.finish (outWrite_open h (by decide) (by decide) m.toNat),
      congrArg Act.finish (putInternal_open h),
      fun v => congrArg Act.finish (putLeaf_open v h),
      fun p => congrArg Act.finish (emit_open p h),
      fun p => congrArg Act.finish (outBits_open h (List.replicate p false))⟩,
    fun s h =>
    ⟨fun m => congrArg Act.finish (outWrite_closed h (by decide) (by decide) m.toNat),
      congrArg Act.finish (outWrite_closed h (by decide) (by decide) 0),
      fun v => congrArg Act.finish (putLeaf_closed h v),
      fun _ hp => congrArg Act.finish (emit_closed h hp),
      congrArg Act.finish (emit_nil s),
      fun p => congrArg Act.finish (outBits_closed h (List.replicate p false))⟩⟩

/-! ### The written command -/

/-- A word that decodes runs its command (R71). -/
theorem issueWord_of_decode {w : Word} {i : Instr} (h : decode w = .ok i) (s : State) : issueWord w s = exec i s := by
  rw [issueWord, h]

/-- Settles O5: the step takes the move, and the move issues the word. -/
theorem stepRunsTheWrittenCommand : Obligations.StepRunsTheWrittenCommand :=
  ⟨fun _ _ _ _ hm hd => (step_eq_hostMove hm).trans (issueWord_of_decode hd _), fun _ => step_eq_wait⟩

end Sys2Proof.Machine
end

section
/-! SUPPORT. COUNT and REWIND (spec/40_frequency_analyzer.md): what COUNT answers on an input whose counts fit and at
the first byte that does not, and the table of an input as the counts of one list of symbols. -/

namespace Sys2Proof.Machine

/-! ### The input port -/

/-- At position 0 the bits to come are those of the whole input (R41). -/
theorem inBits_of_ipos_zero {s : State} (h : s.ipos = 0) : s.inBits = unpack s.ibytes := by
  rw [State.inBits, h, List.drop_zero]

/-- An end-of-stream answer with no bit left moves nothing (R43). -/
theorem State.afterEos_of_end {s : State} (h : s.inLen = s.ipos) :
    s.afterEos = { s with stale := true, draws := s.draws + 1 } := by
  rw [State.afterEos, h, Nat.sub_self, Nat.zero_add, Nat.mod_one, Nat.add_zero]

/-! ### COUNT's loop, byte by byte -/

/-- A byte whose counter has room is counted (R100). -/
theorem countLoop_tick {bound : Nat} {f : Vector Nat 257} {s : State} {b : Byte} {rest : Bits} (hs : s.stale = false)
    (hb : s.inBits = byteBits b ++ rest) (hfit : countFits s.params f[byteSym b] = true) :
    countLoop (bound + 1) f s = countLoop bound (tick f b) { s with ipos := s.ipos + 8 } := by
  rw [countLoop, inRead_byte hs hb, Act.andThen_done]
  exact if_pos hfit

/-- A byte whose counter is full raises `COUNT_OVERFLOW` (R101). -/
theorem countLoop_overflow {bound : Nat} {f : Vector Nat 257} {s : State} {b : Byte} {rest : Bits}
    (hs : s.stale = false) (hb : s.inBits = byteBits b ++ rest) (hfull : countFits s.params f[byteSym b] = false) :
    countLoop (bound + 1) f s = .raised .countOverflow { s with ipos := s.ipos + 8, freq := none } := by
  rw [countLoop, inRead_byte hs hb, Act.andThen_done]
  exact if_neg (Bool.not_eq_true _ ▸ hfull)

/-- The counter of a byte value after a byte string (R100). -/
theorem foldl_tick_byteSym (f : Vector Nat 257) (bs : List Byte) (b : Byte) :
    (bs.foldl tick f)[byteSym b] = f[byteSym b] + bs.count b := by
  rw [foldl_tick_get, ← freqOf_byte, freqOf_get, if_neg (byteSym_ne_eof b)]

/-- COUNT's loop over a part of the input whose counts fit, up to what comes after it (R100). -/
theorem countLoop_append {bound : Nat} {f : Vector Nat 257} {s : State} {bs : List Byte} {rest : Bits}
    (hs : s.stale = false) (hb : s.inBits = unpack bs ++ rest)
    (hf : ∀ k, s.params.countBits = some k → ∀ b : Byte, f[byteSym b] + bs.count b < 2 ^ k) :
    countLoop (bs.length + bound) f s =
      countLoop bound (bs.foldl tick f) { s with ipos := s.ipos + 8 * bs.length } := by
  induction bs generalizing f s with
  | nil => simp
  | cons b bs ih =>
    rw [unpack_cons, List.append_assoc] at hb
    have hfit : countFits s.params f[byteSym b] = true := countFits_of_lt fun k hk => by
      have := hf k hk b
      rw [List.count_cons_self] at this
      omega
    have hrest : ∀ k, s.params.countBits = some k → ∀ c : Byte, (tick f b)[byteSym c] + bs.count c < 2 ^ k := by
      intro k hk c
      rw [← foldl_tick_byteSym, ← List.foldl_cons, foldl_tick_byteSym]
      exact hf k hk c
    rw [List.length_cons, Nat.add_right_comm, countLoop_tick hs hb hfit,
      ih (s := { s with ipos := s.ipos + 8 }) hs (inBits_advance' hb (byteBits_length b)) hrest, List.foldl_cons]
    simp only [Nat.mul_succ, Nat.add_assoc, Nat.add_comm 8]

/-- Counts that fit do so from the counters COUNT starts with, which are all zero (R100). -/
theorem CountsFit.from_zero {p : Params} {bs : List Byte} (h : CountsFit p bs) :
    ∀ k, p.countBits = some k → ∀ b : Byte, (Vector.replicate 257 0)[byteSym b] + bs.count b < 2 ^ k :=
  fun k hk b => by simpa using h k hk b

/-! ### The commands -/

/-- A command with one legal phase runs its rule from that phase (R73). -/
theorem issue_of_phase {i : Instr} {p : Phase} {rule : State → Result} {s : State} (hl : legalPhases i = [p])
    (hf : p ≠ .fault) (hp : s.phase = p) : issue i rule s = rule s :=
  issue_legal (hp ▸ hf) (hl ▸ List.mem_singleton.mpr hp)

theorem exec_count_idle {s : State} (hp : s.phase = .idle) : exec .count s = (countRule s).finish := by
  rw [exec, execCount, issue_of_phase rfl (by decide) hp]

/-- COUNT on an input whose counts fit (R100). -/
theorem exec_count_fits {s : State} (hp : s.phase = .idle) (hpos : s.ipos = 0) (hs : s.stale = false)
    (hfit : CountsFit s.params s.ibytes) :
    exec .count s = .next { s with
      freq := some (freqOf s.ibytes), phase := .counted, ipos := 8 * s.ibytes.length, stale := true,
      draws := s.draws + 1 } := by
  have hbound : s.ibytes.length < s.readBound := by
    rw [State.readBound, State.inLen, hpos]
    omega
  have hend : State.inLen { s with ipos := s.ipos + 8 * s.ibytes.length } = s.ipos + 8 * s.ibytes.length := by
    rw [State.inLen, hpos, Nat.zero_add]
  rw [exec_count_idle hp, countRule, countLoop_fits hs (inBits_of_ipos_zero hpos) hbound hfit.from_zero,
    Act.andThen_done, Act.finish_done, tally_eq_freqOf, State.afterEos_of_end hend, hpos, Nat.zero_add]

/-- A counter that holds `2^COUNT_BITS − 1` is full (R101). -/
theorem countFits_full {p : Params} {k : Nat} (hk : p.countBits = some k) : countFits p (2 ^ k - 1) = false := by
  simp [countFits, hk]

/-- COUNT at the first byte whose counter is full (R101). -/
theorem exec_count_overflow {s : State} {k : Nat} {bs rest : List Byte} {b : Byte} (hp : s.phase = .idle)
    (hpos : s.ipos = 0) (hs : s.stale = false) (hk : s.params.countBits = some k)
    (hin : s.ibytes = bs ++ b :: rest) (hfit : CountsFit s.params bs) (hfull : bs.count b = 2 ^ k - 1) :
    exec .count s = .next (State.raise .countOverflow { s with ipos := 8 * (bs.length + 1), freq := none }) := by
  have hbits : s.inBits = unpack bs ++ unpack (b :: rest) := by
    rw [inBits_of_ipos_zero hpos, hin, unpack_append]
  obtain ⟨n, hn⟩ : ∃ n, s.readBound = bs.length + (n + 1) := by
    refine ⟨s.readBound - bs.length - 1, ?_⟩
    rw [State.readBound, State.inLen, hpos, hin, List.length_append, List.length_cons]
    omega
  have hcounter : countFits s.params (bs.foldl tick (Vector.replicate 257 0))[byteSym b] = false := by
    rw [foldl_tick_byteSym, hfull]
    simpa using countFits_full hk
  have hnext : State.inBits { s with ipos := s.ipos + 8 * bs.length } = byteBits b ++ unpack rest := by
    rw [inBits_advance' hbits (unpack_length bs), unpack_cons]
  rw [exec_count_idle hp, countRule, hn, countLoop_append hs hbits hfit.from_zero,
    countLoop_overflow (by exact hs) hnext hcounter, Act.andThen_raised, Act.finish_raised, hpos, Nat.zero_add,
    Nat.mul_succ]

/-- A COUNT that does not fault leaves the table of its input, whatever the width of the counters (R100). -/
theorem freq_of_exec_count {s u : State} (hp : s.phase = .idle) (hpos : s.ipos = 0) (hs : s.stale = false)
    (h : exec .count s = .next u) (hu : u.phase ≠ .fault) : u.freq = some (freqOf s.ibytes) := by
  rw [exec_count_idle hp, countRule] at h
  obtain e | e | ⟨k, -, e⟩ := countLoop_cases s.readBound (Vector.replicate 257 0) hs (inBits_of_ipos_zero hpos) <;>
    rw [e] at h
  · cases h
  · cases h
    exact congrArg some (tally_eq_freqOf _)
  · cases h
    exact absurd rfl hu

/-! ### The table of an input -/

theorem eof_notMem_map_byteSym (bs : List Byte) : pseudoEof ∉ bs.map byteSym := fun h => by
  obtain ⟨b, -, hb⟩ := List.mem_map.mp h
  exact byteSym_ne_eof b hb

/-- The table counts the symbols of the input with `PSEUDO_EOF` before them (R11). -/
theorem freqOf_eq_count (bs : List Byte) (v : Sym) : (freqOf bs)[v] = (pseudoEof :: bs.map byteSym).count v := by
  obtain rfl | ⟨b, rfl⟩ := sym_cases v
  · rw [freqOf_eof, List.count_cons_self, List.count_eq_zero_of_not_mem (eof_notMem_map_byteSym bs)]
  · rw [freqOf_byte, List.count_cons_of_ne (byteSym_ne_eof b).symm,
      List.count_map_of_injective bs byteSym fun _ _ => byteSym_injective]

theorem sum_freqOf (bs : List Byte) : ∑ v : Sym, (freqOf bs)[v] = bs.length + 1 := by
  simp_rw [freqOf_eq_count, ← Multiset.coe_count]
  rw [Multiset.sum_count_eq_card fun _ _ => Finset.mem_univ _, Multiset.coe_card, List.length_cons, List.length_map]

theorem sum_freqOf_bytes (bs : List Byte) : ∑ i : Fin 256, (freqOf bs)[i.castSucc] = bs.length := by
  have htotal := sum_freqOf bs
  have heof : (freqOf bs)[Fin.last 256] = 1 := freqOf_eof bs
  rw [Fin.sum_univ_castSucc, heof] at htotal
  exact Nat.succ.inj htotal

/-- The symbols with a count are `PSEUDO_EOF` and those of the input, each once (R103). -/
theorem presentSyms_freqOf_perm (bs : List Byte) :
    (presentSyms (freqOf bs)).Perm (pseudoEof :: (bs.map byteSym).dedup) := by
  have hnodup : (pseudoEof :: (bs.map byteSym).dedup).Nodup :=
    List.nodup_cons.mpr ⟨fun h => eof_notMem_map_byteSym bs (List.mem_dedup.mp h), List.nodup_dedup _⟩
  refine (List.perm_ext_iff_of_nodup (presentSyms_nodup _) hnodup).mpr fun v => ?_
  rw [mem_presentSyms, freqOf_eq_count, ← Nat.pos_iff_ne_zero, List.count_pos_iff, List.mem_cons, List.mem_cons,
    List.mem_dedup]

theorem presentSyms_freqOf_length (bs : List Byte) :
    (presentSyms (freqOf bs)).length = (bs.map byteSym).dedup.length + 1 :=
  (presentSyms_freqOf_perm bs).length_eq

theorem presentSyms_length_le (f : Vector Nat 257) : (presentSyms f).length ≤ 257 :=
  (List.length_filter_le _ _).trans_eq (List.length_finRange)

/-- `PSEUDO_EOF` alone has a count exactly for the empty input (R103). -/
theorem presentSyms_freqOf_length_eq_one {bs : List Byte} : (presentSyms (freqOf bs)).length = 1 ↔ bs = [] := by
  rw [presentSyms_freqOf_length, Nat.add_eq_right, List.length_eq_zero_iff, List.dedup_eq_nil, List.map_eq_nil_iff]

/-! ### The statements -/

/-- Settles O22: the loop over the whole input, and the table it leaves. -/
theorem countTabulatesTheInput : Obligations.CountTabulatesTheInput :=
  fun s hp hpos hs hfit =>
    ⟨freqOf s.ibytes, exec_count_fits hp hpos hs hfit, freqOf_byte s.ibytes, freqOf_eof s.ibytes⟩

/-- Settles O23: the loop up to the byte, and the byte. -/
theorem countOverflowFaults : Obligations.CountOverflowFaults := by
  intro s k bs rest b hp hpos hs herr hk hin hfit hfull
  rw [exec_count_overflow hp hpos hs hk hin hfit hfull, State.raise, if_pos herr]

/-- Settles O24: the table left is that of the input, and its entries are the counts of a list of `N + 1` symbols. -/
theorem countsSumToTheLength : Obligations.CountsSumToTheLength := by
  intro s u hp hpos hs h hu
  refine ⟨freqOf s.ibytes, freq_of_exec_count hp hpos hs h hu, ?_, ?_, freqOf_eof _, ?_,
    presentSyms_length_le _, presentSyms_freqOf_length_eq_one⟩
  · rw [← Fin.sum_univ_def, sum_freqOf_bytes]
  · rw [← Fin.sum_univ_def, sum_freqOf]
  · exact (Nat.le_add_left 1 _).trans_eq (presentSyms_freqOf_length s.ibytes).symm

/-- Settles O25: TREE_W is REWIND's phase. -/
theorem rewindReturnsToTheStart : Obligations.RewindReturnsToTheStart := by
  intro s hp
  rw [exec, execRewind, issue_of_phase rfl (by decide) hp]
  rfl

end Sys2Proof.Machine
end

section
/-! SUPPORT. BUILD (spec/41_tree_builder.md): what it makes of a table, its first queue and its merges, and the trees of
the two smallest kinds of input. -/

namespace Sys2Proof.Machine

/-! ### The commands -/

theorem needFreq_some {s : State} {f : Vector Nat 257} (h : s.freq = some f) : needFreq s = .done f s := by
  rw [needFreq, h]

theorem needTree_some {s : State} {t : Tree} (h : s.tree = some t) : needTree s = .done t s := by
  rw [needTree, h]

/-- BUILD on a table the merges make a tree of (R111). -/
theorem exec_build_counted {s : State} {f : Vector Nat 257} {t : Tree} (hp : s.phase = .counted)
    (hf : s.freq = some f) (ht : buildTree s.params.tie f = .ok t) :
    exec .build s = .next { s with tree := some t, phase := .built } := by
  rw [exec, execBuild, issue_of_phase rfl (by decide) hp, buildRule, needFreq_some hf,
    Act.andThen_done, ht, Act.finish_done]

/-- GENCODES on a tree (R131). -/
theorem exec_genCodes_built {s : State} {t : Tree} (hp : s.phase = .built) (ht : s.tree = some t) :
    exec .genCodes s = .next { s with code := codeTable t, phase := .coded } := by
  rw [exec, execGenCodes, issue_of_phase rfl (by decide) hp, genCodesRule, needTree_some ht,
    Act.andThen_done, Act.finish_done]

/-! ### The queue's order -/

/-- The order the spec decides (R113). -/
theorem entryBefore_orderKey_iff (x y : Entry) :
    entryBefore .orderKey x y = true ↔ x.weight < y.weight ∨ (x.weight = y.weight ∧ x.order < y.order) := by
  simp only [entryBefore, Bool.or_eq_true, Bool.and_eq_true, decide_eq_true_eq]

/-- Under either order the lighter entry is before the other (R113). -/
theorem entryBefore_of_weight_lt {tie : Tie} {x y : Entry} (h : x.weight < y.weight) : entryBefore tie x y = true := by
  simp [entryBefore, h]

theorem not_entryBefore_of_before {tie : Tie} {x y : Entry} (h : entryBefore tie x y = true) :
    entryBefore tie y x = false := by
  by_contra hyx
  have hxx := entryBefore_trans h (Bool.not_eq_false _ ▸ hyx)
  exact Bool.false_ne_true ((entryBefore_irrefl tie x).symm.trans hxx)

/-! ### The tree of a table -/

/-- The leaves of a built tree are the symbols with a count (R117 (a)). -/
theorem BuiltFor.leaves_perm {f : Vector Nat 257} {t : Tree} (h : BuiltFor f t) : t.leaves.Perm (presentSyms f) :=
  (List.perm_ext_iff_of_nodup h.nodup (presentSyms_nodup f)).mpr fun v => (h.leaves v).trans mem_presentSyms.symm

/-- At most 257 leaves make at most 513 nodes (R115). -/
theorem BuiltFor.size_le {f : Vector Nat 257} {t : Tree} (h : BuiltFor f t) : t.size ≤ 513 := by
  have hsize := t.size_add_one
  have hleaves := h.leaves_perm.length_eq.trans_le (presentSyms_length_le f)
  omega

/-- The root's weight is the sum of all counts: the symbols that are no leaves count nothing (R117 (c)). -/
theorem BuiltFor.weight_eq {f : Vector Nat 257} {t : Tree} (h : BuiltFor f t) :
    t.weight = ((List.finRange 257).map fun v : Sym => f[v]).sum := by
  have habsent : ∀ v ∈ Finset.univ, v ∉ t.leaves.toFinset → f[v] = 0 := fun v _ hv =>
    not_not.mp fun hc => hv (List.mem_toFinset.mpr ((h.leaves v).mpr hc))
  rw [weight_eq_sum h.weighed, ← List.sum_toFinset _ h.nodup, Finset.sum_subset (Finset.subset_univ _) habsent,
    Fin.sum_univ_def]

/-- A table of zeros gives an empty first queue, and no tree. -/
theorem buildTree_of_no_syms {tie : Tie} {f : Vector Nat 257} (h : presentSyms f = []) :
    buildTree tie f = .error .emptyQueue := by
  have hq : leafQueue tie f = [] := by simpa [h] using leafQueue_perm tie f
  rw [buildTree, hq]
  rfl

/-- Every tree BUILD makes is one for its table (R117). -/
theorem builtFor_of_buildTree {tie : Tie} {f : Vector Nat 257} {t : Tree} (h : buildTree tie f = .ok t) :
    BuiltFor f t := by
  cases hsyms : presentSyms f with
  | nil =>
    rw [buildTree_of_no_syms hsyms] at h
    cases h
  | cons v _ =>
    obtain ⟨u, hu, hbuilt⟩ := buildTree_ok (tie := tie) (mem_presentSyms.mp (hsyms ▸ List.mem_cons_self (a := v)))
    cases h.symm.trans hu
    exact hbuilt

/-! ### The first queue -/

/-- A first-queue entry is that of a symbol with a count (R112). -/
theorem mem_leafQueue {tie : Tie} {f : Vector Nat 257} {e : Entry} :
    e ∈ leafQueue tie f ↔ ∃ v ∈ presentSyms f, leafEntry f v = e :=
  (leafQueue_perm tie f).mem_iff.trans List.mem_map

/-- Two leaf entries neither of which is before the other are the same: their order keys are their symbols (R113). -/
theorem leafEntry_eq_of_not_before {tie : Tie} {f : Vector Nat 257} {u v : Sym}
    (huv : entryBefore tie (leafEntry f u) (leafEntry f v) = false)
    (hvu : entryBefore tie (leafEntry f v) (leafEntry f u) = false) : leafEntry f u = leafEntry f v := by
  have horder : (leafEntry f u).order = (leafEntry f v).order := by
    by_contra hne
    rcases entryBefore_total (tie := tie) hne with h | h
    · exact Bool.false_ne_true (huv.symm.trans h)
    · exact Bool.false_ne_true (hvu.symm.trans h)
  rw [Fin.ext (a := u) (b := v) horder]

/-- The first queue is the only ordering of the leaf entries by the queue's order (R112, R113). -/
theorem leafQueue_eq {tie : Tie} {f : Vector Nat 257} {syms : List Sym} (hp : (presentSyms f).Perm syms)
    (hs : QueueSorted tie (syms.map (leafEntry f))) : leafQueue tie f = syms.map (leafEntry f) := by
  have hperm := (leafQueue_perm tie f).trans (hp.map (leafEntry f))
  refine List.Perm.eq_of_pairwise (fun x y hx hy hyx hxy => ?_) (leafQueue_sorted tie f) hs hperm
  obtain ⟨u, -, rfl⟩ := mem_leafQueue.mp hx
  obtain ⟨v, -, rfl⟩ := List.mem_map.mp hy
  exact leafEntry_eq_of_not_before hxy hyx

/-- A table with one symbol: the leaf is the result without a merge (R115). -/
theorem buildTree_of_one_sym {tie : Tie} {f : Vector Nat 257} {v : Sym} (hp : (presentSyms f).Perm [v]) :
    buildTree tie f = .ok (.leaf v f[v]) := by
  rw [buildTree, leafQueue_eq hp (List.pairwise_singleton _ _)]
  rfl

/-- A table with two symbols: one merge of their leaves, the least one left (R114). -/
theorem buildTree_of_two_syms {tie : Tie} {f : Vector Nat 257} {u v : Sym} (hp : (presentSyms f).Perm [u, v])
    (hb : entryBefore tie (leafEntry f v) (leafEntry f u) = false) :
    buildTree tie f = .ok (.node (f[u] + f[v]) (.leaf u f[u]) (.leaf v f[v])) := by
  rw [buildTree, leafQueue_eq hp (List.pairwise_pair.mpr hb)]
  rfl

/-! ### The merges -/

/-- A merge of the two entries at the head (R114). -/
theorem mergeLoop_cons_cons (tie : Tie) (bound k : Nat) (a b : Entry) (q : List Entry) :
    mergeLoop tie (bound + 1) k (a :: b :: q) =
      mergeLoop tie bound (k + 1) (queueInsert tie (mergeEntry k a b) q) := rfl

/-- One entry left is the result (R115). -/
theorem mergeLoop_singleton (tie : Tie) (k bound : Nat) (e : Entry) : mergeLoop tie bound k [e] = .ok e.tree := by
  cases bound <;> rfl

/-! ### One byte repeated -/

/-- The symbols of `n ≥ 1` copies of a byte (R119). -/
theorem presentSyms_replicate {n : Nat} (hn : n ≠ 0) (b : Byte) :
    (presentSyms (freqOf (List.replicate n b))).Perm [pseudoEof, byteSym b] := by
  simpa [List.map_replicate, List.replicate_dedup hn] using presentSyms_freqOf_perm (List.replicate n b)

theorem freqOf_replicate (n : Nat) (b : Byte) : (freqOf (List.replicate n b))[byteSym b] = n := by
  rw [freqOf_byte, List.count_replicate_self]

/-- Against two or more copies of a byte `PSEUDO_EOF` is lighter and goes left (R119). -/
theorem buildTree_replicate {tie : Tie} {n : Nat} (hn : 2 ≤ n) (b : Byte) :
    buildTree tie (freqOf (List.replicate n b)) = .ok (.node (n + 1) (.leaf pseudoEof 1) (.leaf (byteSym b) n)) := by
  have hlt : (freqOf (List.replicate n b))[pseudoEof] < (freqOf (List.replicate n b))[byteSym b] := by
    rw [freqOf_eof, freqOf_replicate]
    exact hn
  have hbefore := not_entryBefore_of_before (tie := tie)
    (entryBefore_of_weight_lt (x := leafEntry _ pseudoEof) (y := leafEntry _ (byteSym b)) hlt)
  rw [buildTree_of_two_syms (presentSyms_replicate (by omega) b) hbefore, freqOf_eof, freqOf_replicate, Nat.add_comm]

/-- A single byte is as light as `PSEUDO_EOF`, and by the spec's key it goes left (R119). -/
theorem buildTree_single (b : Byte) :
    buildTree .orderKey (freqOf (List.replicate 1 b)) = .ok (.node 2 (.leaf (byteSym b) 1) (.leaf pseudoEof 1)) := by
  have hbefore : entryBefore .orderKey (leafEntry (freqOf (List.replicate 1 b)) (byteSym b))
      (leafEntry (freqOf (List.replicate 1 b)) pseudoEof) = true :=
    (entryBefore_orderKey_iff _ _).mpr (.inr ⟨(freqOf_replicate 1 b).trans (freqOf_eof _).symm, b.isLt⟩)
  rw [buildTree_of_two_syms ((presentSyms_replicate one_ne_zero b).trans (.swap _ _ _))
    (not_entryBefore_of_before hbefore), freqOf_eof, freqOf_replicate]

/-- The codes of a tree of two leaves (R131). -/
theorem codeTable_two_leaves {u v : Sym} (h : u ≠ v) (w wu wv : Nat) :
    (codeTable (.node w (.leaf u wu) (.leaf v wv)))[u] = some [false] ∧
      (codeTable (.node w (.leaf u wu) (.leaf v wv)))[v] = some [true] := by
  have hnodup : (Tree.node w (.leaf u wu) (.leaf v wv)).leaves.Nodup := List.nodup_cons.mpr
    ⟨fun hm => h (List.mem_singleton.mp hm), List.nodup_singleton v⟩
  exact ⟨(codeTable_iff hnodup).mpr ⟨wu, rfl⟩, (codeTable_iff hnodup).mpr ⟨wv, rfl⟩⟩

/-! ### The empty input -/

theorem buildTree_empty (tie : Tie) : buildTree tie (freqOf []) = .ok (.leaf pseudoEof 1) := by
  rw [buildTree_of_one_sym (presentSyms_freqOf_perm []), freqOf_eof]

/-- The table of a bare leaf: the empty code for its symbol and no other (R133). -/
theorem codeTable_leaf (u v : Sym) (w : Nat) : (codeTable (.leaf u w))[v] = if v = u then some [] else none := by
  split
  case isTrue h =>
    subst h
    have hnodup : (Tree.leaf v w).leaves.Nodup := List.nodup_singleton v
    exact (codeTable_iff hnodup).mpr ⟨w, rfl⟩
  case isFalse h => exact codeTable_absent fun hm => h (List.mem_singleton.mp hm)

/-! ### The cost of the built tree -/

/-- The first queue's trees are leaves, which cost nothing (R110). -/
theorem leafQueue_cost (tie : Tie) (f : Vector Nat 257) :
    ((leafQueue tie f).map fun e => e.tree.cost f).sum = 0 := by
  refine List.sum_eq_zero fun c hc => ?_
  obtain ⟨e, he, rfl⟩ := List.mem_map.mp hc
  obtain ⟨v, -, rfl⟩ := mem_leafQueue.mp he
  rfl

/-- The weights of the first queue are the counts of the built tree's leaves (R112). -/
theorem BuiltFor.leafQueue_weights {f : Vector Nat 257} {t : Tree} (h : BuiltFor f t) (tie : Tie) :
    (t.leaves.map fun v => f[v]).Perm ((leafQueue tie f).map Entry.weight) := by
  have hqueue := (leafQueue_perm tie f).map Entry.weight
  rw [List.map_map] at hqueue
  exact (h.leaves_perm.map _).trans hqueue.symm

/-! ### The statements -/

/-- Settles O26: what the merges make of the table is built for it, and its size and root weight follow. -/
theorem buildMakesTheTree : Obligations.BuildMakesTheTree := by
  intro s f hp hf heof
  obtain ⟨t, ht, hbuilt⟩ := buildTree_ok (tie := s.params.tie) heof
  exact ⟨t, ht, exec_build_counted hp hf ht, hbuilt, t.size_add_one, hbuilt.size_le, hbuilt.weight_eq⟩

/-- Settles O27: the queue that goes on after a merge is the rest with the merged entry inserted. -/
theorem mergesTakeTheTwoLeast : Obligations.MergesTakeTheTwoLeast := fun tie =>
  ⟨fun f => ⟨rfl, leafQueue_perm tie f, leafQueue_sorted tie f⟩,
    fun k bound a b q hs =>
      ⟨queueInsert tie (mergeEntry k a b) q, queueInsert_sorted hs.of_cons.of_cons,
        queueInsert_perm tie (mergeEntry k a b) q, mergeLoop_cons_cons tie bound k a b q⟩,
    mergeLoop_singleton tie⟩

/-- Settles O28: both orders compare the weight first, and the order key last. -/
theorem queueOrderIsStrictAndTotal : Obligations.QueueOrderIsStrictAndTotal :=
  ⟨entryBefore_orderKey_iff, fun tie =>
    ⟨entryBefore_irrefl tie, fun _ _ _ => entryBefore_trans, fun _ _ => entryBefore_total,
      fun _ _ => entryBefore_of_weight_lt⟩⟩

/-- Settles O29: one merge of two leaves, which the weight decides for `n ≥ 2` and the order key for `n = 1`. -/
theorem singleByteInput : Obligations.SingleByteInput := by
  intro s b n hp htie hf
  constructor
  · intro hn
    exact ⟨exec_build_counted hp hf (buildTree_replicate hn b),
      codeTable_two_leaves (byteSym_ne_eof b).symm (n + 1) 1 n⟩
  · rintro rfl
    exact ⟨exec_build_counted hp hf (htie ▸ buildTree_single b), codeTable_two_leaves (byteSym_ne_eof b) 2 1 1⟩

/-- Settles O30: one leaf needs no merge, and its path is empty. -/
theorem emptyInputTree : Obligations.EmptyInputTree := fun s =>
  ⟨fun hp hf => exec_build_counted hp hf (buildTree_empty s.params.tie), fun hp ht =>
    ⟨codeTable (.leaf pseudoEof 1), exec_genCodes_built hp ht, fun v => codeTable_leaf pseudoEof v 1⟩⟩

/-- Settles O31: the other tree gives the first queue's entries depths that a complete tree can have, and no such depths
cost less than the merges. -/
theorem builtTreeIsOptimal : Obligations.BuiltTreeIsOptimal := by
  intro tie f t u ht hleaves
  obtain ⟨hkraft, hcost, hcounts⟩ := leafDepths_spec f u
  have hok : ∀ e ∈ leafQueue tie f, EntryOk f e := fun e he => by
    obtain ⟨v, -, rfl⟩ := mem_leafQueue.mp he
    exact leafEntry_ok f v
  have hweights : ((leafDepths f u).map Prod.fst).Perm ((leafQueue tie f).map Entry.weight) := by
    rw [hcounts]
    exact (hleaves.map _).trans ((builtFor_of_buildTree ht).leafQueue_weights tie)
  have hle := mergeLoop_cost_le ht (leafQueue_sorted tie f) hok hweights hkraft
  rwa [leafQueue_cost, Nat.zero_add, hcost] at hle

end Sys2Proof.Machine
end

section
/-! SUPPORT. GENCODES (spec/42_code_table_generator.md): which paths are codes, when a code is empty, and the lengths of a
tree's codes against the depths of its leaves. -/

namespace Sys2Proof.Machine

/-! ### The paths of a tree -/

/-- A leaf's path is empty only when the leaf is the whole tree (R133). -/
theorem path_eq_nil_iff {t : Tree} {p : Bits} {v : Sym} {w : Nat} (h : t.follow p = some (.leaf v w)) :
    p = [] ↔ t.leaves.length = 1 := by
  cases t with
  | leaf => exact iff_of_true (Tree.follow_leaf.mp h).1 rfl
  | node x l r =>
    have hp : p ≠ [] := by
      rintro rfl
      simp at h
    have hl := l.leaves_length_pos
    have hr := r.leaves_length_pos
    refine iff_of_false hp ?_
    rw [Tree.leaves, List.length_append]
    omega

/-- The listed paths lead to the leaves they are listed with (R131). -/
theorem follow_of_mem_paths {t : Tree} {x : Sym × Bits} (h : x ∈ t.paths) :
    ∃ w, t.follow x.2 = some (.leaf x.1 w) := by
  induction t generalizing x with
  | leaf s w =>
    cases List.mem_singleton.mp h
    exact ⟨w, rfl⟩
  | node _ l r ihl ihr =>
    rcases List.mem_append.mp h with h | h
    · obtain ⟨y, hy, rfl⟩ := List.mem_map.mp h
      exact ihl hy
    · obtain ⟨y, hy, rfl⟩ := List.mem_map.mp h
      exact ihr hy

/-! ### The codes of a tree -/

/-- In a tree without repeated symbols the codes are the listed paths (R131). -/
theorem codeOf_of_mem_paths {t : Tree} (hn : t.leaves.Nodup) {x : Sym × Bits} (h : x ∈ t.paths) :
    codeOf t x.1 = x.2 := by
  rw [codeOf, (codeTable_iff hn).mpr (follow_of_mem_paths h), Option.getD_some]

/-- A leaf symbol's code is the path of a leaf of that symbol, whatever other leaves the symbol has (R131). -/
theorem codeTable_leaf_path {t : Tree} {v : Sym} (h : v ∈ t.leaves) :
    ∃ p w, (codeTable t)[v] = some p ∧ t.follow p = some (.leaf v w) := by
  obtain ⟨p, hp⟩ := codeTable_present h
  obtain ⟨w, hw⟩ := codeTable_path hp
  exact ⟨p, w, hp, hw⟩

/-- One code begins another only when they are codes of the same symbol (R135). -/
theorem eq_of_codeTable_isPrefix {t : Tree} {u v : Sym} {p q : Bits} (hu : (codeTable t)[u] = some p)
    (hv : (codeTable t)[v] = some q) (h : p <+: q) : u = v := by
  obtain ⟨_, hp⟩ := codeTable_path hu
  obtain ⟨_, hq⟩ := codeTable_path hv
  cases (Tree.follow_of_isPrefix hp hq h).2
  rfl

/-- The code lengths of a tree without repeated symbols are the depths of its leaves (R135). -/
theorem sum_codeOf_eq_kraft {t : Tree} (hn : t.leaves.Nodup) (f : Vector Nat 257) :
    (t.leaves.map fun v => (1 / 2 : ℚ) ^ (codeOf t v).length).sum = kraft (leafDepths f t) := by
  rw [← paths_leaves, kraft, leafDepths, List.map_map, List.map_map]
  refine congrArg List.sum (List.map_congr_left fun x hx => ?_)
  rw [Function.comp_apply, codeOf_of_mem_paths hn hx, Function.comp_apply]

/-! ### The statements -/

/-- Settles O32: the table is the walk's, and every entry of the walk is the path of a leaf. -/
theorem genCodesRecordsThePaths : Obligations.GenCodesRecordsThePaths := by
  intro s t hp ht
  refine ⟨codeTable t, exec_genCodes_built hp ht, fun v => codeTable_absent, fun v hv => ?_,
    fun hn v p => codeTable_iff hn⟩
  obtain ⟨p, w, hcode, hpath⟩ := codeTable_leaf_path hv
  exact ⟨p, w, hcode, hpath, Tree.path_length_lt hpath, path_eq_nil_iff hpath⟩

/-- Settles O33: nothing goes on from a leaf, and the leaves' depths are those of a complete tree; the counts the depths
are listed with play no part. -/
theorem codesArePrefixFree : Obligations.CodesArePrefixFree := by
  intro t
  refine ⟨fun u v p q hu hv hne h => hne (eq_of_codeTable_isPrefix hu hv h), fun hn => ?_⟩
  rw [sum_codeOf_eq_kraft hn (Vector.replicate 257 0)]
  exact (leafDepths_spec _ t).1

end Sys2Proof.Machine
end

section
/-! SUPPORT. WRTREE and RDTREE (spec/43_tree_serdes.md): what the record reader raises at the record where a tree goes
wrong, and what RDTREE answers on a serialization and after an incomplete tree's records. -/

namespace Sys2Proof.Machine

/-! ### Sizes -/

/-- A node has at least one bit (R82, R148). -/
theorem size_le_ser_length (t : Tree) : t.size ≤ t.ser.length := by
  have hs := t.size_add_one
  have hb := t.ser_length_add_one
  omega

/-- What the bits to come begin with is shorter than the bound on the reads (R244). -/
theorem length_lt_readBound {s : State} {p rest : Bits} (hb : s.inBits = p ++ rest) : p.length < s.readBound := by
  have hl := s.inBits_length
  rw [hb, List.length_append] at hl
  rw [State.readBound]
  omega

/-- Up to the end of the stream the position and the bits still to come make up its length (R16, R41). -/
theorem inLen_eq_of_inBits {s : State} {p : Bits} (hi : s.ipos ≤ s.inLen) (hb : s.inBits = p) :
    s.inLen = s.ipos + p.length := by
  have hl := s.inBits_length
  rw [hb] at hl
  omega

/-! ### Fault entry -/

/-- The first fault of a call is the one the register takes (R21, R209). -/
theorem raise_of_noErr {s : State} (h : s.err = .none) (e : Err) :
    s.raise e = { s with err := e, phase := .fault } := by
  rw [State.raise, if_pos h]

/-! ### Symbol fields -/

/-- The values 257 to 511 of a leaf's field are no symbols (R78). -/
theorem fieldSym_eq_none {v : BitVec 9} (h : 256 < v.toNat) : fieldSym v = none := dif_neg (by omega)

/-! ### The records that are faults -/

theorem FitsNodeCap.mono {p : Params} {n m : Nat} (h : FitsNodeCap p n) (hm : m ≤ n) : FitsNodeCap p m :=
  fun c hc => hm.trans (h c hc)

/-- The stream ends where a flag bit is expected (R144). -/
theorem getRecord_no_flag {count : Nat} {s : State} (hend : s.inLen = s.ipos) :
    getRecord count s = .raised .malformedTree s.afterEos := by
  rw [getRecord, inRead_end (by decide) (by decide) (by omega), Act.andThen_done]

/-- The flag of a node beyond `NODE_CAP` (R145 (b)). -/
theorem getRecord_over_cap {count : Nat} {s : State} {flag : Bool} {rest : Bits} (hs : s.stale = false)
    (hb : s.inBits = flag :: rest) (hc : ¬ FitsNodeCap s.params (count + 1)) :
    getRecord count s = .raised .illegalTree { s with ipos := s.ipos + 1 } := by
  rw [getRecord, inRead_bit hs hb, Act.andThen_done]
  exact if_pos (nodeCap_any.mpr hc)

/-- The stream ends after a `1` flag, inside the symbol field (R144). -/
theorem getRecord_short_field {count : Nat} {s : State} {q : Bits} (hs : s.stale = false)
    (hb : s.inBits = true :: q) (hc : FitsNodeCap s.params (count + 1)) (hend : s.inLen < s.ipos + 10) :
    getRecord count s = .raised .malformedTree (State.afterEos { s with ipos := s.ipos + 1 }) := by
  rw [getRecord, inRead_bit hs hb, Act.andThen_done]
  simp only [nodeCap_any, hc, not_true_eq_false, if_false]
  rw [if_neg (by decide), inRead_end (by decide) (by decide) (by exact hend), Act.andThen_done]

/-- A leaf whose field is no symbol (R145 (a)). -/
theorem getRecord_bad_field {count : Nat} {s : State} {v : Nat} {rest : Bits} (hs : s.stale = false)
    (hb : s.inBits = true :: (field 9 v ++ rest)) (hc : FitsNodeCap s.params (count + 1)) (h0 : 256 < v)
    (h1 : v < 512) : getRecord count s = .raised .illegalTree { s with ipos := s.ipos + 10 } := by
  have hv : 256 < (BitVec.ofNat 9 (num (field 9 v))).toNat := by
    rwa [toNat_ofNat_num (field_length 9 v), num_field, Nat.mod_eq_of_lt (by exact h1)]
  rw [getRecord, inRead_bit hs hb, Act.andThen_done]
  simp only [nodeCap_any, hc, not_true_eq_false, if_false]
  rw [if_neg (by decide), inRead_fresh (n := 9) (by decide) (by decide) (by exact hs) (inBits_bit hb)
    (field_length 9 v), Act.andThen_done]
  simp only [fieldSym_eq_none hv]

/-! ### The commands -/

/-- WRTREE on an open output (R141). -/
theorem exec_wrTree_magicW {s : State} {t : Tree} (hp : s.phase = .magicW) (ht : s.tree = some t)
    (ho : s.oclosed = false) : exec .wrTree s = .next { s with obits := s.obits ++ t.ser, phase := .treeW } := by
  rw [exec, execWrTree, issue_of_phase rfl (by decide) hp, wrTreeRule, needTree_some ht, Act.andThen_done,
    putTree_open t ho, Act.andThen_done, Act.finish_done, State.enter]

theorem exec_rdTree_magicR {s : State} (hp : s.phase = .magicR) : exec .rdTree s = (rdTreeRule s).finish := by
  rw [exec, execRdTree, issue_of_phase rfl (by decide) hp]

/-- RDTREE's reading of a serialization, before its root check (R146). -/
theorem getTree_rdTree_ser {s : State} {t : Tree} {rest : Bits} (hs : s.stale = false) (hb : s.inBits = t.ser ++ rest)
    (hc : FitsNodeCap s.params t.size) :
    getTree s.readBound 0 { s with tree := none } =
      .done (t.shape, t.size) { s with tree := none, ipos := s.ipos + t.ser.length } := by
  have hbound : t.size ≤ s.readBound := (size_le_ser_length t).trans (length_lt_readBound hb).le
  have h := getTree_ser t (count := 0) (s := { s with tree := none }) hbound hs hb (by rwa [Nat.zero_add])
  rwa [Nat.zero_add] at h

/-- RDTREE on a tree with a legal root (R143). -/
theorem exec_rdTree_legal {s : State} {t : Tree} {rest : Bits} (hp : s.phase = .magicR) (hs : s.stale = false)
    (hb : s.inBits = t.ser ++ rest) (hc : FitsNodeCap s.params t.size) (hroot : LegalRoot t) :
    exec .rdTree s = .next { s with tree := some t.shape, ipos := s.ipos + t.ser.length, phase := .treeR } := by
  have hlegal : ¬ (t.shape.isLeaf = true ∧ t.shape.value ≠ 256) := by
    rw [Tree.shape_isLeaf, Tree.shape_value]
    exact fun ⟨hl, hv⟩ => hv (hroot hl)
  rw [exec_rdTree_magicR hp, rdTreeRule, getTree_rdTree_ser hs hb hc, Act.andThen_done, if_neg hlegal, Act.finish_done]

/-- RDTREE on a tree whose root is refused (R145 (c)). -/
theorem exec_rdTree_bare {s : State} {v : Sym} {rest : Bits} (hp : s.phase = .magicR) (hs : s.stale = false)
    (he : s.err = .none) (hb : s.inBits = true :: (field9 v ++ rest)) (hc : FitsNodeCap s.params 1)
    (hv : v ≠ pseudoEof) :
    exec .rdTree s = .next { s with tree := none, ipos := s.ipos + 10, err := .illegalTree, phase := .fault } := by
  have hbare : (Tree.leaf v 0).shape.isLeaf = true ∧ (Tree.leaf v 0).shape.value ≠ 256 :=
    ⟨rfl, fun h => hv (Fin.ext h)⟩
  rw [exec_rdTree_magicR hp, rdTreeRule, getTree_rdTree_ser (t := .leaf v 0) hs hb hc, Act.andThen_done, if_pos hbare,
    Act.finish_raised, Tree.ser, List.length_cons, field9_length, raise_of_noErr (by exact he)]

/-- RDTREE raises what the record after an incomplete tree's records raises (R210). -/
theorem exec_rdTree_raises {s u : State} {e : Err} {rs : List TreeRecord} {tail : Bits} (hp : s.phase = .magicR)
    (hs : s.stale = false) (hr : Unfinished rs) (hb : s.inBits = recordsBits rs ++ tail)
    (hc : FitsNodeCap s.params rs.length) (he : u.err = .none)
    (hx : getRecord rs.length { s with tree := none, ipos := s.ipos + (recordsBits rs).length } = .raised e u) :
    exec .rdTree s = .next { u with err := e, phase := .fault } := by
  have hbound : rs.length < s.readBound := (length_le_recordsBits rs).trans_lt (length_lt_readBound hb)
  have hraise : getTree s.readBound 0 { s with tree := none } = .raised e u :=
    getTree_raises hs hr hb (by rwa [Nat.zero_add]) hbound (by rwa [Nat.zero_add])
  rw [exec_rdTree_magicR hp, rdTreeRule, hraise, Act.andThen_raised, Act.finish_raised, raise_of_noErr he]

/-- RDTREE where that record meets the end of the stream at position `n` (R43, R144). -/
theorem exec_rdTree_truncated {s : State} {rs : List TreeRecord} {tail : Bits} {n : Nat} (hp : s.phase = .magicR)
    (hs : s.stale = false) (he : s.err = .none) (hr : Unfinished rs) (hb : s.inBits = recordsBits rs ++ tail)
    (hc : FitsNodeCap s.params rs.length) (hn : n ≤ s.inLen)
    (hx : getRecord rs.length { s with tree := none, ipos := s.ipos + (recordsBits rs).length } =
      .raised .malformedTree (State.afterEos { s with tree := none, ipos := n })) :
    ∃ pos, n ≤ pos ∧ pos ≤ s.inLen ∧ exec .rdTree s = .next { s with
      tree := none, ipos := pos, stale := true, draws := s.draws + 1, err := .malformedTree, phase := .fault } :=
  have ⟨hlow, hhigh⟩ := State.afterEos_ipos_le (s := { s with tree := none, ipos := n }) hn
  ⟨_, hlow, hhigh, exec_rdTree_raises hp hs hr hb hc (by exact he) hx⟩

/-- RDTREE where that record is illegal, as is seen at position `n` (R145 (a), (b)). -/
theorem exec_rdTree_illegal {s : State} {rs : List TreeRecord} {tail : Bits} {n : Nat} (hp : s.phase = .magicR)
    (hs : s.stale = false) (he : s.err = .none) (hr : Unfinished rs) (hb : s.inBits = recordsBits rs ++ tail)
    (hc : FitsNodeCap s.params rs.length)
    (hx : getRecord rs.length { s with tree := none, ipos := s.ipos + (recordsBits rs).length } =
      .raised .illegalTree { s with tree := none, ipos := n }) :
    exec .rdTree s = .next { s with tree := none, ipos := n, err := .illegalTree, phase := .fault } :=
  exec_rdTree_raises hp hs hr hb hc (by exact he) hx

/-! ### The statements -/

/-- Settles O35: the serialization is read back to the tree's shape, and the root check lets a legal root through. -/
theorem rdTreeInvertsTheSerialization : Obligations.RdTreeInvertsTheSerialization :=
  fun _ _ _ hp hs hb hc hroot => exec_rdTree_legal hp hs hb hc hroot

/-- Settles O34: the walk appends the serialization. -/
theorem wrTreeAppendsTheSerialization : Obligations.WrTreeAppendsTheSerialization :=
  fun _ t hp ht ho => ⟨exec_wrTree_magicW hp ht ho, t.ser_length_add_one⟩

/-- Settles O36: an RDTREE that does not fault read a tree and passed the root check, and what was read is the tree's
serialization. -/
theorem rdTreeConsumesASerialization : Obligations.RdTreeConsumesASerialization := by
  intro s u hp hs h hu
  rw [exec_rdTree_magicR hp] at h
  obtain hdone | ⟨e, x, -, rfl⟩ := Act.finish_eq_next.mp h
  · obtain ⟨⟨t, c⟩, x, hread, hcheck⟩ := Act.andThen_eq_done.mp hdone
    obtain ⟨hshape, rfl, hcap, ⟨rest, hb⟩, rfl⟩ := getTree_inv (by exact hs) hread
    rw [Nat.zero_add] at hcap
    dsimp only at hcheck
    split at hcheck
    · cases hcheck
    · next hroot =>
      cases hcheck
      exact ⟨t, rest, hb, hshape, hcap, fun hl => by_contra fun hv => hroot ⟨hl, hv⟩, rfl⟩
  · exact absurd rfl hu

/-- Settles O37: the record after the complete ones is cut off before its flag or inside its field. -/
theorem rdTreeOnATruncatedTree : Obligations.RdTreeOnATruncatedTree := by
  intro s rs cut hp hs he hi hr hb hcut
  have hlen : s.inLen = s.ipos + (recordsBits rs ++ cut).length := inLen_eq_of_inBits hi hb
  rw [List.length_append, ← Nat.add_assoc] at hlen
  rw [List.length_append, ← Nat.add_assoc]
  have hnext := inBits_advance' hb rfl
  obtain ⟨rfl, hc⟩ | ⟨q, rfl, hq, hc⟩ := hcut
  · exact exec_rdTree_truncated hp hs he hr hb hc hlen.ge (getRecord_no_flag hlen)
  · rw [List.length_cons] at hlen
    have hflag : s.ipos + (recordsBits rs).length + 1 ≤ s.inLen := by omega
    have hend : s.inLen < s.ipos + (recordsBits rs).length + 10 := by omega
    exact exec_rdTree_truncated hp hs he hr hb (hc.mono (Nat.le_succ _)) hflag
      (getRecord_short_field hs hnext hc hend)

/-- Settles O38: the first two faults are those of the record after the complete ones, the third is the root check's. -/
theorem rdTreeOnAnIllegalTree : Obligations.RdTreeOnAnIllegalTree := by
  intro s rs rest hp hs he
  refine ⟨fun v hr h0 h1 hc hb => ?_, fun flag hr hcap hb => ?_,
    fun v hv hc hb => exec_rdTree_bare hp hs he hb hc hv⟩
  · have hnext := inBits_advance' hb rfl
    exact exec_rdTree_illegal hp hs he hr hb (hc.mono (Nat.le_succ _)) (getRecord_bad_field hs hnext hc h0 h1)
  · have hnext := inBits_advance' hb rfl
    have hfits : FitsNodeCap s.params rs.length := fun c hk => (Option.some.inj (hcap.symm.trans hk)).le
    have hover : ¬ FitsNodeCap s.params (rs.length + 1) := fun hc => Nat.not_succ_le_self _ (hc _ hcap)
    exact exec_rdTree_illegal hp hs he hr hb hfits (getRecord_over_cap hs hnext hover)

end Sys2Proof.Machine
end

section
/-! SUPPORT. The encoder's own commands (spec/44_encoder.md R160 to R165): what WRMAGIC, ENCBODY and CLOSE answer from the
phases R73 gives them. -/

namespace Sys2Proof.Machine

/-! ### WRMAGIC -/

/-- WRMAGIC on an open output (R160). -/
theorem exec_wrMagic_coded {s : State} (hp : s.phase = .coded) (ho : s.oclosed = false) :
    exec .wrMagic s = .next { s with obits := s.obits ++ field 32 s.params.magic.toNat, phase := .magicW } := by
  rw [exec, execWrMagic, issue_of_phase rfl (by decide) hp, wrMagicRule, putMagic,
    outWrite_open ho (by decide) (by decide), Act.andThen_done, Act.finish_done, State.enter]

/-! ### ENCBODY -/

theorem exec_encBody_rewound {s : State} (hp : s.phase = .rewound) : exec .encBody s = (encBodyRule s).finish := by
  rw [exec, execEncBody, issue_of_phase rfl (by decide) hp]

/-- From the start the bound on the reads leaves room for every byte and the end (R244). -/
theorem bytes_lt_readBound {s : State} (hpos : s.ipos = 0) : s.ibytes.length < s.readBound := by
  rw [State.readBound, State.inLen, hpos]
  omega

/-- The codes of some bytes, as the table holds them. -/
theorem flatMap_table_eq {tbl : Vector (Option Bits) 257} {code : Sym → Bits} {bs : List Byte}
    (hc : ∀ b ∈ bs, tbl[byteSym b] = some (code (byteSym b))) :
    (bs.flatMap fun b => (tbl[byteSym b]).getD []) = bs.flatMap fun b => code (byteSym b) :=
  List.flatMap_congr fun b hb => by rw [hc b hb, Option.getD_some]

/-- ENCBODY's loop over the whole input, when every byte has a code (R161). -/
theorem encLoop_input {s : State} {code : Sym → Bits} (hpos : s.ipos = 0) (hs : s.stale = false)
    (ho : s.oclosed = false) (hc : ∀ b ∈ s.ibytes, s.code[byteSym b] = some (code (byteSym b))) :
    encLoop s.readBound s = .done () { s with
      obits := s.obits ++ s.ibytes.flatMap (fun b => code (byteSym b)), ipos := 8 * s.ibytes.length, stale := true,
      draws := s.draws + 1 } := by
  have hend (out : Bits) :
      State.inLen { s with ipos := s.ipos + 8 * s.ibytes.length, obits := out } = s.ipos + 8 * s.ibytes.length := by
    rw [State.inLen, hpos, Nat.zero_add]
  rw [encLoop_present ho hs (inBits_of_ipos_zero hpos) (bytes_lt_readBound hpos)
    fun b hb => Option.isSome_iff_exists.mpr ⟨_, hc b hb⟩, State.afterEos_of_end (hend _), flatMap_table_eq hc, hpos,
    Nat.zero_add]

/-- ENCBODY with a code for every byte and for `PSEUDO_EOF` (R161, R164). -/
theorem exec_encBody_codes {s : State} {code : Sym → Bits} (hp : s.phase = .rewound) (hpos : s.ipos = 0)
    (hs : s.stale = false) (ho : s.oclosed = false)
    (hc : ∀ b ∈ s.ibytes, s.code[byteSym b] = some (code (byteSym b)))
    (he : s.code[pseudoEof] = some (code pseudoEof)) :
    exec .encBody s = .next { s with
      obits := s.obits ++ ((s.ibytes.flatMap fun b => code (byteSym b)) ++ code pseudoEof), phase := .bodyW,
      ipos := 8 * s.ibytes.length, stale := true, draws := s.draws + 1 } := by
  rw [exec_encBody_rewound hp, encBodyRule, encLoop_input hpos hs ho hc, Act.andThen_done,
    putCode_present (by exact ho) (by exact he), Act.andThen_done, Act.finish_done, List.append_assoc, State.enter]

/-- ENCBODY at the first byte without a code (R163). -/
theorem exec_encBody_missing_byte {s : State} {code : Sym → Bits} {bs rest : List Byte} {b : Byte}
    (hp : s.phase = .rewound) (hpos : s.ipos = 0) (hs : s.stale = false) (ho : s.oclosed = false)
    (hc : ∀ b ∈ bs, s.code[byteSym b] = some (code (byteSym b))) (hin : s.ibytes = bs ++ b :: rest)
    (hb : s.code[byteSym b] = none) :
    exec .encBody s = .next (State.raise .noCode { s with
      obits := s.obits ++ bs.flatMap (fun b => code (byteSym b)), ipos := 8 * (bs.length + 1) }) := by
  have hbound : bs.length < s.readBound := by
    have hlen := congrArg List.length hin
    rw [List.length_append, List.length_cons] at hlen
    have := bytes_lt_readBound hpos
    omega
  rw [exec_encBody_rewound hp, encBodyRule, encLoop_absent ho hs (hin ▸ inBits_of_ipos_zero hpos) hbound
    (fun c h => Option.isSome_iff_exists.mpr ⟨_, hc c h⟩) hb, Act.andThen_raised, Act.finish_raised,
    flatMap_table_eq hc, hpos, Nat.zero_add]

/-- ENCBODY without a code for `PSEUDO_EOF`, after the codes of the whole input (R163). -/
theorem exec_encBody_missing_eof {s : State} {code : Sym → Bits} (hp : s.phase = .rewound) (hpos : s.ipos = 0)
    (hs : s.stale = false) (ho : s.oclosed = false)
    (hc : ∀ b ∈ s.ibytes, s.code[byteSym b] = some (code (byteSym b))) (he : s.code[pseudoEof] = none) :
    exec .encBody s = .next (State.raise .noCode { s with
      obits := s.obits ++ s.ibytes.flatMap (fun b => code (byteSym b)), ipos := 8 * s.ibytes.length, stale := true,
      draws := s.draws + 1 }) := by
  rw [exec_encBody_rewound hp, encBodyRule, encLoop_input hpos hs ho hc, Act.andThen_done, putCode, he,
    Act.andThen_raised, Act.finish_raised]

/-! ### CLOSE -/

/-- CLOSE's rule on an open output: the pad and the close, in `FAULT` nothing else (R165). -/
theorem closeRule_open {s : State} (ho : s.oclosed = false) :
    closeRule s = .done () { s with
      obits := padded s.obits, oclosed := true, phase := if s.phase = .fault then .fault else .done } := by
  rw [closeRule, outClose_open ho, Act.andThen_done]
  dsimp only
  split
  · next hf => rw [← hf]; rfl
  · rfl

/-- CLOSE after the body command (R165). -/
theorem exec_close_body {s : State} (hp : s.phase = .bodyW ∨ s.phase = .bodyR) (ho : s.oclosed = false) :
    exec .close s = .next { s with obits := padded s.obits, oclosed := true, phase := .done } := by
  have hf : s.phase ≠ .fault := by rcases hp with h | h <;> rw [h] <;> decide
  have hl : s.phase ∈ legalPhases .close := List.mem_pair.mpr hp
  rw [exec, execClose, if_neg hf, issue_legal hf hl, closeRule_open ho, Act.finish_done, if_neg hf]

/-- CLOSE in `FAULT` while the output is open (R165, R211). -/
theorem exec_close_fault {s : State} (hp : s.phase = .fault) (ho : s.oclosed = false) :
    exec .close s = .next { s with obits := padded s.obits, oclosed := true } := by
  rw [exec, execClose, if_pos hp, ho, if_neg Bool.false_ne_true, closeRule_open ho, Act.finish_done, if_pos hp, ← hp]

/-- CLOSE in `FAULT` on a closed output (R211). -/
theorem exec_close_ignored {s : State} (hp : s.phase = .fault) (ho : s.oclosed = true) : exec .close s = .next s := by
  rw [exec, execClose, if_pos hp, if_pos ho]

/-! ### The statements -/

/-- Settles O39: the 32-bit field of `MAGIC`, bit by bit. -/
theorem wrMagicAppendsTheMagic : Obligations.WrMagicAppendsTheMagic := by
  intro s hp ho
  rw [exec_wrMagic_coded hp ho, field_eq_map]
  rfl

/-- Settles O40: the loop over the input, then the code of `PSEUDO_EOF`. -/
theorem encBodyAppendsTheCodes : Obligations.EncBodyAppendsTheCodes :=
  fun _ _ hp hpos hs ho hc he => exec_encBody_codes hp hpos hs ho hc he

/-- Settles O41: the loop stops at the byte, or ends before the missing code of `PSEUDO_EOF`. -/
theorem encBodyWithoutACode : Obligations.EncBodyWithoutACode := by
  intro s code bs hp hpos hs ho herr hc
  refine ⟨fun b rest hin hb => ?_, fun hin he => ?_⟩
  · rw [exec_encBody_missing_byte hp hpos hs ho hc hin hb, raise_of_noErr (by exact herr)]
  · subst hin
    rw [exec_encBody_missing_eof hp hpos hs ho hc he, raise_of_noErr (by exact herr)]

/-- Settles O42: after a body command the pad and `DONE`, in `FAULT` the pad alone. -/
theorem closeEndsTheCall : Obligations.CloseEndsTheCall :=
  fun _ => ⟨exec_close_body, exec_close_fault, exec_close_ignored⟩

end Sys2Proof.Machine
end

section
/-! SUPPORT. COMPRESS and DECOMPRESS as their steps (spec/30_encoding.md R86; spec/44_encoder.md R166; spec/45_decoder.md
R184), and COMPRESS taken through its steps (R166 to R168). -/

namespace Sys2Proof.Machine

/-! ### Commands issued one at a time -/

/-- In `FAULT` a command other than CLOSE is ignored (R71, R211). -/
theorem exec_of_fault {i : Instr} {s : State} (hi : i.isCommand = true) (hc : i ≠ .close) (hp : s.phase = .fault) :
    exec i s = .next s := by
  cases i with
  | close => exact absurd rfl hc
  | count | build | genCodes | wrMagic | wrTree | rewind | encBody => exact if_pos hp
  | rdMagic | rdTree | decBody | compress | decompress => exact if_pos hp
  | hdrMagic | treeInternal | treeLeaf | bodyCode | pad => cases hi

theorem issueAll_singleton (i : Instr) (s : State) : issueAll [i] s = exec i s := by
  rw [issueAll]
  cases exec i s <;> rfl

/-- Commands after those that were answered go on from the state these left. -/
theorem issueAll_append {is js : List Instr} {s t : State} (h : issueAll is s = .next t) :
    issueAll (is ++ js) s = issueAll js t := by
  induction is generalizing s with
  | nil =>
    cases h
    rfl
  | cons i is ih =>
    rw [issueAll] at h
    rw [List.cons_append, issueAll]
    cases hi : exec i s with
    | next u =>
      rw [hi] at h
      exact ih h
    | fault r =>
      rw [hi] at h
      cases h
    | refused r =>
      rw [hi] at h
      cases h

/-- In `FAULT` commands other than CLOSE are ignored one after another (R211). -/
theorem issueAll_of_fault {is : List Instr} {s : State} (h : ∀ i ∈ is, i.isCommand = true ∧ i ≠ .close)
    (hp : s.phase = .fault) : issueAll is s = .next s := by
  induction is with
  | nil => rfl
  | cons i is ih =>
    obtain ⟨⟨hi, hc⟩, his⟩ := List.forall_mem_cons.mp h
    rw [issueAll_cons (exec_of_fault hi hc hp), ih his]

/-- In `FAULT` commands that CLOSE ends are that CLOSE (R86, R211). -/
theorem issueAll_close_of_fault {is : List Instr} {s : State} (h : ∀ i ∈ is, i.isCommand = true ∧ i ≠ .close)
    (hp : s.phase = .fault) : issueAll (is ++ [.close]) s = exec .close s := by
  rw [issueAll_append (issueAll_of_fault h hp), issueAll_singleton]

/-- A run of steps is the steps issued one at a time, CLOSE last: those that a fault skips would be ignored
(R86, R166, R184). -/
theorem runSteps_eq_issueAll {is : List Instr} (h : ∀ i ∈ is, i.isCommand = true ∧ i ≠ .close) (s : State) :
    runSteps (is.map exec) s = issueAll (is ++ [.close]) s := by
  induction is generalizing s with
  | nil => exact (issueAll_singleton .close s).symm
  | cons i is ih =>
    obtain ⟨-, his⟩ := List.forall_mem_cons.mp h
    cases hi : exec i s with
    | next t =>
      rw [List.cons_append, issueAll_cons hi, List.map_cons]
      by_cases hf : t.phase = .fault
      · rw [runSteps_fault hi hf, issueAll_close_of_fault his hf, exec]
      · rw [runSteps_next hi hf, ih his]
    | fault r => rw [List.map_cons, runSteps, List.cons_append, issueAll, hi]
    | refused r => rw [List.map_cons, runSteps, List.cons_append, issueAll, hi]

/-! ### The two whole calls -/

/-- The commands of COMPRESS before its CLOSE (R166). -/
def compressSteps : List Instr := [.count, .build, .genCodes, .wrMagic, .wrTree, .rewind, .encBody]

/-- The commands of DECOMPRESS before its CLOSE (R184). -/
def decompressSteps : List Instr := [.rdMagic, .rdTree, .decBody]

theorem exec_compress_idle {s : State} (hp : s.phase = .idle) :
    exec .compress s = issueAll (compressSteps ++ [.close]) s := by
  rw [exec, execCompress, issue_of_phase rfl (by decide) hp]
  exact runSteps_eq_issueAll (is := compressSteps) (by decide) s

theorem exec_decompress_idle {s : State} (hp : s.phase = .idle) :
    exec .decompress s = issueAll (decompressSteps ++ [.close]) s := by
  rw [exec, execDecompress, issue_of_phase rfl (by decide) hp]
  exact runSteps_eq_issueAll (is := decompressSteps) (by decide) s

/-- Where one of its steps leaves `FAULT`, a call answers what CLOSE answers there (R86, R166, R184). -/
theorem issueAll_close_of_step_fault {before after : List Instr} {i : Instr} {s t : State}
    (h : ∀ j ∈ before ++ i :: after, j.isCommand = true ∧ j ≠ .close) (hi : issueAll (before ++ [i]) s = .next t)
    (ht : t.phase = .fault) : issueAll (before ++ i :: after ++ [.close]) s = exec .close t := by
  have hafter : ∀ j ∈ after, j.isCommand = true ∧ j ≠ .close := fun j hj =>
    h j (List.mem_append_right _ (List.mem_cons_of_mem _ hj))
  rw [List.append_cons before i after, List.append_assoc, issueAll_append hi, issueAll_close_of_fault hafter ht]

/-! ### COMPRESS on an input whose counts fit -/

/-- REWIND from its phase (R102). -/
theorem exec_rewind_treeW {s : State} (hp : s.phase = .treeW) :
    exec .rewind s = .next { s with ipos := 0, stale := false, phase := .rewound } := rewindReturnsToTheStart s hp

/-- The bytes of an input are leaves of every tree built for it (R117 (a)). -/
theorem BuiltFor.byte_mem_leaves {bs : List Byte} {t : Tree} (h : BuiltFor (freqOf bs) t) {b : Byte} (hb : b ∈ bs) :
    byteSym b ∈ t.leaves := by
  rw [h.leaves, freqOf_byte]
  exact (List.count_pos_iff.mpr hb).ne'

/-- `PSEUDO_EOF` is a leaf of every tree built for an input (R117 (a)). -/
theorem BuiltFor.eof_mem_leaves {bs : List Byte} {t : Tree} (h : BuiltFor (freqOf bs) t) : pseudoEof ∈ t.leaves := by
  rw [h.leaves, freqOf_eof]
  exact one_ne_zero

/-- A leaf symbol's entry in the table is its code (R131). -/
theorem codeTable_codeOf {t : Tree} {v : Sym} (h : v ∈ t.leaves) : (codeTable t)[v] = some (codeOf t v) := by
  obtain ⟨p, hp⟩ := codeTable_present h
  rw [codeOf, hp, Option.getD_some]

/-- The tables of COMPRESS: COUNT, BUILD and GENCODES from the start of an input whose counts fit (R75). -/
theorem issueAll_tables {s : State} {t : Tree} (hp : s.phase = .idle) (hpos : s.ipos = 0) (hs : s.stale = false)
    (hfit : CountsFit s.params s.ibytes) (ht : buildTree s.params.tie (freqOf s.ibytes) = .ok t) :
    issueAll [.count, .build, .genCodes] s = .next { s with
      freq := some (freqOf s.ibytes), tree := some t, code := codeTable t, phase := .coded,
      ipos := 8 * s.ibytes.length, stale := true, draws := s.draws + 1 } :=
  calc issueAll [.count, .build, .genCodes] s
    _ = issueAll [.build, .genCodes] { s with
          freq := some (freqOf s.ibytes), phase := .counted, ipos := 8 * s.ibytes.length, stale := true,
          draws := s.draws + 1 } := issueAll_cons (exec_count_fits hp hpos hs hfit)
    _ = issueAll [.genCodes] { s with
          freq := some (freqOf s.ibytes), tree := some t, phase := .built, ipos := 8 * s.ibytes.length, stale := true,
          draws := s.draws + 1 } := issueAll_cons (exec_build_counted rfl rfl ht)
    _ = _ := issueAll_cons (exec_genCodes_built rfl rfl)

/-- The artifact of COMPRESS: WRMAGIC, WRTREE, REWIND, ENCBODY and CLOSE on an open output, with the tree of the input and
its codes (R75). -/
theorem issueAll_artifact {s : State} {t : Tree} (hp : s.phase = .coded) (ht : s.tree = some t)
    (hc : s.code = codeTable t) (hbuilt : BuiltFor (freqOf s.ibytes) t) (ho : s.oclosed = false) :
    issueAll [.wrMagic, .wrTree, .rewind, .encBody, .close] s = .next { s with
      obits := padded (s.obits ++ artifactBits s.params t s.ibytes), oclosed := true, phase := .done,
      ipos := 8 * s.ibytes.length, stale := true, draws := s.draws + 1 } := by
  have hcodes : ∀ b ∈ s.ibytes, s.code[byteSym b] = some (codeOf t (byteSym b)) :=
    fun b hb => hc ▸ codeTable_codeOf (hbuilt.byte_mem_leaves hb)
  have heof : s.code[pseudoEof] = some (codeOf t pseudoEof) := hc ▸ codeTable_codeOf hbuilt.eof_mem_leaves
  calc issueAll [.wrMagic, .wrTree, .rewind, .encBody, .close] s
    _ = issueAll [.wrTree, .rewind, .encBody, .close] { s with
          obits := s.obits ++ field 32 s.params.magic.toNat, phase := .magicW } :=
        issueAll_cons (exec_wrMagic_coded hp ho)
    _ = issueAll [.rewind, .encBody, .close] { s with
          obits := s.obits ++ field 32 s.params.magic.toNat ++ t.ser, phase := .treeW } :=
        issueAll_cons (exec_wrTree_magicW rfl ht ho)
    _ = issueAll [.encBody, .close] { s with
          obits := s.obits ++ field 32 s.params.magic.toNat ++ t.ser, ipos := 0, stale := false, phase := .rewound } :=
        issueAll_cons (exec_rewind_treeW rfl)
    _ = issueAll [.close] { s with
          obits := s.obits ++ field 32 s.params.magic.toNat ++ t.ser ++ bodyOf t s.ibytes, phase := .bodyW,
          ipos := 8 * s.ibytes.length, stale := true, draws := s.draws + 1 } :=
        issueAll_cons (exec_encBody_codes rfl rfl rfl ho hcodes heof)
    _ = issueAll [] { s with
          obits := padded (s.obits ++ field 32 s.params.magic.toNat ++ t.ser ++ bodyOf t s.ibytes), oclosed := true,
          phase := .done, ipos := 8 * s.ibytes.length, stale := true, draws := s.draws + 1 } :=
        issueAll_cons (exec_close_body (.inl rfl) ho)
    _ = _ := by rw [issueAll_nil, artifactBits, List.append_assoc, List.append_assoc, List.append_assoc]

/-- COMPRESS, launched on an input whose counts fit: first the tables, then the artifact (R166). -/
theorem exec_compress_fits {s : State} {bs : List Byte} {t : Tree} (hl : Launched bs s) (hfit : CountsFit s.params bs)
    (ht : buildTree s.params.tie (freqOf bs) = .ok t) :
    exec .compress s = .next { s with
      freq := some (freqOf bs), tree := some t, code := codeTable t, obits := padded (artifactBits s.params t bs),
      oclosed := true, phase := .done, ipos := 8 * bs.length, stale := true, draws := s.draws + 2 } := by
  obtain ⟨hp, -, rfl, hpos, hs, hout, ho⟩ := hl
  calc exec .compress s
    _ = issueAll ([.count, .build, .genCodes] ++ [.wrMagic, .wrTree, .rewind, .encBody, .close]) s :=
        exec_compress_idle hp
    _ = issueAll [.wrMagic, .wrTree, .rewind, .encBody, .close] { s with
          freq := some (freqOf s.ibytes), tree := some t, code := codeTable t, phase := .coded,
          ipos := 8 * s.ibytes.length, stale := true, draws := s.draws + 1 } :=
        issueAll_append (issueAll_tables hp hpos hs hfit ht)
    _ = _ := issueAll_artifact rfl rfl rfl (builtFor_of_buildTree ht) ho
    _ = _ := by rw [hout, List.nil_append]

/-- Of the parameters an artifact depends on `MAGIC` alone (R75). -/
theorem artifactBits_congr {p q : Params} (h : p.magic = q.magic) (t : Tree) (bs : List Byte) :
    artifactBits p t bs = artifactBits q t bs := by
  rw [artifactBits, artifactBits, h]

theorem exists_buildTree_freqOf (tie : Tie) (bs : List Byte) : ∃ t, buildTree tie (freqOf bs) = .ok t :=
  have ⟨t, ht, _⟩ := buildTree_ok (tie := tie) (f := freqOf bs) (s := pseudoEof) (by rw [freqOf_eof]; exact one_ne_zero)
  ⟨t, ht⟩

/-- Settles O43: the steps of COMPRESS write the artifact, which the input, `MAGIC` and `TIE` fix. -/
theorem compressWritesTheArtifact : Obligations.CompressWritesTheArtifact := by
  constructor
  · intro s bs hl hfit
    obtain ⟨t, ht⟩ := exists_buildTree_freqOf s.params.tie bs
    exact ⟨t, ht, builtFor_of_buildTree ht, exec_compress_fits hl hfit ht⟩
  · intro s s' bs hl hl' hfit hfit' hmagic htie
    obtain ⟨t, ht⟩ := exists_buildTree_freqOf s.params.tie bs
    refine ⟨_, _, exec_compress_fits hl hfit ht, exec_compress_fits hl' hfit' (htie ▸ ht), ?_⟩
    rw [State.obytes, State.obytes, artifactBits_congr hmagic]

/-! ### COMPRESS on a count that does not fit -/

/-- The counts of an input fit, or there is a first byte whose counter is full (R101). -/
theorem countsFit_or_full {p : Params} {k : Nat} (hk : p.countBits = some k) (bs : List Byte) :
    CountsFit p bs ∨ ∃ as c rest, bs = as ++ c :: rest ∧ CountsFit p as ∧ as.count c = 2 ^ k - 1 := by
  induction bs using List.reverseRecOn with
  | nil => exact .inl fun j _ _ => Nat.two_pow_pos j
  | append_singleton bs b ih =>
    obtain hfit | ⟨as, c, rest, rfl, hfit, hfull⟩ := ih
    · by_cases hfull : bs.count b = 2 ^ k - 1
      · exact .inr ⟨bs, b, [], rfl, hfit, hfull⟩
      · refine .inl fun j hj c => ?_
        cases hk.symm.trans hj
        have hlt := hfit k hk c
        rw [List.count_append, List.count_singleton]
        split
        · next hbc =>
          cases beq_iff_eq.mp hbc
          omega
        · exact hlt
    · exact .inr ⟨as, c, rest ++ [b], by rw [List.append_assoc, List.cons_append], hfit, hfull⟩

/-- COMPRESS, launched on an input with a first byte whose counter is full, is COUNT's fault and CLOSE (R101, R166). -/
theorem exec_compress_overflow {s : State} {k : Nat} {as rest : List Byte} {c : Byte}
    (hl : Launched (as ++ c :: rest) s) (hk : s.params.countBits = some k) (hfit : CountsFit s.params as)
    (hfull : as.count c = 2 ^ k - 1) :
    exec .compress s = .next { s with
      freq := none, ipos := 8 * (as.length + 1), oclosed := true, err := .countOverflow, phase := .fault } := by
  obtain ⟨hp, he, hin, hpos, hs, hout, ho⟩ := hl
  have hcount : issueAll [.count] s = .next { s with
      freq := none, ipos := 8 * (as.length + 1), err := .countOverflow, phase := .fault } := by
    rw [issueAll_singleton, exec_count_overflow hp hpos hs hk hin hfit hfull, raise_of_noErr (by exact he)]
  calc exec .compress s
    _ = issueAll ([] ++ .count :: compressSteps.tail ++ [.close]) s := exec_compress_idle hp
    _ = exec .close { s with
          freq := none, ipos := 8 * (as.length + 1), err := .countOverflow, phase := .fault } :=
        issueAll_close_of_step_fault (by decide) hcount rfl
    _ = .next { s with
          freq := none, ipos := 8 * (as.length + 1), obits := padded s.obits, oclosed := true, err := .countOverflow,
          phase := .fault } := exec_close_fault rfl ho
    _ = _ := by rw [hout]; rfl

/-- Settles O45: COUNT raises the fault at the first byte whose counter is full, and CLOSE closes the empty output. -/
theorem compressOnOverflow : Obligations.CompressOnOverflow := by
  intro s bs k b hl hk hcount
  obtain hfit | ⟨as, c, rest, rfl, hfit, hfull⟩ := countsFit_or_full hk bs
  · exact absurd (hfit k hk b) hcount.not_gt
  · exact ⟨_, exec_compress_overflow hl hk hfit hfull, ⟨rfl, rfl, rfl⟩, hl.output, rfl⟩

/-! ### The length of an artifact -/

/-- The code lengths of some symbols, counted by the leaves of a tree that has them all once (R164). -/
theorem sum_map_eq_sum_leaves {t : Tree} {syms : List Sym} (hn : t.leaves.Nodup) (h : ∀ v, v ∈ syms ↔ v ∈ t.leaves)
    (g : Sym → Nat) : (syms.map g).sum = (t.leaves.map fun v => syms.count v * g v).sum := by
  have hset : syms.toFinset = t.leaves.toFinset := List.toFinset.ext h
  rw [Finset.sum_list_map_count, hset, List.sum_toFinset _ hn]
  rfl

/-- The body's length: each symbol's code once for each of its counts (R164, R167). -/
theorem bodyOf_length {bs : List Byte} {t : Tree} (h : BuiltFor (freqOf bs) t) :
    (bodyOf t bs).length = (t.leaves.map fun v => (freqOf bs)[v] * (codeOf t v).length).sum := by
  have hmem (v : Sym) : v ∈ pseudoEof :: bs.map byteSym ↔ v ∈ t.leaves := by
    rw [h.leaves, freqOf_eq_count, ← Nat.pos_iff_ne_zero, List.count_pos_iff]
  simp_rw [freqOf_eq_count]
  rw [← sum_map_eq_sum_leaves h.nodup hmem fun v => (codeOf t v).length, bodyOf, List.length_append,
    List.length_flatMap, List.map_cons, List.sum_cons, List.map_map, Nat.add_comm]
  rfl

/-- The weighted external path length is the sum of the code lengths, each as often as its symbol (R110, R167). -/
theorem cost_eq_sum_codeOf {t : Tree} (hn : t.leaves.Nodup) (f : Vector Nat 257) :
    t.cost f = (t.leaves.map fun v => f[v] * (codeOf t v).length).sum := by
  rw [← (leafDepths_spec f t).2.1, ← paths_leaves, depthCost, leafDepths, List.map_map, List.map_map]
  refine congrArg List.sum (List.map_congr_left fun x hx => ?_)
  rw [Function.comp_apply, Function.comp_apply, codeOf_of_mem_paths hn hx]

/-- Settles O44: the lengths of the three parts, the body's as a sum over the leaves. -/
theorem artifactLength : Obligations.ArtifactLength := by
  intro p bs t h
  have hser := t.ser_length_add_one
  have hbody := bodyOf_length h
  refine ⟨?_, hbody.trans (cost_eq_sum_codeOf h.nodup _).symm⟩
  rw [← hbody, artifactBits, List.length_append, List.length_append, field_length]
  omega

end Sys2Proof.Machine
end

section
/-! SUPPORT. DECOMPRESS on an artifact that ends before `PSEUDO_EOF` (spec/45_decoder.md R180 to R185), step by step. -/

namespace Sys2Proof.Machine

/-! ### RDMAGIC -/

/-- RDMAGIC on the bits of `MAGIC`, whatever follows them (R180). -/
theorem exec_rdMagic_magic {s : State} {rest : Bits} (hp : s.phase = .idle) (hs : s.stale = false)
    (hb : s.inBits = field 32 s.params.magic.toNat ++ rest) :
    exec .rdMagic s = .next { s with ipos := s.ipos + 32, phase := .magicR } := by
  have hmagic : BitVec.ofNat 32 (num (field 32 s.params.magic.toNat)) = s.params.magic := by
    rw [num_field, Nat.mod_eq_of_lt s.params.magic.isLt, BitVec.ofNat_toNat, BitVec.setWidth_eq]
  rw [exec, execRdMagic, issue_of_phase rfl (by decide) hp, rdMagicRule, getMagic,
    inRead_fresh (by decide) (by decide) hs hb (field_length _ _), Act.andThen_done, hmagic]
  dsimp only
  rw [if_pos rfl, Act.finish_done, State.enter]

/-! ### Codes -/

/-- Only a tree of more than one leaf has a path to an internal node (R79). -/
theorem isLeaf_of_follow_node {t l r : Tree} {q : Bits} {w : Nat} (h : t.follow q = some (.node w l r)) :
    t.isLeaf = false := by
  cases t with
  | leaf => cases (Tree.follow_leaf.mp h).2
  | node => rfl

/-- The codes of a tree of more than one leaf have at least one bit each (R133). -/
theorem length_le_codes {t : Tree} {cs : List Coded} (ht : t.isLeaf = false)
    (hc : ∀ c ∈ cs, ∃ w, t.follow c.2 = some (.leaf (byteSym c.1) w)) : cs.length ≤ (cs.flatMap Prod.snd).length := by
  have hpos : ∀ n ∈ cs.map fun c => c.2.length, 1 ≤ n := by
    intro n hn
    obtain ⟨c, hmem, rfl⟩ := List.mem_map.mp hn
    obtain ⟨w, hw⟩ := hc c hmem
    refine List.length_pos_of_ne_nil fun hnil => ?_
    rw [hnil, Tree.follow_nil, Option.some.injEq] at hw
    rw [hw] at ht
    cases ht
  have hle := List.length_le_sum_of_one_le _ hpos
  rwa [List.length_map, ← List.length_flatMap] at hle

/-- The paths to leaves are those of the tree an artifact carries (R14, R146). -/
theorem follow_shape_leaf {t : Tree} {p : Bits} {v : Sym} (h : ∃ w, t.follow p = some (.leaf v w)) :
    ∃ w, t.shape.follow p = some (.leaf v w) := by
  obtain ⟨w, hw⟩ := h
  exact ⟨0, by rw [Tree.shape_follow, hw]; rfl⟩

/-! ### DECBODY -/

theorem exec_decBody_treeR {s : State} {t : Tree} (hp : s.phase = .treeR) (ht : s.tree = some t)
    (hl : t.isLeaf = false) :
    exec .decBody s = ((decLoop t s.readBound s).andThen fun _ s => .done () (s.enter .bodyR)).finish := by
  rw [exec, execDecBody, issue_of_phase rfl (by decide) hp, decBodyRule, needTree_some ht, Act.andThen_done, hl,
    if_neg Bool.false_ne_true]

/-- DECBODY on a body that ends inside a code or before one (R185). -/
theorem exec_decBody_truncated {s : State} {t l r : Tree} {cs : List Coded} {q : Bits} {w : Nat}
    (hp : s.phase = .treeR) (hs : s.stale = false) (ho : s.oclosed = false) (he : s.err = .none)
    (hi : s.ipos ≤ s.inLen) (ht : s.tree = some t)
    (hc : ∀ c ∈ cs, ∃ w, t.follow c.2 = some (.leaf (byteSym c.1) w)) (hq : t.follow q = some (.node w l r))
    (hb : s.inBits = cs.flatMap Prod.snd ++ q) :
    exec .decBody s = .next { s with
      obits := s.obits ++ unpack (cs.map Prod.fst), ipos := 8 * s.ibytes.length, stale := true, draws := s.draws + 1,
      phase := .fault, err := .truncatedBody } := by
  have hleaf := isLeaf_of_follow_node hq
  have hbound : cs.length < s.readBound := (length_le_codes hleaf hc).trans_lt (length_lt_readBound hb)
  have hend : s.inLen = s.ipos + (cs.flatMap Prod.snd ++ q).length := inLen_eq_of_inBits hi hb
  rw [exec_decBody_treeR hp ht hleaf, decLoop_short ho hs hc hq hb hbound, Act.andThen_raised, Act.finish_raised,
    State.afterEos_of_end (by exact hend), raise_of_noErr (by exact he), ← hend]
  rfl

/-! ### DECOMPRESS -/

/-- Whole bytes need no pad (R48). -/
theorem padded_unpack (bs : List Byte) : padded (unpack bs) = unpack bs := by
  rw [padded, padLen_of_whole (by rw [unpack_length]; omega), List.replicate_zero, List.append_nil]

/-- DECOMPRESS, launched on an artifact that ends before `PSEUDO_EOF`: DECBODY's fault and CLOSE (R184, R185). -/
theorem exec_decompress_truncated {s : State} {input : List Byte} {t l r : Tree} {cs : List Coded} {q : Bits} {w : Nat}
    (hl : Launched input s) (hcap : FitsNodeCap s.params t.size)
    (hc : ∀ c ∈ cs, ∃ w, t.follow c.2 = some (.leaf (byteSym c.1) w)) (hq : t.follow q = some (.node w l r))
    (hin : unpack input = field 32 s.params.magic.toNat ++ t.ser ++ cs.flatMap Prod.snd ++ q) :
    exec .decompress s = .next { s with
      tree := some t.shape, obits := unpack (cs.map Prod.fst), oclosed := true, phase := .fault,
      err := .truncatedBody, ipos := 8 * input.length, stale := true, draws := s.draws + 1 } := by
  obtain ⟨hp, he, rfl, hpos, hs, hout, ho⟩ := hl
  have hroot : LegalRoot t := fun h => absurd (h.symm.trans (isLeaf_of_follow_node hq)) (by decide)
  have hq' : t.shape.follow q = some (.node 0 l.shape r.shape) := by rw [Tree.shape_follow, hq]; rfl
  have hb : s.inBits = field 32 s.params.magic.toNat ++ (t.ser ++ (cs.flatMap Prod.snd ++ q)) := by
    rw [inBits_of_ipos_zero hpos, hin, List.append_assoc, List.append_assoc]
  have hb1 := inBits_advance' hb (field_length _ _)
  have hb2 := inBits_advance' (s := { s with ipos := s.ipos + 32 }) hb1 rfl
  have hi : s.ipos + 32 + t.ser.length ≤ s.inLen := by
    have hlen := congrArg List.length hb
    rw [s.inBits_length] at hlen
    simp only [List.length_append, field_length] at hlen
    omega
  calc exec .decompress s
    _ = issueAll [.rdMagic, .rdTree, .decBody, .close] s := exec_decompress_idle hp
    _ = issueAll [.rdTree, .decBody, .close] { s with ipos := s.ipos + 32, phase := .magicR } :=
        issueAll_cons (exec_rdMagic_magic hp hs hb)
    _ = issueAll [.decBody, .close] { s with
          tree := some t.shape, ipos := s.ipos + 32 + t.ser.length, phase := .treeR } :=
        issueAll_cons (exec_rdTree_legal rfl hs hb1 hcap hroot)
    _ = issueAll [.close] { s with
          tree := some t.shape, obits := s.obits ++ unpack (cs.map Prod.fst), ipos := 8 * s.ibytes.length,
          stale := true, draws := s.draws + 1, phase := .fault, err := .truncatedBody } :=
        issueAll_cons (exec_decBody_truncated rfl hs ho he hi rfl (fun c h => follow_shape_leaf (hc c h)) hq' hb2)
    _ = issueAll [] { s with
          tree := some t.shape, obits := padded (s.obits ++ unpack (cs.map Prod.fst)), oclosed := true,
          ipos := 8 * s.ibytes.length, stale := true, draws := s.draws + 1, phase := .fault, err := .truncatedBody } :=
        issueAll_cons (exec_close_fault rfl ho)
    _ = _ := by rw [issueAll_nil, hout, List.nil_append, padded_unpack]

/-- Settles O55: a call runs its steps as the host would issue them, and the truncated artifact's steps are RDMAGIC,
RDTREE, DECBODY's fault and CLOSE. -/
theorem macrosAreTheirSteps : Obligations.MacrosAreTheirSteps := by
  refine ⟨fun s m steps hp hm => ?_, fun s input t l r cs q w => exec_decompress_truncated⟩
  have hcall : exec m s = issueAll (steps ++ [.close]) s ∧ ∀ i ∈ steps, i.isCommand = true ∧ i ≠ .close := by
    obtain ⟨rfl, rfl⟩ | ⟨rfl, rfl⟩ := hm
    · exact ⟨exec_compress_idle hp, by decide⟩
    · exact ⟨exec_decompress_idle hp, by decide⟩
  obtain ⟨hexec, hsteps⟩ := hcall
  refine ⟨hexec, fun before after i t hsplit hi ht => ?_⟩
  subst hsplit
  rw [hexec, issueAll_close_of_step_fault hsteps hi ht]

end Sys2Proof.Machine
end

section
/-! SUPPORT. DECBODY and DECOMPRESS over the codes of some bytes and of `PSEUDO_EOF` (spec/45_decoder.md R182 to R184),
and the artifact of COMPRESS read back (R187). -/

namespace Sys2Proof.Machine

/-! ### DECBODY -/

/-- DECBODY on a bare leaf (R183). -/
theorem exec_decBody_bareLeaf {s : State} {v : Sym} {w : Nat} (hp : s.phase = .treeR) (ht : s.tree = some (.leaf v w)) :
    exec .decBody s = .next { s with phase := .bodyR } := by
  rw [exec, execDecBody, issue_of_phase rfl (by decide) hp, decBodyRule, needTree_some ht, Act.andThen_done,
    Tree.isLeaf, if_pos rfl, Act.finish_done, State.enter]

/-- On a bare leaf that has a code of `PSEUDO_EOF` there are no codes of bytes, and that code is empty (R133, R183). -/
theorem codes_of_bareLeaf {v : Sym} {n w : Nat} {cs : List Coded} {e : Bits}
    (hc : ∀ c ∈ cs, ∃ w, (Tree.leaf v n).follow c.2 = some (.leaf (byteSym c.1) w))
    (he : (Tree.leaf v n).follow e = some (.leaf pseudoEof w)) : cs = [] ∧ e = [] ∧ v = pseudoEof := by
  obtain ⟨hnil, hleaf⟩ := Tree.follow_leaf.mp he
  have hv : v = pseudoEof := (Tree.leaf.inj hleaf).1.symm
  refine ⟨List.eq_nil_iff_forall_not_mem.mpr fun c hmem => ?_, hnil, hv⟩
  obtain ⟨x, hx⟩ := hc c hmem
  exact byteSym_ne_eof c.1 ((Tree.leaf.inj (Tree.follow_leaf.mp hx).2).1.trans hv)

/-- DECBODY over the codes of some bytes and a code of `PSEUDO_EOF`, on a bare leaf too (R182, R183). -/
theorem exec_decBody_codes {s : State} {t : Tree} {cs : List Coded} {e rest : Bits} {w : Nat} (hp : s.phase = .treeR)
    (hs : s.stale = false) (ho : s.oclosed = false) (ht : s.tree = some t)
    (hc : ∀ c ∈ cs, ∃ w, t.follow c.2 = some (.leaf (byteSym c.1) w)) (he : t.follow e = some (.leaf pseudoEof w))
    (hb : s.inBits = cs.flatMap Prod.snd ++ e ++ rest) :
    exec .decBody s = .next { s with
      obits := s.obits ++ unpack (cs.map Prod.fst), ipos := s.ipos + (cs.flatMap Prod.snd ++ e).length,
      phase := .bodyR } := by
  cases t with
  | leaf v n =>
    obtain ⟨rfl, rfl, -⟩ := codes_of_bareLeaf hc he
    rw [exec_decBody_bareLeaf hp ht]
    simp
  | node n l r =>
    have hbound : cs.length < s.readBound := by
      have hlt := length_lt_readBound hb
      rw [List.length_append] at hlt
      exact ((length_le_codes rfl hc).trans (Nat.le_add_right _ _)).trans_lt hlt
    rw [exec_decBody_treeR hp ht rfl, decLoop_codes ho hs hc he hb hbound, Act.andThen_done, Act.finish_done,
      State.enter]

/-! ### DECOMPRESS -/

/-- DECOMPRESS, launched on an artifact whose body ends with a code of `PSEUDO_EOF`, whatever follows it: its four steps
(R184). -/
theorem exec_decompress_codes {s : State} {input : List Byte} {t : Tree} {cs : List Coded} {e rest : Bits} {w : Nat}
    (hl : Launched input s) (hcap : FitsNodeCap s.params t.size)
    (hc : ∀ c ∈ cs, ∃ w, t.follow c.2 = some (.leaf (byteSym c.1) w)) (he : t.follow e = some (.leaf pseudoEof w))
    (hin : unpack input = field 32 s.params.magic.toNat ++ t.ser ++ cs.flatMap Prod.snd ++ e ++ rest) :
    exec .decompress s = .next { s with
      tree := some t.shape, obits := unpack (cs.map Prod.fst), oclosed := true, phase := .done,
      ipos := (field 32 s.params.magic.toNat ++ t.ser ++ cs.flatMap Prod.snd ++ e).length } := by
  obtain ⟨hp, -, rfl, hpos, hs, hout, ho⟩ := hl
  have hroot : LegalRoot t := by
    cases t with
    | leaf v n =>
      obtain ⟨-, -, rfl⟩ := codes_of_bareLeaf hc he
      exact fun _ => rfl
    | node => exact nofun
  obtain ⟨w', he'⟩ := follow_shape_leaf ⟨w, he⟩
  have hb : s.inBits = field 32 s.params.magic.toNat ++ (t.ser ++ (cs.flatMap Prod.snd ++ e ++ rest)) := by
    rw [inBits_of_ipos_zero hpos, hin]
    simp only [List.append_assoc]
  have hb1 := inBits_advance' hb (field_length _ _)
  have hb2 := inBits_advance' (s := { s with ipos := s.ipos + 32 }) hb1 rfl
  calc exec .decompress s
    _ = issueAll [.rdMagic, .rdTree, .decBody, .close] s := exec_decompress_idle hp
    _ = issueAll [.rdTree, .decBody, .close] { s with ipos := s.ipos + 32, phase := .magicR } :=
        issueAll_cons (exec_rdMagic_magic hp hs hb)
    _ = issueAll [.decBody, .close] { s with
          tree := some t.shape, ipos := s.ipos + 32 + t.ser.length, phase := .treeR } :=
        issueAll_cons (exec_rdTree_legal rfl hs hb1 hcap hroot)
    _ = issueAll [.close] { s with
          tree := some t.shape, obits := s.obits ++ unpack (cs.map Prod.fst), phase := .bodyR,
          ipos := s.ipos + 32 + t.ser.length + (cs.flatMap Prod.snd ++ e).length } :=
        issueAll_cons (exec_decBody_codes rfl hs ho rfl (fun c h => follow_shape_leaf (hc c h)) he' hb2)
    _ = issueAll [] { s with
          tree := some t.shape, obits := padded (s.obits ++ unpack (cs.map Prod.fst)), oclosed := true, phase := .done,
          ipos := s.ipos + 32 + t.ser.length + (cs.flatMap Prod.snd ++ e).length } :=
        issueAll_cons (exec_close_body (.inr rfl) ho)
    _ = _ := by
        rw [issueAll_nil, hout, List.nil_append, padded_unpack, hpos]
        simp only [List.length_append, field_length, Nat.zero_add, Nat.add_assoc]

/-! ### The artifact of COMPRESS -/

/-- The bytes of an input with their codes in a tree. -/
def codedInput (t : Tree) (bs : List Byte) : List Coded := bs.map fun b => (b, codeOf t (byteSym b))

theorem codedInput_fst (t : Tree) (bs : List Byte) : (codedInput t bs).map Prod.fst = bs := by
  simp [codedInput, Function.comp_def]

theorem codedInput_follow {bs : List Byte} {t : Tree} (h : BuiltFor (freqOf bs) t) :
    ∀ c ∈ codedInput t bs, ∃ w, t.follow c.2 = some (.leaf (byteSym c.1) w) := by
  intro c hc
  obtain ⟨b, hb, rfl⟩ := List.mem_map.mp hc
  exact codeOf_follow (h.byte_mem_leaves hb)

/-- A body is the codes of its bytes and the code of `PSEUDO_EOF` (R75, R164). -/
theorem bodyOf_eq_codedInput (t : Tree) (bs : List Byte) :
    bodyOf t bs = (codedInput t bs).flatMap Prod.snd ++ codeOf t pseudoEof := by
  rw [bodyOf, codedInput, List.flatMap_map]

/-- A legal configuration has room for every tree built for an input (R115). -/
theorem BuiltFor.fitsNodeCap {f : Vector Nat 257} {t : Tree} {p : Params} (h : BuiltFor f t) (hp : p.legal = true) :
    FitsNodeCap p t.size := by
  intro c hc
  obtain ⟨-, hcap⟩ := Bool.and_eq_true_iff.mp hp
  rw [hc] at hcap
  exact h.size_le.trans (of_decide_eq_true hcap)

theorem padded_length_mod (b : Bits) : (padded b).length % 8 = 0 := by
  rw [padded, List.length_append, List.length_replicate, add_padLen_mod]

/-- The bytes COMPRESS delivers read back as the padded artifact (R41, R48). -/
theorem unpack_pack_padded (b : Bits) : unpack (pack (padded b)) = padded b := unpack_pack (padded_length_mod b)

/-- Settles O53: the tree read has the shape of the tree built, so DECBODY walks the codes that ENCBODY wrote, and the
pad is what follows the code of `PSEUDO_EOF`. -/
theorem roundTrip : Obligations.RoundTrip := by
  intro s bs hl hfit
  obtain ⟨t, ht⟩ := exists_buildTree_freqOf s.params.tie bs
  have hbuilt := builtFor_of_buildTree ht
  refine ⟨_, exec_compress_fits hl hfit ht, ⟨rfl, rfl, hl.noErr⟩, fun s' hl' hmagic hlegal => ?_⟩
  obtain ⟨w, he⟩ := codeOf_follow hbuilt.eof_mem_leaves
  have hin : unpack (pack (padded (artifactBits s.params t bs))) =
      field 32 s'.params.magic.toNat ++ t.ser ++ (codedInput t bs).flatMap Prod.snd ++ codeOf t pseudoEof ++
        List.replicate (padLen (artifactBits s.params t bs).length) false := by
    rw [unpack_pack_padded, padded, artifactBits, bodyOf_eq_codedInput, hmagic]
    simp only [List.append_assoc]
  refine ⟨_, exec_decompress_codes hl' (hbuilt.fitsNodeCap hlegal) (codedInput_follow hbuilt) he hin,
    ⟨rfl, rfl, hl'.noErr⟩, ?_⟩
  rw [State.obytes, pack_unpack, codedInput_fst]

/-! ### The statements -/

/-- Settles O47: DECBODY over the codes. -/
theorem decBodyWritesTheBytes : Obligations.DecBodyWritesTheBytes :=
  fun _ _ _ _ _ _ hp hs ho ht _ hc he hb => exec_decBody_codes hp hs ho ht hc he hb

/-- Settles O48: RDTREE's root check is in the invariant, and DECBODY ends at once on a leaf. -/
theorem decBodyOnTheBareLeaf : Obligations.DecBodyOnTheBareLeaf := by
  refine ⟨fun s t h hp ht hl => ?_, fun _ _ hp ht => exec_decBody_bareLeaf hp ht⟩
  obtain ⟨u, hu, -, hroot⟩ := h.read (.inl hp)
  cases ht.symm.trans hu
  exact hroot hl

/-- Settles O49: the loop ends inside the broken code. -/
theorem decBodyOnATruncatedBody : Obligations.DecBodyOnATruncatedBody :=
  fun _ _ _ _ _ _ _ hp hs ho herr hi ht _ hc hq hb => exec_decBody_truncated hp hs ho herr hi ht hc hq hb

/-- Settles O50: the four steps of DECOMPRESS. -/
theorem decompressWritesTheBytes : Obligations.DecompressWritesTheBytes :=
  fun _ _ _ _ _ _ _ hl hcap hc he hin => exec_decompress_codes hl hcap hc he hin

end Sys2Proof.Machine
end

section
/-! SUPPORT. RDMAGIC on every input, and the calls of DECOMPRESS that a step aborts (spec/45_decoder.md R180, R181,
R184). -/

namespace Sys2Proof.Machine

/-! ### The header -/

/-- The first bits of a byte sequence, position by position (R41). -/
theorem take_unpack {bs : List Byte} {n : Nat} (h : n ≤ 8 * bs.length) :
    (unpack bs).take n = (List.range n).map (bitAt bs) := by
  refine List.ext_getElem (by simpa using h) fun i h1 _ => ?_
  rw [List.getElem_take, List.getElem_map, List.getElem_range, ← unpack_getD, List.getD_eq_getElem]

/-- The first 32 bits of an input are those of a word when each of them is (R180). -/
theorem take_unpack_eq_field_iff {bs : List Byte} (m : Word) (h : 32 ≤ 8 * bs.length) :
    (unpack bs).take 32 = field 32 m.toNat ↔ ∀ i, i < 32 → bitAt bs i = m.getLsbD (31 - i) := by
  rw [take_unpack h, field_eq_map, List.map_inj_left]
  simp only [List.mem_range, BitVec.testBit_toNat]

/-- Bits whose number is a word are the word's field (R7). -/
theorem eq_field_of_ofNat_num {p : Bits} {n : Nat} {m : BitVec n} (hp : p.length = n) (h : BitVec.ofNat n (num p) = m) :
    p = field n m.toNat := by
  rw [← h, toNat_ofNat_num hp, ← hp, field_num]

/-! ### RDMAGIC -/

theorem exec_rdMagic_idle {s : State} (hp : s.phase = .idle) : exec .rdMagic s = (rdMagicRule s).finish := by
  rw [exec, execRdMagic, issue_of_phase rfl (by decide) hp]

/-- RDMAGIC on 32 bits other than those of `MAGIC` (R181). -/
theorem exec_rdMagic_other {s : State} {p rest : Bits} (hp : s.phase = .idle) (hs : s.stale = false)
    (herr : s.err = .none) (hb : s.inBits = p ++ rest) (hl : p.length = 32) (hne : p ≠ field 32 s.params.magic.toNat) :
    exec .rdMagic s = .next { s with ipos := s.ipos + 32, phase := .fault, err := .malformedHeader } := by
  have hm : ¬ BitVec.ofNat 32 (num p) = s.params.magic := fun h => hne (eq_field_of_ofNat_num hl h)
  rw [exec_rdMagic_idle hp, rdMagicRule, getMagic, inRead_fresh (by decide) (by decide) hs hb hl, Act.andThen_done]
  dsimp only
  rw [if_neg hm, Act.finish_raised, raise_of_noErr (by exact herr)]

/-- RDMAGIC on fewer than 32 bits (R181). -/
theorem exec_rdMagic_short {s : State} (hp : s.phase = .idle) (herr : s.err = .none) (hend : s.inLen < s.ipos + 32) :
    exec .rdMagic s = .next { s.afterEos with phase := .fault, err := .malformedHeader } := by
  rw [exec_rdMagic_idle hp, rdMagicRule, getMagic, inRead_end (by decide) (by decide) hend, Act.andThen_done,
    Act.finish_raised, raise_of_noErr (by exact herr)]

/-- Settles O46: the 32 bits read are compared as one number, and fewer are an end of the stream. -/
theorem rdMagicComparesEveryBit : Obligations.RdMagicComparesEveryBit := by
  intro s hp hpos hs herr
  have hin : s.inBits = (unpack s.ibytes).take 32 ++ (unpack s.ibytes).drop 32 := by
    rw [List.take_append_drop, inBits_of_ipos_zero hpos]
  have hpos32 : s.ipos + 32 = 32 := by rw [hpos]
  refine ⟨fun hlong => ?_, fun hshort => ?_⟩
  · have hlen : ((unpack s.ibytes).take 32).length = 32 := by rw [List.length_take, unpack_length]; omega
    have hiff := take_unpack_eq_field_iff s.params.magic hlong
    refine ⟨fun heq => ?_, fun ⟨i, hi, hne⟩ => ?_⟩
    · rw [hiff.mpr heq] at hin
      rw [exec_rdMagic_magic hp hs hin, hpos32]
    · rw [exec_rdMagic_other hp hs herr hin hlen fun h => hne (hiff.mp h i hi), hpos32]
  · have hlt : s.inLen < s.ipos + 32 := by rw [hpos32]; exact hshort
    exact ⟨_, (State.afterEos_ipos_le (hpos.trans_le (Nat.zero_le _))).2, exec_rdMagic_short hp herr hlt⟩

/-! ### Aborted calls -/

/-- A step of a call has raised `e`, and the output is still open for the CLOSE that comes next (R184, R209). -/
structure Aborted (e : Err) (t : State) : Prop where
  phase : t.phase = .fault
  err : t.err = e
  isOpen : t.oclosed = false

/-- Fault entry on a running core aborts its call (R209). -/
theorem aborted_raise {s : State} (h : Running s) (e : Err) : Aborted e (s.raise e) :=
  ⟨rfl, if_pos h.1, h.2⟩

/-- CLOSE after a fault ends the call, with what was written before it and the pad (R165, R213). -/
theorem Aborted.close {e : Err} {t : State} (h : Aborted e t) :
    ∃ u, exec .close t = .next u ∧ FailedWith e u ∧ u.obits = padded t.obits :=
  ⟨_, exec_close_fault h.phase h.isOpen, ⟨rfl, h.phase, h.err⟩, rfl⟩

/-- DECOMPRESS where one of its steps is aborted (R184). -/
theorem exec_decompress_aborted {s t : State} {e : Err} (before after : List Instr) {i : Instr} (hp : s.phase = .idle)
    (hsteps : decompressSteps = before ++ i :: after) (hi : issueAll (before ++ [i]) s = .next t) (h : Aborted e t) :
    ∃ u, exec .decompress s = .next u ∧ FailedWith e u ∧ u.obits = padded t.obits := by
  obtain ⟨u, hclose, hu⟩ := h.close
  refine ⟨u, ?_, hu⟩
  rw [exec_decompress_idle hp, hsteps, issueAll_close_of_step_fault (hsteps ▸ by decide) hi h.phase, hclose]

/-! ### The two ends of RDMAGIC -/

/-- What RDMAGIC can do on a running core at the start of its input: find `MAGIC`, or abort with nothing written (R180,
R181). -/
theorem exec_rdMagic_cases {s : State} (hp : s.phase = .idle) (hs : s.stale = false) (hrun : Running s) :
    ((∃ rest, s.inBits = field 32 s.params.magic.toNat ++ rest) ∧
      exec .rdMagic s = .next { s with ipos := s.ipos + 32, phase := .magicR }) ∨
    ∃ t, exec .rdMagic s = .next t ∧ Aborted .malformedHeader t ∧ t.obits = s.obits := by
  obtain ⟨herr, ho⟩ := hrun
  by_cases hlong : s.ipos + 32 ≤ s.inLen
  · obtain ⟨p, rest, hb, hl⟩ := State.inBits_split hlong
    by_cases hm : p = field 32 s.params.magic.toNat
    · subst hm
      exact .inl ⟨⟨rest, hb⟩, exec_rdMagic_magic hp hs hb⟩
    · exact .inr ⟨_, exec_rdMagic_other hp hs herr hb hl hm, ⟨rfl, rfl, ho⟩, rfl⟩
  · exact .inr ⟨_, exec_rdMagic_short hp herr (Nat.lt_of_not_le hlong), ⟨rfl, rfl, ho⟩, rfl⟩

/-- Settles O51: RDMAGIC aborts the call before anything is written, and an empty output needs no pad. -/
theorem decompressRejectsAWrongHeader : Obligations.DecompressRejectsAWrongHeader := by
  rintro s bs ⟨hp, herr, rfl, hpos, hs, hout, ho⟩ hne
  obtain ⟨⟨rest, hb⟩, -⟩ | ⟨t, ht, habort, hobits⟩ := exec_rdMagic_cases hp hs ⟨herr, ho⟩
  · exact absurd ((inBits_of_ipos_zero hpos).symm.trans hb) (hne rest)
  · obtain ⟨u, hu, hfail, hempty⟩ :=
      exec_decompress_aborted [] [.rdTree, .decBody] hp rfl ((issueAll_singleton _ _).trans ht) habort
    rw [hobits, hout] at hempty
    exact ⟨u, hu, hfail, hempty, by rw [State.obytes, hempty]; rfl⟩

end Sys2Proof.Machine
end

section
/-! SUPPORT. DECOMPRESS always ends (spec/45_decoder.md R186): the faults each of its steps can raise, and the two ends
of each step. -/

namespace Sys2Proof.Machine

/-! ### The faults a piece can raise -/

/-- The piece raises no fault but these (R209). -/
def Act.RaisesOnly {α : Type} (es : List Err) (x : Act α) : Prop :=
  match x with
  | .done _ _ => True
  | .raised e _ => e ∈ es
  | .halted _ => True
  | .refused _ => True

/-- A sequence raises what its parts raise. -/
theorem Act.RaisesOnly.andThen {α β : Type} {es : List Err} {x : Act α} {f : α → State → Act β} (h : x.RaisesOnly es)
    (k : ∀ a t, (f a t).RaisesOnly es) : (x.andThen f).RaisesOnly es := by
  cases x with
  | done a t => exact k a t
  | raised e t => exact h
  | halted r => trivial
  | refused r => trivial

/-- The ports raise no fault of the spec (R42). -/
theorem inRead_raisesOnly (es : List Err) (n : Nat) (s : State) : (inRead n s).RaisesOnly es := by
  rcases inRead_cases n s with ⟨_, e⟩ | ⟨_, _, _, e⟩ | ⟨_, _, _, v, d, _, e⟩ <;> rw [e] <;> trivial

theorem outWrite_raisesOnly (es : List Err) (n v : Nat) (s : State) : (outWrite n v s).RaisesOnly es := by
  unfold outWrite outBits
  split
  · trivial
  · split <;> trivial

theorem getRecord_raisesOnly (count : Nat) (s : State) :
    (getRecord count s).RaisesOnly [.malformedTree, .illegalTree] := by
  refine (inRead_raisesOnly _ 1 s).andThen fun a t => ?_
  match a with
  | .eos => exact List.mem_cons_self
  | .val b =>
    dsimp only
    split
    · exact List.mem_cons_of_mem _ List.mem_cons_self
    · split
      · trivial
      · refine (inRead_raisesOnly _ 9 t).andThen fun a u => ?_
        match a with
        | .eos => exact List.mem_cons_self
        | .val v =>
          dsimp only
          split
          · exact List.mem_cons_of_mem _ List.mem_cons_self
          · trivial

theorem getTree_raisesOnly (bound count : Nat) (s : State) :
    (getTree bound count s).RaisesOnly [.malformedTree, .illegalTree] := by
  induction bound generalizing count s with
  | zero => trivial
  | succ bound ih =>
    refine (getRecord_raisesOnly count s).andThen fun a t => ?_
    cases a with
    | leaf v => trivial
    | internal => exact (ih _ t).andThen fun lc u => (ih _ u).andThen fun _ _ => trivial

theorem getCode_raisesOnly (t : Tree) (s : State) : (getCode t s).RaisesOnly [.truncatedBody] := by
  induction t generalizing s with
  | leaf v w => trivial
  | node w l r ihl ihr =>
    refine (inRead_raisesOnly _ 1 s).andThen fun a u => ?_
    match a with
    | .eos => exact List.mem_cons_self
    | .val b =>
      dsimp only
      split
      · exact ihl u
      · exact ihr u

theorem decLoop_raisesOnly (root : Tree) (bound : Nat) (s : State) :
    (decLoop root bound s).RaisesOnly [.truncatedBody] := by
  induction bound generalizing s with
  | zero => trivial
  | succ bound ih =>
    refine (getCode_raisesOnly root s).andThen fun v t => ?_
    split
    · trivial
    · exact (outWrite_raisesOnly _ _ _ t).andThen fun _ u => ih u

/-! ### The two ends of a step -/

theorem PortsMoved.running {s t : State} (h : PortsMoved s t) (hs : Running s) : Running t := by
  obtain ⟨_, _, _, _, rfl, -⟩ := h
  exact hs

/-- A piece on the ports that neither stops nor is refused is done or raises one of its faults, and leaves a running
core running. -/
theorem ends_of_running {α : Type} {s : State} {es : List Err} {x : Act α} (hrun : Running s)
    (hh : ∀ r, x ≠ .halted r) (hr : x.NeverRefused) (hm : x.MovesPorts s) (he : x.RaisesOnly es) :
    (∃ a t, x = .done a t ∧ Running t) ∨ ∃ e ∈ es, ∃ t, x = .raised e t ∧ Running t := by
  cases x with
  | done a t => exact .inl ⟨a, t, rfl, PortsMoved.running hm hrun⟩
  | raised e t => exact .inr ⟨e, he, t, rfl, PortsMoved.running hm.2 hrun⟩
  | halted r => exact absurd rfl (hh r)
  | refused r => exact absurd rfl (hr r)

/-- What RDTREE can do on a running core: read a tree, or abort with one of its two faults (R143 to R145). -/
theorem exec_rdTree_cases {s : State} (hp : s.phase = .magicR) (hrun : Running s) :
    (∃ t u, exec .rdTree s = .next u ∧ u.phase = .treeR ∧ u.tree = some t ∧ Running u) ∨
    ∃ e ∈ [Err.malformedTree, .illegalTree], ∃ u, exec .rdTree s = .next u ∧ Aborted e u := by
  rw [exec_rdTree_magicR hp, rdTreeRule]
  obtain ⟨⟨t, c⟩, u, e, hu⟩ | ⟨err, hmem, u, e, hu⟩ := ends_of_running (s := { s with tree := none })
    (x := getTree s.readBound 0 { s with tree := none }) hrun (getTree_not_halted 0 le_rfl)
    (getTree_neverRefused _ 0 _) (getTree_movesPorts _ 0 _) (getTree_raisesOnly _ 0 _)
  · rw [e, Act.andThen_done]
    split
    · exact .inr ⟨.illegalTree, by decide, _, rfl, aborted_raise hu _⟩
    · exact .inl ⟨t, _, rfl, rfl, rfl, hu⟩
  · rw [e, Act.andThen_raised]
    exact .inr ⟨err, hmem, _, rfl, aborted_raise hu _⟩

/-- What DECBODY can do on a running core that has a tree: end normally, or abort with its one fault (R182, R183,
R185). -/
theorem exec_decBody_cases {s : State} {t : Tree} (hp : s.phase = .treeR) (ht : s.tree = some t) (hrun : Running s) :
    (∃ u, exec .decBody s = .next u ∧ u.phase = .bodyR ∧ Running u) ∨
    ∃ u, exec .decBody s = .next u ∧ Aborted .truncatedBody u := by
  cases t with
  | leaf v w => exact .inl ⟨_, exec_decBody_bareLeaf hp ht, rfl, hrun⟩
  | node w l r =>
    rw [exec_decBody_treeR hp ht rfl]
    obtain ⟨_, u, e, hu⟩ | ⟨err, hmem, u, e, hu⟩ := ends_of_running hrun (decLoop_not_halted rfl le_rfl)
      (decLoop_neverRefused _ s.readBound hrun.2) (decLoop_movesPorts _ _ hrun.2) (decLoop_raisesOnly (.node w l r) _ s)
    · rw [e, Act.andThen_done]
      exact .inl ⟨_, rfl, rfl, hu⟩
    · rw [e, Act.andThen_raised, List.mem_singleton.mp hmem]
      exact .inr ⟨_, rfl, aborted_raise hu _⟩

/-! ### The whole call -/

/-- The faults of DECOMPRESS (R184). -/
def decompressFaults : List Err := [.malformedHeader, .malformedTree, .illegalTree, .truncatedBody]

/-- Some steps and the CLOSE after them end a call of DECOMPRESS: in success or in one of its faults, with whole bytes
written (R184, R186). -/
def EndsCall (is : List Instr) (s : State) : Prop :=
  ∃ u, issueAll (is ++ [.close]) s = .next u ∧ u.obits.length % 8 = 0 ∧
    (Succeeded u ∨ ∃ e ∈ decompressFaults, FailedWith e u)

theorem endsCall_cons {i : Instr} {is : List Instr} {s t : State} (hi : exec i s = .next t) (h : EndsCall is t) :
    EndsCall (i :: is) s := by
  obtain ⟨u, hu, hend⟩ := h
  exact ⟨u, (issueAll_cons hi).trans hu, hend⟩

/-- After an aborted step the steps left are skipped, and CLOSE ends the call (R184). -/
theorem endsCall_of_aborted {is : List Instr} {t : State} {e : Err} (hcmd : ∀ i ∈ is, i.isCommand = true ∧ i ≠ .close)
    (he : e ∈ decompressFaults) (h : Aborted e t) : EndsCall is t := by
  obtain ⟨u, hu, hfail, hout⟩ := h.close
  exact ⟨u, (issueAll_close_of_fault hcmd h.phase).trans hu, hout ▸ padded_length_mod _, .inr ⟨e, he, hfail⟩⟩

theorem endsCall_bodyR {s : State} (hp : s.phase = .bodyR) (hrun : Running s) : EndsCall [] s :=
  ⟨_, (issueAll_singleton _ _).trans (exec_close_body (.inr hp) hrun.2), padded_length_mod _, .inl ⟨rfl, rfl, hrun.1⟩⟩

theorem endsCall_treeR {s : State} {t : Tree} (hp : s.phase = .treeR) (ht : s.tree = some t) (hrun : Running s) :
    EndsCall [.decBody] s := by
  obtain ⟨u, hu, hpu, hrun⟩ | ⟨u, hu, habort⟩ := exec_decBody_cases hp ht hrun
  · exact endsCall_cons hu (endsCall_bodyR hpu hrun)
  · exact endsCall_cons hu (endsCall_of_aborted nofun (by decide) habort)

theorem endsCall_magicR {s : State} (hp : s.phase = .magicR) (hrun : Running s) : EndsCall [.rdTree, .decBody] s := by
  obtain ⟨t, u, hu, hpu, ht, hrun⟩ | ⟨e, he, u, hu, habort⟩ := exec_rdTree_cases hp hrun
  · exact endsCall_cons hu (endsCall_treeR hpu ht hrun)
  · have hfaults : [Err.malformedTree, .illegalTree] ⊆ decompressFaults := by decide
    exact endsCall_cons hu (endsCall_of_aborted (by decide) (hfaults he) habort)

theorem endsCall_idle {s : State} (hp : s.phase = .idle) (hs : s.stale = false) (hrun : Running s) :
    EndsCall decompressSteps s := by
  obtain ⟨-, hu⟩ | ⟨u, hu, habort, -⟩ := exec_rdMagic_cases hp hs hrun
  · exact endsCall_cons hu (endsCall_magicR rfl hrun)
  · exact endsCall_cons hu (endsCall_of_aborted (by decide) (by decide) habort)

/-- Settles O52: each step of DECOMPRESS hands a running core to the next one or aborts the call with one of its own
faults. -/
theorem decompressAlwaysEnds : Obligations.DecompressAlwaysEnds := by
  intro s bs hl
  obtain ⟨u, hu, hwhole, hend⟩ := endsCall_idle hl.idle hl.fresh ⟨hl.noErr, hl.isOpen⟩
  refine ⟨u, (exec_decompress_idle hl.idle).trans hu, hwhole, ?_⟩
  simpa [decompressFaults] using hend

end Sys2Proof.Machine
end

section
/-! SUPPORT. DECOMPRESS on an artifact that is cut off (spec/45_decoder.md R188): inside the serialized tree RDTREE
aborts the call, after it DECBODY does. -/

namespace Sys2Proof

/-! ### Beginnings of bit strings -/

/-- `p` is the beginning of `q`, and not all of it. -/
def CutOf (p q : Bits) : Prop := p <+: q ∧ p.length < q.length

theorem cutOf_cons {p q : Bits} {b : Bool} (h : CutOf p (b :: q)) : p = [] ∨ ∃ p', p = b :: p' ∧ CutOf p' q := by
  obtain ⟨hpre, hlt⟩ := h
  obtain rfl | ⟨p', rfl, hp'⟩ := List.prefix_cons_iff.mp hpre
  · exact .inl rfl
  · exact .inr ⟨p', rfl, hp', Nat.lt_of_succ_lt_succ hlt⟩

/-- A beginning of two parts ends inside the first or inside the second. -/
theorem cutOf_append {p q r : Bits} (h : CutOf p (q ++ r)) : CutOf p q ∨ ∃ p', p = q ++ p' ∧ CutOf p' r := by
  obtain ⟨hpre, hlt⟩ := h
  by_cases hl : p.length < q.length
  · exact .inl ⟨List.prefix_of_prefix_length_le hpre (List.prefix_append q r) hl.le, hl⟩
  · obtain ⟨p', rfl⟩ := List.prefix_of_prefix_length_le (List.prefix_append q r) hpre (Nat.le_of_not_lt hl)
    rw [List.length_append, List.length_append, Nat.add_lt_add_iff_left] at hlt
    exact .inr ⟨p', rfl, (List.prefix_append_right_inj q).mp hpre, hlt⟩

/-- A path to a leaf that is cut off leads to an internal node (R79, R135). -/
theorem Tree.follow_of_cutOf {t : Tree} {p q : Bits} {v : Sym} {w : Nat} (h : CutOf q p)
    (hp : t.follow p = some (.leaf v w)) : ∃ n l r, t.follow q = some (.node n l r) := by
  obtain ⟨⟨r, rfl⟩, hlt⟩ := h
  rw [Tree.follow_append, Option.bind_eq_some_iff] at hp
  obtain ⟨u, hu, hr⟩ := hp
  cases u with
  | leaf =>
    rw [(Tree.follow_leaf.mp hr).1, List.append_nil] at hlt
    exact absurd hlt (Nat.lt_irrefl _)
  | node n l r => exact ⟨n, l, r, hu⟩

theorem unpack_isPrefix {as bs : List Byte} (h : as <+: bs) : unpack as <+: unpack bs := by
  obtain ⟨cs, rfl⟩ := h
  rw [unpack_append]
  exact List.prefix_append _ _

namespace Machine

/-! ### RDTREE -/

/-- No bit is left where a record is expected (R144). -/
theorem getRecord_of_inBits_nil {count : Nat} {s : State} (h : s.inBits = []) :
    getRecord count s = .raised .malformedTree s.afterEos := by
  have hend := inLen_of_inBits_nil h
  rw [getRecord, inRead_end (by decide) (by decide) (by omega), Act.andThen_done]

/-- A leaf's record that is cut off (R144). -/
theorem getRecord_cut_leaf {count : Nat} {s : State} {v : Sym} (hs : s.stale = false)
    (hb : CutOf s.inBits (true :: field9 v)) (hc : FitsNodeCap s.params (count + 1)) :
    ∃ u, getRecord count s = .raised .malformedTree u := by
  obtain hnil | ⟨q, hq, hcut⟩ := cutOf_cons hb
  · exact ⟨_, getRecord_of_inBits_nil hnil⟩
  · have hshort : s.inLen < s.ipos + 10 := by
      have hl := s.inBits_length
      have hlt := hcut.2
      rw [hq, List.length_cons] at hl
      rw [field9_length] at hlt
      omega
    exact ⟨_, getRecord_short_field hs hq hc hshort⟩

/-- Reading a serialized tree that is cut off (R144). -/
theorem getTree_cut (t : Tree) {bound count : Nat} {s : State} (hd : s.inBits.length < bound) (hs : s.stale = false)
    (hb : CutOf s.inBits t.ser) (hc : FitsNodeCap s.params (count + t.size)) :
    ∃ u, getTree bound count s = .raised .malformedTree u := by
  induction t generalizing bound count s with
  | leaf v w =>
    obtain ⟨n, rfl⟩ : ∃ n, bound = n + 1 := ⟨bound - 1, by omega⟩
    obtain ⟨u, hu⟩ := getRecord_cut_leaf hs hb hc
    exact ⟨u, by rw [getTree, hu, Act.andThen_raised]⟩
  | node w l r ihl ihr =>
    obtain ⟨n, rfl⟩ : ∃ n, bound = n + 1 := ⟨bound - 1, by omega⟩
    simp only [Tree.size] at hc
    obtain hnil | ⟨q, hq, hcut⟩ := cutOf_cons hb
    · exact ⟨_, by rw [getTree, getRecord_of_inBits_nil hnil, Act.andThen_raised]⟩
    · have hnext := inBits_bit hq
      rw [hq, List.length_cons, Nat.succ_lt_succ_iff] at hd
      rw [getTree, getRecord_internal hs hq (hc.mono (by omega)), Act.andThen_done]
      dsimp only
      obtain hleft | ⟨p, rfl, hright⟩ := cutOf_append hcut
      · obtain ⟨u, hu⟩ := ihl (bound := n) (count := count + 1) (s := { s with ipos := s.ipos + 1 }) (hnext ▸ hd) hs
          (hnext ▸ hleft) (hc.mono (by omega))
        exact ⟨u, by rw [hu, Act.andThen_raised]⟩
      · rw [List.length_append] at hd
        have hsize := size_le_ser_length l
        have hrest := inBits_advance' hnext rfl
        rw [getTree_ser l (by omega) (by exact hs) hnext (hc.mono (by omega)), Act.andThen_done]
        obtain ⟨u, hu⟩ := ihr (bound := n) (count := count + 1 + l.size)
          (s := { s with ipos := s.ipos + 1 + l.ser.length }) (hrest ▸ by omega) hs (hrest ▸ hright)
          (hc.mono (by omega))
        exact ⟨u, by rw [hu, Act.andThen_raised]⟩

/-- RDTREE on a serialized tree that is cut off (R144). -/
theorem exec_rdTree_cut {s : State} {t : Tree} (hp : s.phase = .magicR) (hs : s.stale = false) (hrun : Running s)
    (hb : CutOf s.inBits t.ser) (hc : FitsNodeCap s.params t.size) :
    ∃ u, exec .rdTree s = .next u ∧ Aborted .malformedTree u := by
  have hbound : s.inBits.length < s.readBound := length_lt_readBound (List.append_nil _).symm
  obtain ⟨u, hu⟩ := getTree_cut t (count := 0) (s := { s with tree := none }) hbound hs hb (by rwa [Nat.zero_add])
  have hmoves := getTree_movesPorts s.readBound 0 { s with tree := none }
  rw [hu] at hmoves
  refine ⟨_, ?_, aborted_raise (hmoves.2.running hrun) _⟩
  rw [exec_rdTree_magicR hp, rdTreeRule, hu, Act.andThen_raised, Act.finish_raised]

/-! ### DECBODY -/

/-- A body that is cut off is the codes of some bytes and a path that leads to no leaf (R185). -/
theorem codes_of_cutOf {t : Tree} {cs : List Coded} {e p : Bits} {w : Nat}
    (hc : ∀ c ∈ cs, ∃ w, t.follow c.2 = some (.leaf (byteSym c.1) w)) (he : t.follow e = some (.leaf pseudoEof w))
    (hp : CutOf p (cs.flatMap Prod.snd ++ e)) :
    ∃ (ds : List Coded) (q : Bits) (n : Nat) (l r : Tree),
      (∀ c ∈ ds, ∃ w, t.follow c.2 = some (.leaf (byteSym c.1) w)) ∧ t.follow q = some (.node n l r) ∧
        p = ds.flatMap Prod.snd ++ q := by
  induction cs generalizing p with
  | nil =>
    obtain ⟨n, l, r, hq⟩ := Tree.follow_of_cutOf hp he
    exact ⟨[], p, n, l, r, nofun, hq, rfl⟩
  | cons c cs ih =>
    obtain ⟨hcode, hcs⟩ := List.forall_mem_cons.mp hc
    rw [List.flatMap_cons, List.append_assoc] at hp
    obtain hcut | ⟨p', rfl, hcut⟩ := cutOf_append hp
    · obtain ⟨w, hw⟩ := hcode
      obtain ⟨n, l, r, hq⟩ := Tree.follow_of_cutOf hcut hw
      exact ⟨[], p, n, l, r, nofun, hq, rfl⟩
    · obtain ⟨ds, q, n, l, r, hds, hq, rfl⟩ := ih hcs hcut
      exact ⟨c :: ds, q, n, l, r, List.forall_mem_cons.mpr ⟨hcode, hds⟩, hq, by
        rw [List.flatMap_cons, List.append_assoc]⟩

/-! ### DECOMPRESS -/

/-- DECOMPRESS, launched on the magic and then a tree and a body that are cut off (R188). -/
theorem exec_decompress_cut {s : State} {input : List Byte} {t : Tree} {cs : List Coded} {e p : Bits} {w : Nat}
    (hl : Launched input s) (hcap : FitsNodeCap s.params t.size)
    (hc : ∀ c ∈ cs, ∃ w, t.follow c.2 = some (.leaf (byteSym c.1) w)) (he : t.follow e = some (.leaf pseudoEof w))
    (hin : unpack input = field 32 s.params.magic.toNat ++ p) (hp : CutOf p (t.ser ++ (cs.flatMap Prod.snd ++ e))) :
    ∃ u, exec .decompress s = .next u ∧ (FailedWith .truncatedBody u ∨ FailedWith .malformedTree u) := by
  obtain hcut | ⟨p', rfl, hcut⟩ := cutOf_append hp
  · obtain ⟨hidle, herr, rfl, hpos, hs, -, ho⟩ := hl
    have hb : s.inBits = field 32 s.params.magic.toNat ++ p := (inBits_of_ipos_zero hpos).trans hin
    have hnext := inBits_advance' hb (field_length _ _)
    obtain ⟨v, hv, habort⟩ := exec_rdTree_cut (s := { s with ipos := s.ipos + 32, phase := .magicR }) rfl hs
      ⟨herr, ho⟩ (hnext ▸ hcut) hcap
    have hsteps : issueAll ([.rdMagic] ++ [.rdTree]) s = .next v :=
      (issueAll_cons (exec_rdMagic_magic hidle hs hb)).trans ((issueAll_singleton _ _).trans hv)
    obtain ⟨u, hu, hfail, -⟩ := exec_decompress_aborted [.rdMagic] [.decBody] hidle rfl hsteps habort
    exact ⟨u, hu, .inr hfail⟩
  · obtain ⟨ds, q, n, l, r, hds, hq, rfl⟩ := codes_of_cutOf hc he hcut
    refine ⟨_, exec_decompress_truncated hl hcap hds hq ?_, .inl ⟨rfl, rfl, rfl⟩⟩
    rw [hin, List.append_assoc, List.append_assoc]

/-! ### The artifact of COMPRESS without its last byte -/

theorem unpack_dropLast_length (bs : List Byte) : (unpack bs.dropLast).length = 8 * (bs.length - 1) := by
  rw [unpack_length, List.length_dropLast]

/-- The pad does not fill a byte, so the last byte holds at least one bit of what was padded (R48, R188). -/
theorem cutOf_dropLast_padded {b : Bits} (hb : b ≠ []) : CutOf (unpack (pack (padded b)).dropLast) b := by
  have hpad := padLen_lt b.length
  have hpos := List.length_pos_of_ne_nil hb
  have hlt : (unpack (pack (padded b)).dropLast).length < b.length := by
    rw [unpack_dropLast_length, pack_length, padded, List.length_append, List.length_replicate]
    omega
  have hpre : unpack (pack (padded b)).dropLast <+: padded b := by
    have h := unpack_isPrefix (List.dropLast_prefix (pack (padded b)))
    rwa [unpack_pack_padded] at h
  exact ⟨List.prefix_of_prefix_length_le hpre (List.prefix_append _ _) hlt.le, hlt⟩

/-- An artifact has at least six bytes, so without its last byte it still has its magic (R188). -/
theorem artifact_dropLast (p : Params) (t : Tree) (bs : List Byte) :
    ∃ q, unpack (pack (padded (artifactBits p t bs))).dropLast = field 32 p.magic.toNat ++ q ∧
      CutOf q (t.ser ++ bodyOf t bs) := by
  have hlen : 42 ≤ (artifactBits p t bs).length := by
    have hser := t.ser_length_add_one
    have hleaves := t.leaves_length_pos
    rw [artifactBits, List.length_append, List.length_append, field_length]
    omega
  have hcut := cutOf_dropLast_padded (List.ne_nil_of_length_pos (by omega : 0 < (artifactBits p t bs).length))
  have hlong : 32 ≤ (unpack (pack (padded (artifactBits p t bs))).dropLast).length := by
    have hmod := padded_length_mod (artifactBits p t bs)
    have hle : (artifactBits p t bs).length ≤ (padded (artifactBits p t bs)).length :=
      (List.prefix_append _ _).length_le
    rw [unpack_dropLast_length, pack_length]
    omega
  rw [artifactBits, List.append_assoc] at hcut
  obtain ⟨-, hshort⟩ | h := cutOf_append hcut
  · rw [field_length] at hshort
    rw [artifactBits, List.append_assoc] at hlong
    exact absurd hlong hshort.not_ge
  · rwa [artifactBits, List.append_assoc]

/-- Settles O54: the cut falls inside the tree or inside the body. -/
theorem truncatedArtifactFails : Obligations.TruncatedArtifactFails := by
  intro s u s' bs hl hfit hu hl' hmagic hlegal
  obtain ⟨t, ht⟩ := exists_buildTree_freqOf s.params.tie bs
  have hbuilt := builtFor_of_buildTree ht
  cases hu.symm.trans (exec_compress_fits hl hfit ht)
  obtain ⟨w, he⟩ := codeOf_follow hbuilt.eof_mem_leaves
  obtain ⟨q, hq, hcut⟩ := artifact_dropLast s.params t bs
  rw [bodyOf_eq_codedInput] at hcut
  rw [← hmagic] at hq
  exact exec_decompress_cut hl' (hbuilt.fitsNodeCap hlegal) (codedInput_follow hbuilt) he hq hcut

end Machine
end Sys2Proof
end

section
/-! SUPPORT. The bounds on the loops suffice in every state (spec/45_decoder.md R186; spec/70_reset_and_hazards.md R244):
for each rule, each command, each instruction and each step. -/

namespace Sys2Proof.Machine

/-! ### The rules -/

/-- The piece does not use up the bound on a loop's rounds. -/
def Act.WithinBounds {α : Type} (x : Act α) : Prop := x ≠ .halted .loopBound

theorem Act.withinBounds_done {α : Type} (a : α) (s : State) : (Act.done a s).WithinBounds := nofun

theorem Act.withinBounds_raised {α : Type} (e : Err) (s : State) : (Act.raised e s : Act α).WithinBounds := nofun

/-- A sequence stays within the bounds if both its parts do. -/
theorem Act.WithinBounds.andThen {α β : Type} {x : Act α} {f : α → State → Act β} (h : x.WithinBounds)
    (k : ∀ a t, (f a t).WithinBounds) : (x.andThen f).WithinBounds := by
  intro e
  obtain e | ⟨a, t, -, e⟩ := Act.andThen_eq_halted.mp e
  · exact h e
  · exact k a t e

/-- A table that is absent stops a rule under another name (R29). -/
theorem needTree_withinBounds (s : State) : (needTree s).WithinBounds := by
  unfold needTree
  split <;> exact nofun

theorem needFreq_withinBounds (s : State) : (needFreq s).WithinBounds := by
  unfold needFreq
  split <;> exact nofun

/-- Each merge leaves one entry less (R114, R115). -/
theorem buildTree_ne_loopBound (tie : Tie) (f : Vector Nat 257) : buildTree tie f ≠ .error .loopBound :=
  mergeLoop_not_bounded (Nat.le_succ _)

theorem countRule_withinBounds (s : State) : (countRule s).WithinBounds :=
  Act.WithinBounds.andThen (countLoop_not_halted _ le_rfl _) fun _ _ => Act.withinBounds_done _ _

theorem buildRule_withinBounds (s : State) : (buildRule s).WithinBounds := by
  refine (needFreq_withinBounds s).andThen fun f t => ?_
  split
  · exact Act.withinBounds_done _ _
  · next r hr =>
    intro e
    cases e
    exact buildTree_ne_loopBound _ _ hr

theorem genCodesRule_withinBounds (s : State) : (genCodesRule s).WithinBounds :=
  (needTree_withinBounds s).andThen fun _ _ => Act.withinBounds_done _ _

theorem wrMagicRule_withinBounds (s : State) : (wrMagicRule s).WithinBounds :=
  Act.WithinBounds.andThen (outWrite_not_halted _ _ s _) fun _ _ => Act.withinBounds_done _ _

theorem wrTreeRule_withinBounds (s : State) : (wrTreeRule s).WithinBounds :=
  (needTree_withinBounds s).andThen fun t u =>
    Act.WithinBounds.andThen (putTree_not_halted t u _) fun _ _ => Act.withinBounds_done _ _

theorem encBodyRule_withinBounds (s : State) : (encBodyRule s).WithinBounds :=
  Act.WithinBounds.andThen (encLoop_not_halted le_rfl _) fun _ t =>
    Act.WithinBounds.andThen (putCode_not_halted _ t _) fun _ _ => Act.withinBounds_done _ _

theorem closeRule_withinBounds (s : State) : (closeRule s).WithinBounds :=
  (Act.WithinBounds.andThen (outBits_not_halted _ s _) fun _ _ => Act.withinBounds_done _ _).andThen fun _ _ =>
    Act.withinBounds_done _ _

theorem rdMagicRule_withinBounds (s : State) : (rdMagicRule s).WithinBounds := by
  refine Act.WithinBounds.andThen (inRead_not_halted 32 s _) fun a t => ?_
  match a with
  | .eos => exact Act.withinBounds_raised _ t
  | .val m =>
    dsimp only
    split
    · exact Act.withinBounds_done _ _
    · exact Act.withinBounds_raised _ t

theorem rdTreeRule_withinBounds (s : State) : (rdTreeRule s).WithinBounds := by
  refine Act.WithinBounds.andThen (getTree_not_halted 0 le_rfl _) fun tc t => ?_
  split
  · exact Act.withinBounds_raised _ t
  · exact Act.withinBounds_done _ _

/-- DECBODY's loop is entered only for a tree whose codes have at least one bit (R133, R183). -/
theorem decBodyRule_withinBounds (s : State) : (decBodyRule s).WithinBounds := by
  refine (needTree_withinBounds s).andThen fun t u => ?_
  split
  · exact Act.withinBounds_done _ _
  · next hl =>
    exact Act.WithinBounds.andThen (decLoop_not_halted (eq_false_of_ne_true hl) le_rfl _) fun _ _ =>
      Act.withinBounds_done _ _

/-! ### The commands -/

/-- The command stays within the bounds on its loops, in every state whatever. -/
def KeepsBounds (c : State → Result) : Prop := ∀ s, c s ≠ .fault .loopBound

theorem Act.WithinBounds.finish {x : Act Unit} (h : x.WithinBounds) : x.finish ≠ .fault .loopBound := by
  intro e
  cases x with
  | halted r =>
    cases e
    exact h rfl
  | done | raised | refused => cases e

theorem finish_keepsBounds {rule : State → Act Unit} (h : ∀ s, (rule s).WithinBounds) :
    KeepsBounds fun s => (rule s).finish :=
  fun s => (h s).finish

theorem issue_keepsBounds {i : Instr} {rule : State → Result} (h : KeepsBounds rule) : KeepsBounds (issue i rule) := by
  intro s
  rcases issue_cases i rule s with ⟨_, k⟩ | ⟨_, _, k⟩ | ⟨_, _, k⟩ <;> rw [k]
  · exact nofun
  · exact h s
  · exact nofun

theorem execClose_keepsBounds : KeepsBounds execClose := by
  have hrule := finish_keepsBounds closeRule_withinBounds
  intro s
  unfold execClose
  split
  · split
    · exact nofun
    · exact hrule s
  · exact issue_keepsBounds hrule s

/-- COMPRESS and DECOMPRESS stay within the bounds if their steps do: CLOSE, the last of them, does (R86). -/
theorem runSteps_keepsBounds {cs : List (State → Result)} (h : ∀ c ∈ cs, KeepsBounds c) :
    KeepsBounds (runSteps cs) := by
  induction cs with
  | nil => exact execClose_keepsBounds
  | cons c cs ih =>
    obtain ⟨hc, hcs⟩ := List.forall_mem_cons.mp h
    intro s
    cases k : c s with
    | next u =>
      by_cases hu : u.phase = .fault
      · rw [runSteps_fault k hu]
        exact execClose_keepsBounds u
      · rw [runSteps_next k hu]
        exact ih hcs u
    | fault r =>
      rw [runSteps, k]
      exact fun e => hc s (k.trans e)
    | refused r =>
      rw [runSteps, k]
      exact nofun

theorem execCount_keepsBounds : KeepsBounds execCount := issue_keepsBounds (finish_keepsBounds countRule_withinBounds)
theorem execBuild_keepsBounds : KeepsBounds execBuild := issue_keepsBounds (finish_keepsBounds buildRule_withinBounds)
theorem execGenCodes_keepsBounds : KeepsBounds execGenCodes :=
  issue_keepsBounds (finish_keepsBounds genCodesRule_withinBounds)
theorem execWrMagic_keepsBounds : KeepsBounds execWrMagic :=
  issue_keepsBounds (finish_keepsBounds wrMagicRule_withinBounds)
theorem execWrTree_keepsBounds : KeepsBounds execWrTree :=
  issue_keepsBounds (finish_keepsBounds wrTreeRule_withinBounds)
theorem execRewind_keepsBounds : KeepsBounds execRewind := issue_keepsBounds fun _ => nofun
theorem execEncBody_keepsBounds : KeepsBounds execEncBody :=
  issue_keepsBounds (finish_keepsBounds encBodyRule_withinBounds)
theorem execRdMagic_keepsBounds : KeepsBounds execRdMagic :=
  issue_keepsBounds (finish_keepsBounds rdMagicRule_withinBounds)
theorem execRdTree_keepsBounds : KeepsBounds execRdTree :=
  issue_keepsBounds (finish_keepsBounds rdTreeRule_withinBounds)
theorem execDecBody_keepsBounds : KeepsBounds execDecBody :=
  issue_keepsBounds (finish_keepsBounds decBodyRule_withinBounds)

theorem execCompress_keepsBounds : KeepsBounds execCompress :=
  issue_keepsBounds (runSteps_keepsBounds (by
    simp only [List.forall_mem_cons]
    exact ⟨execCount_keepsBounds, execBuild_keepsBounds, execGenCodes_keepsBounds, execWrMagic_keepsBounds,
      execWrTree_keepsBounds, execRewind_keepsBounds, execEncBody_keepsBounds, nofun⟩))

theorem execDecompress_keepsBounds : KeepsBounds execDecompress :=
  issue_keepsBounds (runSteps_keepsBounds (by
    simp only [List.forall_mem_cons]
    exact ⟨execRdMagic_keepsBounds, execRdTree_keepsBounds, execDecBody_keepsBounds, nofun⟩))

/-- Every instruction, a record's writing among them, stays within the bounds. -/
theorem exec_keepsBounds (i : Instr) : KeepsBounds (exec i) := by
  cases i with
  | count => exact execCount_keepsBounds
  | build => exact execBuild_keepsBounds
  | genCodes => exact execGenCodes_keepsBounds
  | wrMagic => exact execWrMagic_keepsBounds
  | wrTree => exact execWrTree_keepsBounds
  | rewind => exact execRewind_keepsBounds
  | encBody => exact execEncBody_keepsBounds
  | close => exact execClose_keepsBounds
  | rdMagic => exact execRdMagic_keepsBounds
  | rdTree => exact execRdTree_keepsBounds
  | decBody => exact execDecBody_keepsBounds
  | compress => exact execCompress_keepsBounds
  | decompress => exact execDecompress_keepsBounds
  | hdrMagic m => exact finish_keepsBounds fun s => outWrite_not_halted 32 m.toNat s _
  | treeInternal => exact finish_keepsBounds fun s => outWrite_not_halted 1 0 s _
  | treeLeaf v =>
    exact finish_keepsBounds fun s =>
      Act.WithinBounds.andThen (outWrite_not_halted _ _ s _) fun _ t => outWrite_not_halted _ _ t _
  | bodyCode p => exact finish_keepsBounds fun s => emit_not_halted p s _
  | pad p => exact finish_keepsBounds fun s => outBits_not_halted (List.replicate p false) s _

/-! ### The moves of the host -/

theorem issueWord_keepsBounds (w : Word) : KeepsBounds (issueWord w) := by
  intro s
  unfold issueWord
  split
  · exact exec_keepsBounds _ s
  · split <;> exact nofun

theorem hostMove_keepsBounds (m : HostMove) : KeepsBounds (hostMove m) := by
  intro s
  match m with
  | .write .cmd w => exact issueWord_keepsBounds w s
  | .write .status _ | .read _ | .reset _ | .resetDuring _ _ _ => exact nofun

/-- Settles O59: each round of a loop reads at least one bit or merges two entries, and its bound counts those. -/
theorem loopBoundsSuffice : Obligations.LoopBoundsSuffice := by
  refine ⟨exec_keepsBounds, fun s => ?_⟩
  match hm : s.inbox with
  | [] =>
    rw [step_eq_wait hm]
    exact nofun
  | m :: rest =>
    rw [step_eq_hostMove hm]
    exact hostMove_keepsBounds m _

end Sys2Proof.Machine
end

section
/-! SUPPORT. What raises a fault outside `FAULT`, what `FAULT` accepts, and how the fault register is kept
(spec/60_exceptions.md R207 to R212; spec/10_state.md R21). -/

namespace Sys2Proof.Machine

/-! ### The faults of the command decoder -/

/-- Outside `FAULT` a word that is no command raises `BAD_COMMAND` (R71, R207). -/
theorem issueWord_illegal {w : Word} {s : State} (hw : ¬ ∃ i, decode w = .ok i) (hf : s.phase ≠ .fault) :
    issueWord w s = .next (s.raise .badCommand) := by
  cases hd : decode w with
  | ok i => exact absurd ⟨i, hd⟩ hw
  | error r =>
    rw [issueWord, hd]
    exact if_neg hf

/-- Outside `FAULT` a command out of order raises `BAD_SEQUENCE` (R73, R208). -/
theorem exec_out_of_order {i : Instr} {s : State} (hi : i.isCommand = true) (hf : s.phase ≠ .fault)
    (hl : s.phase ∉ legalPhases i) : exec i s = .next (s.raise .badSequence) := by
  cases i with
  | close => exact (if_neg hf).trans ((if_neg hf).trans (if_neg hl))
  | count | build | genCodes | wrMagic | wrTree | rewind | encBody => exact (if_neg hf).trans (if_neg hl)
  | rdMagic | rdTree | decBody | compress | decompress => exact (if_neg hf).trans (if_neg hl)
  | hdrMagic | treeInternal | treeLeaf | bodyCode | pad => cases hi

/-- Settles O6: a reserved word does not decode, so the decoder raises, and the register was empty. -/
theorem illegalWordRaisesBadCommand : Obligations.IllegalWordRaisesBadCommand := by
  intro s w rest hm hf herr hw
  have hno : ¬ ∃ i, decode w = .ok i := fun hd => (not_reserved_iff w).mpr ((decode_isOk_iff w).mp hd) hw
  rw [step_eq_hostMove hm, ← raise_of_noErr (s := { s with inbox := rest }) herr]
  exact issueWord_illegal hno hf

/-- Settles O7: each command is issued only in its legal phases, and the register was empty. -/
theorem wrongPhaseRaisesBadSequence : Obligations.WrongPhaseRaisesBadSequence := by
  intro s hf herr
  have hbad (i : Instr) (hi : i.isCommand = true) (hl : s.phase ∉ legalPhases i) :
      exec i s = .next { s with err := .badSequence, phase := .fault } := by
    rw [exec_out_of_order hi hf hl, raise_of_noErr herr]
  have hone (i : Instr) (hi : i.isCommand = true) {p : Phase} (hl : legalPhases i = [p]) (hp : s.phase ≠ p) :
      exec i s = .next { s with err := .badSequence, phase := .fault } :=
    hbad i hi (hl ▸ mt List.mem_singleton.mp hp)
  exact ⟨fun hp => ⟨hone .count rfl rfl hp, hone .rdMagic rfl rfl hp, hone .compress rfl rfl hp,
      hone .decompress rfl rfl hp⟩,
    hone .build rfl rfl, hone .genCodes rfl rfl, hone .wrMagic rfl rfl, hone .wrTree rfl rfl, hone .rewind rfl rfl,
    hone .encBody rfl rfl, fun hw hr => hbad .close rfl fun hl => (List.mem_pair.mp hl).elim hw hr,
    hone .rdTree rfl rfl, hone .decBody rfl rfl⟩

/-! ### What FAULT accepts -/

theorem decode_eq_close_iff {w : Word} : decode w = .ok .close ↔ w = 0x00000008 := by
  rw [decode_eq_ok_iff]
  exact ⟨fun h => (Option.some.inj h).symm, fun h => congrArg some h.symm⟩

/-- In `FAULT` the word of CLOSE closes an open output (R211). -/
theorem issueWord_close_of_fault {s : State} (hp : s.phase = .fault) (ho : s.oclosed = false) :
    issueWord 0x00000008 s = .next { s with obits := padded s.obits, oclosed := true } :=
  (issueWord_of_decode (decode_eq_close_iff.mpr rfl) s).trans (exec_close_fault hp ho)

/-- In `FAULT` every other word is ignored, and CLOSE too once the output is closed (R211). -/
theorem issueWord_ignored {w : Word} {s : State} (hp : s.phase = .fault)
    (hw : ¬ (w = 0x00000008 ∧ s.oclosed = false)) : issueWord w s = .next s := by
  cases hd : decode w with
  | error r =>
    rw [issueWord, hd]
    exact if_pos hp
  | ok i =>
    rw [issueWord_of_decode hd]
    by_cases hc : i = .close
    · subst hc
      exact exec_close_ignored hp (eq_true_of_ne_false fun ho => hw ⟨decode_eq_close_iff.mp hd, ho⟩)
    · exact exec_of_fault (isCommand_of_decode hd) hc hp

/-- Settles O8: the word is CLOSE on an open output, or it is ignored. -/
theorem faultAcceptsOnlyClose : Obligations.FaultAcceptsOnlyClose := by
  intro s w rest hm hp
  rw [step_eq_hostMove hm]
  refine ⟨fun hw ho => ?_, issueWord_ignored (s := { s with inbox := rest }) hp⟩
  subst hw
  exact issueWord_close_of_fault (s := { s with inbox := rest }) hp ho

/-! ### FAULT is kept -/

/-- No word leaves `FAULT` or touches `ERR` in it (R211, R212). -/
theorem issueWord_keeps_fault {w : Word} {s t : State} (hp : s.phase = .fault) (h : issueWord w s = .next t) :
    t.phase = .fault ∧ t.err = s.err := by
  by_cases hw : w = 0x00000008 ∧ s.oclosed = false
  · obtain ⟨rfl, ho⟩ := hw
    rw [issueWord_close_of_fault hp ho] at h
    cases h
    exact ⟨hp, rfl⟩
  · rw [issueWord_ignored hp hw] at h
    cases h
    exact ⟨hp, rfl⟩

/-- CLOSE, the last step of a macro that a fault has cut short, leaves that fault (R86, R212). -/
theorem execClose_keeps_fault {s t : State} (hp : s.phase = .fault) (h : execClose s = .next t) :
    t.phase = .fault ∧ t.err = s.err :=
  issueWord_keeps_fault hp ((issueWord_of_decode (decode_eq_close_iff.mpr rfl) s).trans h)

/-- In `FAULT` every move of the host but the two that apply reset keeps `PHASE` and `ERR` (R212). -/
theorem hostMove_keeps_fault {m : HostMove} {s t : State} (hp : s.phase = .fault) (h : hostMove m s = .next t) :
    (t.phase = .fault ∧ t.err = s.err) ∨ (∃ input, m = .reset input) ∨
      ∃ w cut input, m = .resetDuring w cut input := by
  match m with
  | .write .cmd w => exact .inl (issueWord_keeps_fault hp h)
  | .write .status _ | .read _ =>
    cases h
    exact .inl ⟨hp, rfl⟩
  | .reset input => exact .inr (.inl ⟨input, rfl⟩)
  | .resetDuring w cut input => exact .inr (.inr ⟨w, cut, input, rfl⟩)

/-! ### The fault register along an instruction -/

/-- A property of commands holds of every instruction if the ends of the pieces that keep the fault register, REWIND's
rule and CLOSE have it, and the order of commands and the runs of several commands hand it on. -/
theorem exec_of_pieces {P : (State → Result) → Prop}
    (hfinish : ∀ rule : State → Act Unit, (∀ s, (rule s).All (Grows s)) → P fun s => (rule s).finish)
    (hissue : ∀ i rule, P rule → P (issue i rule)) (hreset : P fun s => .next ((inReset s).enter .rewound))
    (hclose : P execClose) (hruns : ∀ cs, (∀ c ∈ cs, P c) → P (runSteps cs)) (i : Instr) : P (exec i) := by
  have hcommand (i : Instr) (rule : State → Act Unit) (h : ∀ s, (rule s).All (Grows s)) :
      P (issue i fun s => (rule s).finish) := hissue i _ (hfinish rule h)
  have hcount : P execCount := hcommand _ _ countRule_grows
  have hbuild : P execBuild := hcommand _ _ buildRule_grows
  have hgenCodes : P execGenCodes := hcommand _ _ genCodesRule_grows
  have hwrMagic : P execWrMagic := hcommand _ _ wrMagicRule_grows
  have hwrTree : P execWrTree := hcommand _ _ wrTreeRule_grows
  have hrewind : P execRewind := hissue _ _ hreset
  have hencBody : P execEncBody := hcommand _ _ encBodyRule_grows
  have hrdMagic : P execRdMagic := hcommand _ _ rdMagicRule_grows
  have hrdTree : P execRdTree := hcommand _ _ rdTreeRule_grows
  have hdecBody : P execDecBody := hcommand _ _ decBodyRule_grows
  cases i with
  | count => exact hcount
  | build => exact hbuild
  | genCodes => exact hgenCodes
  | wrMagic => exact hwrMagic
  | wrTree => exact hwrTree
  | rewind => exact hrewind
  | encBody => exact hencBody
  | close => exact hclose
  | rdMagic => exact hrdMagic
  | rdTree => exact hrdTree
  | decBody => exact hdecBody
  | compress =>
    refine hissue _ _ (hruns _ ?_)
    simp only [List.forall_mem_cons]
    exact ⟨hcount, hbuild, hgenCodes, hwrMagic, hwrTree, hrewind, hencBody, nofun⟩
  | decompress =>
    refine hissue _ _ (hruns _ ?_)
    simp only [List.forall_mem_cons]
    exact ⟨hrdMagic, hrdTree, hdecBody, nofun⟩
  | hdrMagic m => exact hfinish _ (outWrite_grows 32 m.toNat)
  | treeInternal => exact hfinish _ (outWrite_grows 1 0)
  | treeLeaf v => exact hfinish _ (putLeaf_grows v)
  | bodyCode p => exact hfinish _ (emit_grows p)
  | pad p => exact hfinish _ (outBits_grows (List.replicate p false))

/-- `ERR` is the same in `t` as in `s`, or it was empty and `t` is in `FAULT` (R21, R209). -/
def ErrLatched (s t : State) : Prop := t.err = s.err ∨ s.err = .none ∧ t.phase = .fault

theorem errLatched_raise (e : Err) (s : State) : ErrLatched s (s.raise e) := by
  by_cases h : s.err = .none
  · exact .inr ⟨h, rfl⟩
  · exact .inl (if_neg h)

/-- What keeps `ERR` may come first. -/
theorem ErrLatched.after {s t u : State} (h : t.err = s.err) (k : ErrLatched t u) : ErrLatched s u := by
  rw [ErrLatched, ← h]
  exact k

/-- Every next state of a command latches the fault register. -/
def Latches (c : State → Result) : Prop := ∀ s t : State, c s = .next t → ErrLatched s t

/-- Inside a piece `ERR` keeps its value; its end may be fault entry (R209). -/
theorem finish_latches {rule : State → Act Unit} (h : ∀ s, (rule s).All (Grows s)) :
    Latches fun s => (rule s).finish := by
  intro s t e
  have hs := h s
  obtain k | ⟨err, u, k, rfl⟩ := Act.finish_eq_next.mp e <;> rw [k] at hs
  · exact .inl (Grows.err hs)
  · exact (errLatched_raise err u).after (Grows.err hs)

theorem issue_latches {i : Instr} {rule : State → Result} (h : Latches rule) : Latches (issue i rule) := by
  intro s t e
  rcases issue_cases i rule s with ⟨_, k⟩ | ⟨_, _, k⟩ | ⟨_, _, k⟩ <;> rw [k] at e
  · cases e
    exact .inl rfl
  · exact h s t e
  · cases e
    exact errLatched_raise _ s

theorem execClose_latches : Latches execClose := by
  intro s t e
  by_cases hp : s.phase = .fault
  · exact .inl (execClose_keeps_fault hp e).2
  · rw [execClose, if_neg hp] at e
    exact issue_latches (finish_latches closeRule_grows) s t e

/-- COMPRESS and DECOMPRESS latch the register if their steps do: after a fault only CLOSE is run, and it keeps the
fault (R86, R212). -/
theorem runSteps_latches {cs : List (State → Result)} (h : ∀ c ∈ cs, Latches c) : Latches (runSteps cs) := by
  induction cs with
  | nil => exact execClose_latches
  | cons c cs ih =>
    obtain ⟨hc, hcs⟩ := List.forall_mem_cons.mp h
    intro s t e
    cases k : c s with
    | next u =>
      by_cases hu : u.phase = .fault
      · obtain ⟨hphase, herr⟩ := execClose_keeps_fault hu (runSteps_fault k hu ▸ e)
        obtain hsame | ⟨hnone, -⟩ := hc s u k
        · exact .inl (herr.trans hsame)
        · exact .inr ⟨hnone, hphase⟩
      · have hsame : u.err = s.err := (hc s u k).resolve_right fun hfault => hu hfault.2
        exact (ih hcs u t (runSteps_next k hu ▸ e)).after hsame
    | fault r => simp [runSteps, k] at e
    | refused r => simp [runSteps, k] at e

/-- Every instruction, a record's writing among them, latches the fault register (R21, R209). -/
theorem exec_latches (i : Instr) : Latches (exec i) :=
  exec_of_pieces (fun _ => finish_latches) (fun _ _ => issue_latches) (fun _ _ e => by cases e; exact .inl rfl)
    execClose_latches (fun _ => runSteps_latches) i

/-- Settles O9: no move but a reset leaves `FAULT`, and an instruction writes `ERR` only at a fault entry that finds it
empty. -/
theorem onlyResetLeavesFault : Obligations.OnlyResetLeavesFault := by
  refine ⟨fun s t m rest hm hp h => ?_, fun i s t h => ?_⟩
  · rw [step_eq_hostMove hm] at h
    exact hostMove_keeps_fault (s := { s with inbox := rest }) hp h
  · obtain hsame | ⟨hnone, hfault⟩ := exec_latches i s t h
    · exact ⟨fun _ => hsame, fun hne => absurd hsame hne⟩
    · exact ⟨fun hne => absurd hnone hne, fun _ => hfault⟩

end Sys2Proof.Machine
end

section
/-! SUPPORT. Reset at any time: between two commands and in the middle of one (spec/70_reset_and_hazards.md R230, R233;
spec/20_memory.md R52). -/

namespace Sys2Proof.Machine

/-- Settles O12: the reset is one move of the host, and it applies to every state alike. -/
theorem resetFromAnyState : Obligations.ResetFromAnyState :=
  fun _ _ _ hm => step_eq_hostMove hm

/-- A written word takes back no output: its command only appends, and a word that does not decode writes nothing (R52,
R71). -/
theorem issueWord_appends (w : Word) : Appends (issueWord w) := by
  intro s t e
  cases hd : decode w with
  | ok i => exact exec_appends i s t (issueWord_of_decode hd s ▸ e)
  | error r =>
    by_cases hp : s.phase = .fault
    · rw [issueWord_ignored hp fun hc => by simp [decode_eq_close_iff.mpr hc.1] at hd] at e
      cases e
      exact .refl s
    · rw [issueWord_illegal (by simp [hd]) hp] at e
      cases e
      exact onlyAppends_raise _ s

/-- `written` is an output that a reset in the middle of the word `w` can find: it extends the output before the word,
and it is that output or begins the one the whole word leaves (R52, R230). -/
def WrittenBy (w : Word) (s : State) (written : Bits) : Prop :=
  s.obits <+: written ∧ (written = s.obits ∨ ∃ t, issueWord w s = .next t ∧ written <+: t.obits)

theorem writtenBy_before (w : Word) (s : State) : WrittenBy w s s.obits := ⟨List.prefix_rfl, .inl rfl⟩

/-- A cut after the output before the word falls in what the word writes, since the word only appends. -/
theorem writtenBy_take {w : Word} {s t : State} (e : issueWord w s = .next t) {n : Nat} (hn : s.obits.length ≤ n) :
    WrittenBy w s (t.obits.take n) :=
  ⟨List.prefix_take_iff.mpr ⟨(issueWord_appends w s t e).obits, hn⟩, .inr ⟨t, e, List.take_prefix n t.obits⟩⟩

/-- What a reset in the middle of a word finds differs from the state before the word in the output alone. -/
theorem cutShort_writtenBy (w : Word) (cut : Nat) (s : State) :
    ∃ written, WrittenBy w s written ∧ cutShort w cut s = { s with obits := written } := by
  unfold cutShort
  split
  · next t e => exact ⟨_, writtenBy_take e (le_max_left _ cut), rfl⟩
  · exact ⟨_, writtenBy_before w s, rfl⟩
  · exact ⟨_, writtenBy_before w s, rfl⟩

/-- Settles O13: the reset applies to the state before the command with the output cut short. -/
theorem resetInTheMiddleOfACommandWins : Obligations.ResetInTheMiddleOfACommandWins := by
  intro s w cut input rest hm
  obtain ⟨written, ⟨hbefore, hupto⟩, hcut⟩ := cutShort_writtenBy w cut { s with inbox := rest }
  refine ⟨written, hbefore, hupto, ?_⟩
  rw [step_eq_hostMove hm, hostMove, hcut]
  rfl

end Sys2Proof.Machine
end
